-- ==== Sys2Proof/Word.lean ====
section
/-! DEFINITION. The plain data of the core: words, bytes, bit strings, grids and segments (00_scope.md R9, R10; 10_state.md
R35, R41). Everything is unsigned; nothing here computes more than a field selection. -/

namespace Sys2Proof

/-- A 32-bit command or response word, bit 31 the most significant (30_encoding.md R70). -/
abbrev Word := BitVec 32

/-- An 8-bit byte (00_scope.md R9); also an element of GF(2^8) (40_gf_arithmetic.md R100) and a codeword (R15). -/
abbrev Byte := BitVec 8

/-- A bit string, its first bit first (00_scope.md R10). -/
abbrev Bits := List Bool

/-- A module grid as its rows from the top, each from the left; `true` is dark (00_scope.md R13). The same type
serves the function map `FUNC` (10_state.md R42). -/
abbrev Grid := List (List Bool)

/-- A stored segment, the four fields of 10_state.md R35. -/
structure Segment where
  /-- `SEG[i].mode`, the 4-bit mode indicator (R134). -/
  mode : BitVec 4
  /-- `SEG[i].count`, the number of input bytes the segment was made from. -/
  count : BitVec 16
  /-- `SEG[i].blen`, the length of the payload in bits. -/
  blen : BitVec 24
  /-- `SEG[i].bits`, the payload, first bit first in the stream. -/
  bits : Bits
  deriving DecidableEq, Repr, Inhabited

end Sys2Proof
end

