-- ==== Sys2Proof/Syntax.lean ====
section
/-! DEFINITION. The commands of QRC-1 as syntax: one constructor per row of the opcode map (30_encoding.md R75), its
arguments the fields of R71 and R72 at their widths. -/

namespace Sys2Proof

/-- The four ECC levels in the order of 00_scope.md R14. -/
inductive Level where
  | low
  | medium
  | quartile
  | high
  deriving DecidableEq, Repr

/-- The mode a `SEG` command asks for (30_encoding.md R72, field `mode`; 42_segment_encoder.md R137, `req`). -/
inductive ModeRequest where
  | auto
  | numeric
  | alphanumeric
  | byte
  deriving DecidableEq, Repr

/-- The modes a segment is made in (42_segment_encoder.md R130, R144). -/
inductive Mode where
  | numeric
  | alphanumeric
  | byte
  deriving DecidableEq, Repr

/-- The 25 commands. -/
inductive Instr where
  /-- `RESET` (46_encode_and_system.md R243). -/
  | reset
  /-- `GETR sel` (46_encode_and_system.md R244). -/
  | getr (sel : BitVec 16)
  /-- `GFMUL x, y` (40_gf_arithmetic.md R103). -/
  | gfmul (x y : Byte)
  /-- `RSINIT idx` (41_reed_solomon.md R114). -/
  | rsinit (idx : BitVec 16)
  /-- `RSREM` (41_reed_solomon.md R115). -/
  | rsrem
  /-- `PUTR b` (41_reed_solomon.md R116). -/
  | putr (b : Byte)
  /-- `CLRR` (41_reed_solomon.md R117). -/
  | clrr
  /-- `GETE idx` (41_reed_solomon.md R118). -/
  | gete (idx : BitVec 16)
  /-- `GETG idx` (41_reed_solomon.md R119). -/
  | getg (idx : BitVec 16)
  /-- `NEWSYM` (42_segment_encoder.md R140). -/
  | newsym
  /-- `PUTI b` (42_segment_encoder.md R141). -/
  | puti (b : Byte)
  /-- `CLRI` (42_segment_encoder.md R142). -/
  | clri
  /-- `SEG mode` (42_segment_encoder.md R146). -/
  | seg (req : ModeRequest)
  /-- `GETSEG s, k` (42_segment_encoder.md R149). -/
  | getseg (idx : BitVec 8) (k : BitVec 16)
  /-- `GETSB s, k` (42_segment_encoder.md R150). -/
  | getsb (idx : BitVec 8) (k : BitVec 16)
  /-- `VSEL ecl, minv, maxv` (43_version_selector.md R166). -/
  | vsel (ecl : Level) (minv maxv : BitVec 6)
  /-- `ASM` (44_codeword_assembler.md R184). -/
  | asm
  /-- `ILV` (44_codeword_assembler.md R189). -/
  | ilv
  /-- `GETD idx` (44_codeword_assembler.md R190). -/
  | getd (idx : BitVec 16)
  /-- `GETO idx` (44_codeword_assembler.md R191). -/
  | geto (idx : BitVec 16)
  /-- `FNPAT` (45_matrix_builder.md R210). -/
  | fnpat
  /-- `PLACE` (45_matrix_builder.md R213). -/
  | place
  /-- `MASK auto, mask` (45_matrix_builder.md R223). -/
  | mask (auto : Bool) (pattern : BitVec 3)
  /-- `GETM row, col` (45_matrix_builder.md R224). -/
  | getm (row col : Byte)
  /-- `ENCODE ecl, minv, maxv, auto, mask` (46_encode_and_system.md R241). -/
  | encode (ecl : Level) (minv maxv : BitVec 6) (auto : Bool) (pattern : BitVec 3)
  deriving DecidableEq, Repr

end Sys2Proof
end

