-- ==== Sys2Proof/WellFormed.lean ====
section
/-! DEFINITION. Which terms of `Instr` are commands. The field widths are in the types; what is left is 30_encoding.md R76
item 3: `MASK` and `ENCODE` with `auto` = 1 have `mask` = 0. -/

namespace Sys2Proof

/-- The `auto`, `mask` pair of `MASK` and `ENCODE` is legal (30_encoding.md R76 item 3). -/
def maskFieldsLegal (auto : Bool) (pattern : BitVec 3) : Bool := !auto || pattern == 0#3

/-- `i` is a command of the machine: some word encodes it. -/
def Instr.wellFormed : Instr → Bool
  | .mask auto pattern => maskFieldsLegal auto pattern
  | .encode _ _ _ auto pattern => maskFieldsLegal auto pattern
  | .reset | .getr _ | .gfmul _ _ | .rsinit _ | .rsrem | .putr _ | .clrr | .gete _ | .getg _ | .newsym | .puti _
  | .clri | .seg _ | .getseg _ _ | .getsb _ _ | .vsel _ _ _ | .asm | .ilv | .getd _ | .geto _ | .fnpat | .place
  | .getm _ _ => true

end Sys2Proof
end

