-- ==== Sys2Proof/Decode.lean ====
section
/-! DEFINITION. The decoder (30_encoding.md R71, R72, R75, R76, R81), total on 32-bit words and refusing by name, and after
it the encoder, written from the formats of R71. -/

namespace Sys2Proof

/-- Why a word is no command: the three items of 30_encoding.md R76. All three raise the same error, IllegalCommand. -/
inductive DecodeError where
  /-- `op` is not one of the 25 opcodes. -/
  | unknownOpcode
  /-- A must-be-zero bit of the command's format is 1. -/
  | reservedBitSet
  /-- `MASK` or `ENCODE` with `auto` = 1 and `mask` ≠ 0. -/
  | autoWithMask
  deriving DecidableEq, Repr

/-- A row of the opcode map of 30_encoding.md R75: mnemonic, match, mask, and the fields taken from a word (R72). -/
structure OpcodeRow where
  mnemonic : String
  pat : Word
  mask : Word
  fields : Word → Instr

/-- Field `op`, bits 31:24. -/
def opField (w : Word) : BitVec 8 := w.extractLsb' 24 8
/-- Field `b`, or `y` (`col`), bits 7:0. -/
def byteLow (w : Word) : Byte := w.extractLsb' 0 8
/-- Field `x` (`row`), bits 15:8. -/
def byteMid (w : Word) : Byte := w.extractLsb' 8 8
/-- Field `idx`, or `k`, bits 15:0. -/
def idxField (w : Word) : BitVec 16 := w.extractLsb' 0 16
/-- Field `s`, bits 23:16. -/
def segField (w : Word) : BitVec 8 := w.extractLsb' 16 8
/-- Field `mode`, bits 1:0. -/
def modeField (w : Word) : BitVec 2 := w.extractLsb' 0 2
/-- Field `ecl`, bits 23:22. -/
def eclField (w : Word) : BitVec 2 := w.extractLsb' 22 2
/-- Field `minv`, bits 21:16. -/
def minvField (w : Word) : BitVec 6 := w.extractLsb' 16 6
/-- Field `maxv`, bits 15:10. -/
def maxvField (w : Word) : BitVec 6 := w.extractLsb' 10 6
/-- Field `auto`, bit 3. -/
def autoField (w : Word) : Bool := w.getLsbD 3
/-- Field `mask`, bits 2:0. -/
def maskField (w : Word) : BitVec 3 := w.extractLsb' 0 3

/-- The level numbered by two bits (00_scope.md R14). -/
def levelOfBits (b : BitVec 2) : Level :=
  if b = 0#2 then .low else if b = 1#2 then .medium else if b = 2#2 then .quartile else .high

/-- The two-bit number of a level (00_scope.md R14). -/
def levelBits : Level → BitVec 2
  | .low => 0#2
  | .medium => 1#2
  | .quartile => 2#2
  | .high => 3#2

/-- The mode request numbered by two bits (30_encoding.md R72). -/
def requestOfBits (b : BitVec 2) : ModeRequest :=
  if b = 0#2 then .auto else if b = 1#2 then .numeric else if b = 2#2 then .alphanumeric else .byte

/-- The two-bit number of a mode request (30_encoding.md R72). -/
def requestBits : ModeRequest → BitVec 2
  | .auto => 0#2
  | .numeric => 1#2
  | .alphanumeric => 2#2
  | .byte => 3#2

/-- Rows 0x01 to 0x25 of the opcode map (30_encoding.md R75): system, GF unit, RS unit. -/
def opcodeRowsLow : List OpcodeRow :=
  [⟨"RESET", 0x01000000#32, 0xFFFFFFFF#32, fun _ => .reset⟩,
   ⟨"GETR", 0x02000000#32, 0xFFFF0000#32, fun w => .getr (idxField w)⟩,
   ⟨"GFMUL", 0x10000000#32, 0xFFFF0000#32, fun w => .gfmul (byteMid w) (byteLow w)⟩,
   ⟨"RSINIT", 0x20000000#32, 0xFFFF0000#32, fun w => .rsinit (idxField w)⟩,
   ⟨"RSREM", 0x21000000#32, 0xFFFFFFFF#32, fun _ => .rsrem⟩,
   ⟨"PUTR", 0x22000000#32, 0xFFFFFF00#32, fun w => .putr (byteLow w)⟩,
   ⟨"CLRR", 0x23000000#32, 0xFFFFFFFF#32, fun _ => .clrr⟩,
   ⟨"GETE", 0x24000000#32, 0xFFFF0000#32, fun w => .gete (idxField w)⟩,
   ⟨"GETG", 0x25000000#32, 0xFFFF0000#32, fun w => .getg (idxField w)⟩]

/-- Rows 0x30 to 0x40 of the opcode map (30_encoding.md R75): segments, version. -/
def opcodeRowsMid : List OpcodeRow :=
  [⟨"NEWSYM", 0x30000000#32, 0xFFFFFFFF#32, fun _ => .newsym⟩,
   ⟨"PUTI", 0x31000000#32, 0xFFFFFF00#32, fun w => .puti (byteLow w)⟩,
   ⟨"CLRI", 0x32000000#32, 0xFFFFFFFF#32, fun _ => .clri⟩,
   ⟨"SEG", 0x33000000#32, 0xFFFFFFFC#32, fun w => .seg (requestOfBits (modeField w))⟩,
   ⟨"GETSEG", 0x34000000#32, 0xFF000000#32, fun w => .getseg (segField w) (idxField w)⟩,
   ⟨"GETSB", 0x35000000#32, 0xFF000000#32, fun w => .getsb (segField w) (idxField w)⟩,
   ⟨"VSEL", 0x40000000#32, 0xFF0003FF#32, fun w => .vsel (levelOfBits (eclField w)) (minvField w) (maxvField w)⟩]

/-- Rows 0x50 to 0x70 of the opcode map (30_encoding.md R75): codewords, matrix, whole encode. -/
def opcodeRowsHigh : List OpcodeRow :=
  [⟨"ASM", 0x50000000#32, 0xFFFFFFFF#32, fun _ => .asm⟩,
   ⟨"ILV", 0x51000000#32, 0xFFFFFFFF#32, fun _ => .ilv⟩,
   ⟨"GETD", 0x52000000#32, 0xFFFF0000#32, fun w => .getd (idxField w)⟩,
   ⟨"GETO", 0x53000000#32, 0xFFFF0000#32, fun w => .geto (idxField w)⟩,
   ⟨"FNPAT", 0x60000000#32, 0xFFFFFFFF#32, fun _ => .fnpat⟩,
   ⟨"PLACE", 0x61000000#32, 0xFFFFFFFF#32, fun _ => .place⟩,
   ⟨"MASK", 0x62000000#32, 0xFFFFFFF0#32, fun w => .mask (autoField w) (maskField w)⟩,
   ⟨"GETM", 0x63000000#32, 0xFFFF0000#32, fun w => .getm (byteMid w) (byteLow w)⟩,
   ⟨"ENCODE", 0x70000000#32, 0xFF0003F0#32, fun w =>
      .encode (levelOfBits (eclField w)) (minvField w) (maxvField w) (autoField w) (maskField w)⟩]

/-- The complete opcode map (30_encoding.md R75). -/
def opcodeRows : List OpcodeRow := opcodeRowsLow ++ opcodeRowsMid ++ opcodeRowsHigh

/-- The row whose opcode is `op`, if there is one. -/
def rowOf (op : BitVec 8) : Option OpcodeRow := opcodeRows.find? fun r => opField r.pat == op

/-- Decoding a word once its row is found: the must-be-zero bits, the fields, then the `auto`, `mask` check
(30_encoding.md R81). -/
def decodeRow (r : OpcodeRow) (w : Word) : Except DecodeError Instr :=
  if w &&& r.mask = r.pat then
    if (r.fields w).wellFormed then .ok (r.fields w) else .error .autoWithMask
  else .error .reservedBitSet

/-- The decoder (30_encoding.md R81), total on words. -/
def decode (w : Word) : Except DecodeError Instr :=
  match rowOf (opField w) with
  | none => .error .unknownOpcode
  | some r => decodeRow r w

/-- What the decoder reads from a table word; every command is one 32-bit word (30_encoding.md R78), and the bits from
`nbits` up are 0. -/
def decodeTableWord (nbits w : Nat) : Option Instr :=
  match decode (BitVec.ofNat 32 (w % 2 ^ nbits)) with
  | .ok i => some i
  | .error _ => none

/-- A field of a word: `v` with its lowest bit at bit `lo`, all other bits zero. -/
def fieldAt {k : Nat} (lo : Nat) (v : BitVec k) : Word := v.setWidth 32 <<< lo

/-- Format `F0` (30_encoding.md R71). -/
def encodeF0 (op : BitVec 8) : Word := fieldAt 24 op
/-- Format `FB` (30_encoding.md R71). -/
def encodeFB (op b : BitVec 8) : Word := fieldAt 24 op ||| fieldAt 0 b
/-- Format `FXY` (30_encoding.md R71). -/
def encodeFXY (op x y : BitVec 8) : Word := fieldAt 24 op ||| fieldAt 8 x ||| fieldAt 0 y
/-- Format `FI` (30_encoding.md R71). -/
def encodeFI (op : BitVec 8) (idx : BitVec 16) : Word := fieldAt 24 op ||| fieldAt 0 idx
/-- Format `FS` (30_encoding.md R71). -/
def encodeFS (op s : BitVec 8) (k : BitVec 16) : Word := fieldAt 24 op ||| fieldAt 16 s ||| fieldAt 0 k
/-- Format `FM` (30_encoding.md R71). -/
def encodeFM (op : BitVec 8) (mode : BitVec 2) : Word := fieldAt 24 op ||| fieldAt 0 mode
/-- Format `FK` (30_encoding.md R71). -/
def encodeFK (op : BitVec 8) (auto : Bool) (pattern : BitVec 3) : Word :=
  fieldAt 24 op ||| fieldAt 3 (BitVec.ofBool auto) ||| fieldAt 0 pattern
/-- Format `FV` (30_encoding.md R71). -/
def encodeFV (op : BitVec 8) (ecl : BitVec 2) (minv maxv : BitVec 6) (auto : Bool) (pattern : BitVec 3) : Word :=
  fieldAt 24 op ||| fieldAt 22 ecl ||| fieldAt 16 minv ||| fieldAt 10 maxv ||| fieldAt 3 (BitVec.ofBool auto) |||
    fieldAt 0 pattern

/-- The opcode of a command (30_encoding.md R75). -/
def opcodeOf : Instr → BitVec 8
  | .reset => 0x01#8
  | .getr _ => 0x02#8
  | .gfmul _ _ => 0x10#8
  | .rsinit _ => 0x20#8
  | .rsrem => 0x21#8
  | .putr _ => 0x22#8
  | .clrr => 0x23#8
  | .gete _ => 0x24#8
  | .getg _ => 0x25#8
  | .newsym => 0x30#8
  | .puti _ => 0x31#8
  | .clri => 0x32#8
  | .seg _ => 0x33#8
  | .getseg _ _ => 0x34#8
  | .getsb _ _ => 0x35#8
  | .vsel _ _ _ => 0x40#8
  | .asm => 0x50#8
  | .ilv => 0x51#8
  | .getd _ => 0x52#8
  | .geto _ => 0x53#8
  | .fnpat => 0x60#8
  | .place => 0x61#8
  | .mask _ _ => 0x62#8
  | .getm _ _ => 0x63#8
  | .encode _ _ _ _ _ => 0x70#8

/-- The word of a command (30_encoding.md R71, R72, R75). -/
def encode (i : Instr) : Word :=
  match i with
  | .reset | .rsrem | .clrr | .newsym | .clri | .asm | .ilv | .fnpat | .place => encodeF0 (opcodeOf i)
  | .putr b | .puti b => encodeFB (opcodeOf i) b
  | .gfmul x y | .getm x y => encodeFXY (opcodeOf i) x y
  | .getr idx | .rsinit idx | .gete idx | .getg idx | .getd idx | .geto idx => encodeFI (opcodeOf i) idx
  | .getseg s k | .getsb s k => encodeFS (opcodeOf i) s k
  | .seg req => encodeFM (opcodeOf i) (requestBits req)
  | .vsel ecl minv maxv => encodeFV (opcodeOf i) (levelBits ecl) minv maxv false 0#3
  | .mask auto pattern => encodeFK (opcodeOf i) auto pattern
  | .encode ecl minv maxv auto pattern =>
      encodeFV (opcodeOf i) (levelBits ecl) minv maxv auto pattern

end Sys2Proof
end

