-- ==== Sys2Proof/Config.lean ====
section
/-! DEFINITION. What a core is built with and no command changes. The parameters a model takes as arguments: the four
capacities (00_scope.md R7) and the constant tables and functions (R8), one field each. The values the source fixes (R6).
The free values: the opaque constants below have no body, so nothing can be proved of what they are. The values the spec
gives the parameters, which a test may show wrong, stand in Machine/SpecConfig.lean, Tables.lean and Penalty.lean. -/

namespace Sys2Proof

/-- The four capacities of 00_scope.md R7. -/
structure Capacities where
  /-- `RBUF_CAP`, the bytes `RBUF` holds. -/
  rbufCap : Nat
  /-- `IBUF_CAP`, the bytes `IBUF` holds. -/
  ibufCap : Nat
  /-- `NSEG_MAX`, the segments the segment store holds. -/
  nsegMax : Nat
  /-- `SBIT_CAP`, the payload bits the segment store holds. -/
  sbitCap : Nat
  deriving DecidableEq, Repr

/-- The constraints of 00_scope.md R7. -/
structure Capacities.Legal (c : Capacities) : Prop where
  rbufCap : 1 ≤ c.rbufCap ∧ c.rbufCap ≤ 65535
  ibufCap : 7090 ≤ c.ibufCap ∧ c.ibufCap ≤ 65535
  nsegMax : 1 ≤ c.nsegMax ∧ c.nsegMax ≤ 255
  sbitCap : 23648 ≤ c.sbitCap ∧ c.sbitCap < 2 ^ 24 ∧ 8 * c.ibufCap ≤ c.sbitCap

/-- What the machine takes as arguments beside state and command (00_scope.md R19): the capacities of R7, and the tables and
functions of R8 in the order of its rows. No rule constrains the tables; what the model computes where one breaks a premise of
R10's notation is assumption 16. -/
structure Configuration where
  capacities : Capacities
  /-- `MODE_IND[mode]` (42_segment_encoder.md R134). -/
  modeIndicator : Mode → BitVec 4
  /-- `CCBITS` of a 4-bit mode indicator and a version (42_segment_encoder.md R135). -/
  ccbits : BitVec 4 → Nat → Nat
  /-- `ECC_PER_BLOCK[level][version]` (43_version_selector.md R162). -/
  eccPerBlock : Level → Nat → Nat
  /-- `NUM_BLOCKS[level][version]` (43_version_selector.md R162). -/
  numBlocks : Level → Nat → Nat
  /-- `raw_modules(version)` (43_version_selector.md R161). -/
  rawModules : Nat → Nat
  /-- `ALIGN_POS[version]` (45_matrix_builder.md R204). -/
  alignPos : Nat → List Nat
  /-- `format_word(level, mask)` (45_matrix_builder.md R206). -/
  formatWord : Level → Nat → Nat
  /-- `version_word(version)` (45_matrix_builder.md R207). -/
  versionWord : Nat → Nat
  /-- `mask_fn[k](row, col)` (45_matrix_builder.md R214). -/
  maskFn : Nat → Nat → Nat → Bool
  /-- `penalty(grid)` of a grid of the given side (45_matrix_builder.md R217). -/
  penalty : Nat → Grid → Nat

/-- The same tables with other capacities. -/
def Configuration.withCapacities (cfg : Configuration) (c : Capacities) : Configuration := { cfg with capacities := c }

end Sys2Proof

namespace Sys2Proof.Config

/-- 0x11D without its bit 8: what a reduction adds (40_gf_arithmetic.md R101). -/
def reducer : Byte := 0x1D#8

/-- The generator r = 2 of the field (41_reed_solomon.md R110). -/
def fieldGenerator : Byte := 0x02#8

/-- The first pad codeword (44_codeword_assembler.md R183). -/
def padFirst : Byte := 0xEC#8

/-- The second pad codeword (44_codeword_assembler.md R183). -/
def padSecond : Byte := 0x11#8

/-- The widest terminator in bits (00_scope.md R6). -/
def terminatorBits : Nat := 4

/-- The least version (00_scope.md R6). -/
def versionMin : Nat := 1

/-- The greatest version (00_scope.md R6). -/
def versionMax : Nat := 40

/-- The side length 4·v + 17 of a version-v grid (00_scope.md R6). -/
def sideLength (v : Nat) : Nat := 4 * v + 17

/-- FREE VALUE (assumption 4): the byte at index `i` of a byte buffer that holds no byte there, although its length
register lets a command read it. No reachable state has such an index. -/
opaque unwrittenByte : Nat → Byte

/-- FREE VALUE (assumption 4): bit `i` of a segment payload that holds fewer bits than its `blen`. -/
opaque unwrittenBit : Nat → Bool

/-- FREE VALUE (assumption 4): entry `i` of a segment store that holds fewer segments than `NSEG`. -/
opaque unwrittenSegment : Nat → Segment

/-- FREE VALUE (assumption 4): module (row, col) of a grid that holds no such module although `SIZE` covers it. -/
opaque unwrittenModule : Nat → Nat → Bool

/-- FREE VALUE (assumption 5): the entry of the numeric constant table `t` at a version (or other key) the spec lists no
entry for. -/
opaque unlistedEntry : Nat → Nat → Nat

/-- FREE VALUE (assumption 5): the alignment pattern positions of a version outside 1 to 40. -/
opaque unlistedPositions : Nat → List Nat

end Sys2Proof.Config
end

