-- ==== Sys2Proof/Machine/State.lean ====
section
/-! DEFINITION. The state of the core (10_state.md), grouped as R20 groups it, with the command and response ports
(30_encoding.md R70); the reasons a step may stop; and the state after reset (10_state.md R47). Every length register is
held beside the buffer it bounds, and a buffer is held as the list of the items below its length: what lies beyond is
unspecified and unreadable (R47, assumption 3). -/

namespace Sys2Proof.Machine

/-- The RS unit (10_state.md R26 to R32). -/
structure RsUnit where
  /-- `GV`, generator valid (R26). -/
  gv : BitVec 1
  /-- `DEG`, the degree of the generator (R27). -/
  deg : BitVec 8
  /-- `DIV[0..DEG)`, the divisor's coefficients (R28). -/
  div : List Byte
  /-- `RLEN` (R29). -/
  rlen : BitVec 16
  /-- `RBUF[0..RLEN)`, the Reed-Solomon input (R29). -/
  rbuf : List Byte
  /-- `ELEN` (R30). -/
  elen : BitVec 8
  /-- `EBUF[0..ELEN)`, the remainder (R30). -/
  ebuf : List Byte
  deriving DecidableEq, Repr

/-- The PIPE unit (10_state.md R33 to R44). -/
structure PipeUnit where
  /-- `STAGE` (R33). -/
  stage : BitVec 3
  /-- `ILEN` (R34). -/
  ilen : BitVec 16
  /-- `IBUF[0..ILEN)`, the input of the next segment (R34). -/
  ibuf : List Byte
  /-- `NSEG` (R35). -/
  nseg : BitVec 8
  /-- `SEG[0..NSEG)`, the segment store (R35). -/
  segs : List Segment
  /-- `SBITS` (R35). -/
  sbits : BitVec 24
  /-- `ECL` (R36). -/
  ecl : BitVec 2
  /-- `VER` (R37). -/
  ver : BitVec 6
  /-- `DLEN` (R38). -/
  dlen : BitVec 12
  /-- `DBUF[0..DLEN)`, the data codewords (R38). -/
  dbuf : List Byte
  /-- `OLEN` (R39). -/
  olen : BitVec 12
  /-- `OBUF[0..OLEN)`, the final codeword sequence (R39). -/
  obuf : List Byte
  /-- `REM` (R44). -/
  rem : BitVec 3
  /-- `SIZE` (R40). -/
  size : BitVec 8
  /-- `GRID`, its `SIZE` × `SIZE` part (R41). -/
  grid : Grid
  /-- `FUNC`, its `SIZE` × `SIZE` part (R42). -/
  func : Grid
  /-- `MASK` (R43). -/
  mask : BitVec 3
  deriving DecidableEq, Repr

/-- The two ports as a step sees them (30_encoding.md R70, 00_scope.md R12; assumptions 1 and 2). -/
structure Ports where
  /-- The command words the host has still to transfer, the next one first: its program (R12). -/
  cmds : List Word
  /-- The response words put out so far, the first one first. -/
  rsps : List Word
  deriving DecidableEq, Repr

/-- The state of the machine. -/
structure State where
  /-- `EFLAGS`: bit 0 `IA`, 1 `DTL`, 2 `IIV`, 3 `ILL` (10_state.md R23). -/
  eflags : BitVec 4
  /-- `HALT` (10_state.md R24). -/
  halt : BitVec 1
  /-- `RES`, the GF unit (10_state.md R25). -/
  res : Byte
  /-- The RS unit. -/
  rs : RsUnit
  /-- The PIPE unit. -/
  pipe : PipeUnit
  /-- The command and response ports. -/
  ports : Ports
  deriving DecidableEq, Repr

/-- Why the machine stops with a fault: never. Every command of this machine, whatever the state, ends with one response
word (30_encoding.md R70, R73), and an error is a response and a sticky flag (60_exceptions.md R266), a next state. The
type has no constructor, so no step can answer a fault. -/
inductive Fault : Type
  deriving DecidableEq, Repr

/-- Why the model has no meaning for a command. -/
inductive Refusal where
  /-- Raised by `exec`'s arm of a command that has no meaning yet, by the table's mnemonic; safe. No arm raises it now. -/
  | notModelled (mnemonic : String)
  deriving DecidableEq, Repr

/-- The RS unit after reset (10_state.md R47). -/
def RsUnit.reset : RsUnit :=
  { gv := 0, deg := 0, div := [], rlen := 0, rbuf := [], elen := 0, ebuf := [] }

/-- The PIPE unit after reset (10_state.md R47), and after `NEWSYM` (42_segment_encoder.md R140). -/
def PipeUnit.reset : PipeUnit :=
  { stage := 0, ilen := 0, ibuf := [], nseg := 0, segs := [], sbits := 0, ecl := 0, ver := 0, dlen := 0, dbuf := [],
    olen := 0, obuf := [], rem := 0, size := 0, grid := [], func := [], mask := 0 }

/-- The machine right after reset (10_state.md R47, 70_reset_and_hazards.md R290): every scalar register 0, every buffer
without a readable item (assumption 3), no command waiting and no response given (assumption 1). -/
def State.reset : State :=
  { eflags := 0, halt := 0, res := 0, rs := RsUnit.reset, pipe := PipeUnit.reset, ports := { cmds := [], rsps := [] } }

end Sys2Proof.Machine
end

