-- ==== Sys2Proof/Machine/Flags.lean ====
section
/-! DEFINITION. The kinds of error, their status codes and their sticky bits in `EFLAGS` (60_exceptions.md R260,
30_encoding.md R74, 10_state.md R23). The machine has no other flags: no command branches, and `HALT` is a register. -/

namespace Sys2Proof.Machine

/-- The four kinds of error (60_exceptions.md R260). -/
inductive ErrKind where
  /-- Code 1: an operand, an index or the stage is wrong (R261). -/
  | invalidArgument
  /-- Code 2: the payload does not fit (R263). -/
  | dataTooLong
  /-- Code 3: an internal check failed (R264). -/
  | internalInvariant
  /-- Code 4: the word is no command (R265). -/
  | illegalCommand
  deriving DecidableEq, Repr

/-- `code(Kind)` (30_encoding.md R74). -/
def statusCode : ErrKind → BitVec 4
  | .invalidArgument => 1#4
  | .dataTooLong => 2#4
  | .internalInvariant => 3#4
  | .illegalCommand => 4#4

/-- The `EFLAGS` bit of a kind, as a mask (10_state.md R23). -/
def flagMask : ErrKind → BitVec 4
  | .invalidArgument => 0b0001#4
  | .dataTooLong => 0b0010#4
  | .internalInvariant => 0b0100#4
  | .illegalCommand => 0b1000#4

/-- `EFLAGS` after an error of kind `k`: its bit set, the others as they were (10_state.md R23). -/
def setFlag (k : ErrKind) (eflags : BitVec 4) : BitVec 4 := eflags ||| flagMask k

/-- `HALT` after an error of kind `k` (10_state.md R24, 60_exceptions.md R266). -/
def haltAfter (k : ErrKind) (halt : BitVec 1) : BitVec 1 :=
  match k with
  | .internalInvariant => 1#1
  | .invalidArgument | .dataTooLong | .illegalCommand => halt

end Sys2Proof.Machine
end

