-- ==== Sys2Proof/Machine/Ops.lean ====
section
/-! DEFINITION. The operations all commands share: answering, raising an error (60_exceptions.md R266: this machine's only
form of exception), the halted answer (R268), and the reset input (70_reset_and_hazards.md R290). There is no return from an
exception (R270): the next command simply runs, and the halted state is left by `RESET` or `rst`. -/

namespace Sys2Proof.Machine

/-- Put a response word on the response port. -/
def putResponse (w : Word) (s : State) : State :=
  { s with ports := { s.ports with rsps := s.ports.rsps ++ [w] } }

/-- The response word of a success: status 0, bits 27:24 zero, the value (30_encoding.md R73). -/
def okWord (v : BitVec 24) : Word := v.setWidth 32

/-- The response word of an error: its code, all else zero (30_encoding.md R73). -/
def errWord (k : ErrKind) : Word := (statusCode k).setWidth 32 <<< 28

/-- `respond(v)` (30_encoding.md R73). -/
def respond (v : BitVec 24) (s : State) : State := putResponse (okWord v) s

/-- `raise k` (60_exceptions.md R266): the sticky flag, `HALT` for InternalInvariant, the response; nothing else. -/
def raise (k : ErrKind) (s : State) : State :=
  putResponse (errWord k) { s with eflags := setFlag k s.eflags, halt := haltAfter k s.halt }

/-- The answer to a command that is not executed because `HALT` = 1: 0x30000000, and no state changes
(60_exceptions.md R268). -/
def answerHalted (s : State) : State := putResponse (errWord .internalInvariant) s

/-- Run the body of a command unless the core is halted (60_exceptions.md R267, R268). -/
def whenRunning (body : State → State) (s : State) : State :=
  if s.halt = 1#1 then answerHalted s else body s

/-- The outcome of a command: always a next state (30_encoding.md R70). -/
def ended (s : State) : Host.Outcome State Fault Refusal := .next s

/-- The `rst` input (70_reset_and_hazards.md R290, R291): every register at its reset value, no response; the words the host
has still to send are the host's own. No step takes it: it is what the outside world can do between commands
(assumption 9). -/
def hardReset (s : State) : State := { State.reset with ports := s.ports }

/-- A command word that is no command (60_exceptions.md R265, R267, R268). -/
def illegalWord (s : State) : State := whenRunning (raise .illegalCommand) s

end Sys2Proof.Machine
end

