-- ==== Sys2Proof/Machine/Gf.lean ====
section
/-! DEFINITION. The GF unit: multiplication in GF(2^8) and `GFMUL` (40_gf_arithmetic.md R100 to R105). -/

namespace Sys2Proof.Machine

/-- One iteration of `gf_mul` for bit `i` of `y` (40_gf_arithmetic.md R101). -/
def gfMulRound (x y z : Byte) (i : Nat) : Byte :=
  let shifted := if z.getLsbD 7 then (z <<< 1) ^^^ Config.reducer else z <<< 1
  if y.getLsbD i then shifted ^^^ x else shifted

/-- `gf_mul(x, y)`: eight iterations, bit 7 of `y` first (40_gf_arithmetic.md R101). -/
def gfMul (x y : Byte) : Byte := [7, 6, 5, 4, 3, 2, 1, 0].foldl (gfMulRound x y) 0#8

/-- `GFMUL x, y` (40_gf_arithmetic.md R103). -/
def gfmul (x y : Byte) (s : State) : State :=
  respond ((gfMul x y).setWidth 24) { s with res := gfMul x y }

/-- `GFMUL` as a command. -/
def execGfmul (x y : Byte) (s : State) : Host.Outcome State Fault Refusal := ended (whenRunning (gfmul x y) s)

end Sys2Proof.Machine
end

