-- ==== Sys2Proof/Machine/Tables.lean ====
section
/-! DEFINITION. The constant tables of 00_scope.md R8 with the values the spec gives from general knowledge
(93_implementation_defined.md G3 to G16, assumption 7), each the default instance of what a configuration holds. A key
outside a table's range gives a free value (assumption 5). The penalty function is in Machine/Penalty.lean. -/

namespace Sys2Proof.Machine

/-- `MODE_IND` (42_segment_encoder.md R134). -/
def modeIndicator : Mode → BitVec 4
  | .numeric => 0b0001#4
  | .alphanumeric => 0b0010#4
  | .byte => 0b0100#4

/-- The column of `CCBITS` that holds version `v` (42_segment_encoder.md R135): 0, 1, 2 for versions 1–9, 10–26, 27–40. -/
def ccRange (v : Nat) : Option Nat :=
  if 1 ≤ v ∧ v ≤ 9 then some 0
  else if 10 ≤ v ∧ v ≤ 26 then some 1
  else if 27 ≤ v ∧ v ≤ 40 then some 2
  else none

/-- The row of `CCBITS` for a 4-bit mode indicator (42_segment_encoder.md R134, R135), the reserved Kanji (8) and ECI (7)
rows included. -/
def ccRow (mode : BitVec 4) : Option (List Nat) :=
  if mode = 1#4 then some [10, 12, 14]
  else if mode = 2#4 then some [9, 11, 13]
  else if mode = 4#4 then some [8, 16, 16]
  else if mode = 8#4 then some [8, 10, 12]
  else if mode = 7#4 then some [0, 0, 0]
  else none

/-- `ccbits(mode, v)`, the width of the length field (42_segment_encoder.md R135). -/
def ccbits (mode : BitVec 4) (v : Nat) : Nat :=
  match ccRow mode, ccRange v with
  | some row, some col => row.getD col (Config.unlistedEntry (16 + mode.toNat) v)
  | _, _ => Config.unlistedEntry (16 + mode.toNat) v

/-- `ECC_PER_BLOCK`, a row per level, versions 1 to 40 (43_version_selector.md R162). -/
def eccPerBlockRow : Level → List Nat
  | .low =>
    [7, 10, 15, 20, 26, 18, 20, 24, 30, 18, 20, 24, 26, 30, 22, 24, 28, 30, 28, 28] ++
    [28, 28, 30, 30, 26, 28, 30, 30, 30, 30, 30, 30, 30, 30, 30, 30, 30, 30, 30, 30]
  | .medium =>
    [10, 16, 26, 18, 24, 16, 18, 22, 22, 26, 30, 22, 22, 24, 24, 28, 28, 26, 26, 26] ++
    [26, 28, 28, 28, 28, 28, 28, 28, 28, 28, 28, 28, 28, 28, 28, 28, 28, 28, 28, 28]
  | .quartile =>
    [13, 22, 18, 26, 18, 24, 18, 22, 20, 24, 28, 26, 24, 20, 30, 24, 28, 28, 26, 30] ++
    [28, 30, 30, 30, 30, 28, 30, 30, 30, 30, 30, 30, 30, 30, 30, 30, 30, 30, 30, 30]
  | .high =>
    [17, 28, 22, 16, 22, 28, 26, 26, 24, 28, 24, 28, 22, 24, 24, 30, 28, 28, 26, 28] ++
    [30, 24, 30, 30, 30, 30, 30, 30, 30, 30, 30, 30, 30, 30, 30, 30, 30, 30, 30, 30]

/-- `NUM_BLOCKS`, a row per level, versions 1 to 40 (43_version_selector.md R162). -/
def numBlocksRow : Level → List Nat
  | .low =>
    [1, 1, 1, 1, 1, 2, 2, 2, 2, 4, 4, 4, 4, 4, 6, 6, 6, 6, 7, 8] ++
    [8, 9, 9, 10, 12, 12, 12, 13, 14, 15, 16, 17, 18, 19, 19, 20, 21, 22, 24, 25]
  | .medium =>
    [1, 1, 1, 2, 2, 4, 4, 4, 5, 5, 5, 8, 9, 9, 10, 10, 11, 13, 14, 16] ++
    [17, 17, 18, 20, 21, 23, 25, 26, 28, 29, 31, 33, 35, 37, 38, 40, 43, 45, 47, 49]
  | .quartile =>
    [1, 1, 2, 2, 4, 4, 6, 6, 8, 8, 8, 10, 12, 16, 12, 17, 16, 18, 21, 20] ++
    [23, 23, 25, 27, 29, 34, 34, 35, 38, 40, 43, 45, 48, 51, 53, 56, 59, 62, 65, 68]
  | .high =>
    [1, 1, 2, 4, 4, 4, 5, 6, 8, 8, 11, 11, 16, 16, 18, 16, 19, 21, 25, 25] ++
    [25, 34, 30, 32, 35, 37, 40, 42, 45, 48, 51, 54, 57, 60, 63, 66, 70, 74, 77, 81]

/-- The entry of a row of 40 for version `v`; a free value of table `t` where the row has no entry for `v`. -/
def versionEntry (t : Nat) (row : List Nat) (v : Nat) : Nat :=
  match v with
  | 0 => Config.unlistedEntry t 0
  | k + 1 => row.getD k (Config.unlistedEntry t (k + 1))

/-- `ECC_PER_BLOCK[e][v]` (43_version_selector.md R162). -/
def eccPerBlock (e : Level) (v : Nat) : Nat := versionEntry 0 (eccPerBlockRow e) v

/-- `NUM_BLOCKS[e][v]` (43_version_selector.md R162). -/
def numBlocks (e : Level) (v : Nat) : Nat := versionEntry 1 (numBlocksRow e) v

/-- `ALIGN_POS[1]` to `ALIGN_POS[20]` (45_matrix_builder.md R204). -/
def alignRowsLow : List (List Nat) :=
  [[], [6, 18], [6, 22], [6, 26], [6, 30], [6, 34], [6, 22, 38], [6, 24, 42], [6, 26, 46], [6, 28, 50]] ++
  [[6, 30, 54], [6, 32, 58], [6, 34, 62], [6, 26, 46, 66], [6, 26, 48, 70], [6, 26, 50, 74], [6, 30, 54, 78],
   [6, 30, 56, 82], [6, 30, 58, 86], [6, 34, 62, 90]]

/-- `ALIGN_POS[21]` to `ALIGN_POS[40]` (45_matrix_builder.md R204). -/
def alignRowsHigh : List (List Nat) :=
  [[6, 28, 50, 72, 94], [6, 26, 50, 74, 98], [6, 30, 54, 78, 102], [6, 28, 54, 80, 106], [6, 32, 58, 84, 110],
   [6, 30, 58, 86, 114], [6, 34, 62, 90, 118]] ++
  [[6, 26, 50, 74, 98, 122], [6, 30, 54, 78, 102, 126], [6, 26, 52, 78, 104, 130], [6, 30, 56, 82, 108, 134],
   [6, 34, 60, 86, 112, 138], [6, 30, 58, 86, 114, 142], [6, 34, 62, 90, 118, 146]] ++
  [[6, 30, 54, 78, 102, 126, 150], [6, 24, 50, 76, 102, 128, 154], [6, 28, 54, 80, 106, 132, 158],
   [6, 32, 58, 84, 110, 136, 162], [6, 26, 54, 82, 110, 138, 166], [6, 30, 58, 86, 114, 142, 170]]

/-- `ALIGN_POS[v]` (45_matrix_builder.md R204). -/
def alignPos (v : Nat) : List Nat :=
  match v with
  | 0 => Config.unlistedPositions 0
  | k + 1 => (alignRowsLow ++ alignRowsHigh).getD k (Config.unlistedPositions (k + 1))

/-- `raw_modules(v)` (43_version_selector.md R161). -/
def rawModules (v : Nat) : Nat :=
  let r := (16 * v + 128) * v + 64
  if 2 ≤ v then
    let n := v / 7 + 2
    let r := r - ((25 * n - 10) * n - 55)
    if 7 ≤ v then r - 36 else r
  else r

/-- The format bits of a level, not its `ECL` number (45_matrix_builder.md R206). -/
def formatBits : Level → Nat
  | .low => 1
  | .medium => 0
  | .quartile => 3
  | .high => 2

/-- One division step of a BCH code: shift, and reduce when bit `top` is set (45_matrix_builder.md R206, R207). -/
def bchStep (top poly rem : Nat) : Nat := (rem <<< 1) ^^^ ((rem >>> top) * poly)

/-- `bchStep` repeated `k` times. -/
def bchSteps (top poly : Nat) : Nat → Nat → Nat
  | 0, rem => rem
  | k + 1, rem => bchSteps top poly k (bchStep top poly rem)

/-- `format_word(e, k)` (45_matrix_builder.md R206). -/
def formatWord (e : Level) (k : Nat) : Nat :=
  let data := formatBits e * 8 + k
  ((data <<< 10) ||| bchSteps 9 0x537 10 data) ^^^ 0x5412

/-- `version_word(v)` (45_matrix_builder.md R207). -/
def versionWord (v : Nat) : Nat := (v <<< 12) ||| bchSteps 11 0x1F25 12 v

/-- `mask_fn(k, r, c)` (45_matrix_builder.md R214). -/
def maskFn (k r c : Nat) : Bool :=
  match k with
  | 0 => (r + c) % 2 == 0
  | 1 => r % 2 == 0
  | 2 => c % 3 == 0
  | 3 => (r + c) % 3 == 0
  | 4 => (r / 2 + c / 3) % 2 == 0
  | 5 => (r * c) % 2 + (r * c) % 3 == 0
  | 6 => ((r * c) % 2 + (r * c) % 3) % 2 == 0
  | 7 => ((r + c) % 2 + (r * c) % 3) % 2 == 0
  | _ => false

/-- `N1`, the penalty weight of a run (45_matrix_builder.md R217). -/
def penaltyN1 : Nat := 3
/-- `N2`, the penalty weight of a block (45_matrix_builder.md R217). -/
def penaltyN2 : Nat := 3
/-- `N3`, the penalty weight of a finder-like run pattern (45_matrix_builder.md R217). -/
def penaltyN3 : Nat := 40
/-- `N4`, the penalty weight of a balance step (45_matrix_builder.md R217). -/
def penaltyN4 : Nat := 10

end Sys2Proof.Machine
end

