-- ==== Sys2Proof/Machine/Operands.lean ====
section
/-! DEFINITION. The operand forms (20_memory.md R51, R66, R67; 10_state.md R49): a byte, bit, segment or module of a buffer
by its index, the readable part of a buffer, and a scalar register by its selector. An index below a length register at
which the buffer holds nothing gives a free value; no reachable state has one (assumption 4). -/

namespace Sys2Proof.Machine

/-- The first `n` items of a buffer, `B[0..n)`. -/
def firstItems {α : Type} (unwritten : Nat → α) (b : List α) (n : Nat) : List α :=
  b.take n ++ (List.range' b.length (n - b.length)).map unwritten

/-- `MemRead(B:i, 1)` of a byte buffer, the bounds already checked (20_memory.md R66). -/
def byteAt (b : List Byte) (i : Nat) : Byte := b.getD i (Config.unwrittenByte i)

/-- `B[0..n)` of a byte buffer. -/
def bytesOf (b : List Byte) (n : Nat) : List Byte := firstItems Config.unwrittenByte b n

/-- Bit `i` of a segment's payload, `SEG[s].bits[i]`, the bounds already checked. -/
def payloadBit (bits : Bits) (i : Nat) : Bool := bits.getD i (Config.unwrittenBit i)

/-- The payload of a segment: `blen` bits (10_state.md R35). -/
def payloadOf (s : Segment) : Bits := firstItems Config.unwrittenBit s.bits s.blen.toNat

/-- `SEG[i]`, the bounds already checked. -/
def segmentAt (p : PipeUnit) (i : Nat) : Segment := p.segs.getD i (Config.unwrittenSegment i)

/-- `SEG[0..NSEG)`. -/
def segmentsOf (p : PipeUnit) : List Segment := firstItems Config.unwrittenSegment p.segs p.nseg.toNat

/-- `IBUF[0..ILEN)`. -/
def inputOf (p : PipeUnit) : List Byte := bytesOf p.ibuf p.ilen.toNat

/-- `G[row][col]` of a grid or function map, the bounds already checked. -/
def moduleAt (g : Grid) (row col : Nat) : Bool :=
  match g[row]? with
  | some line => line.getD col (Config.unwrittenModule row col)
  | none => Config.unwrittenModule row col

/-- An `n` × `n` grid given module by module. -/
def gridOf (n : Nat) (f : Nat → Nat → Bool) : Grid :=
  (List.range n).map fun r => (List.range n).map fun c => f r c

/-- The `n` × `n` part of a grid. -/
def gridPart (n : Nat) (g : Grid) : Grid := gridOf n (moduleAt g)

/-- `G[row][col] <- b`. -/
def setModule (g : Grid) (row col : Nat) (b : Bool) : Grid := g.modify row fun line => line.set col b

/-- The scalar register of selector `sel`, zero-extended to the value field, or nothing for a selector above 17
(10_state.md R49). -/
def registerAt (s : State) (sel : BitVec 16) : Option (BitVec 24) :=
  match sel.toNat with
  | 0 => some (s.eflags.setWidth 24)
  | 1 => some (s.halt.setWidth 24)
  | 2 => some (s.res.setWidth 24)
  | 3 => some (s.rs.gv.setWidth 24)
  | 4 => some (s.rs.deg.setWidth 24)
  | 5 => some (s.rs.rlen.setWidth 24)
  | 6 => some (s.rs.elen.setWidth 24)
  | 7 => some (s.pipe.stage.setWidth 24)
  | 8 => some (s.pipe.ilen.setWidth 24)
  | 9 => some (s.pipe.nseg.setWidth 24)
  | 10 => some (s.pipe.ecl.setWidth 24)
  | 11 => some (s.pipe.ver.setWidth 24)
  | 12 => some (s.pipe.dlen.setWidth 24)
  | 13 => some (s.pipe.olen.setWidth 24)
  | 14 => some (s.pipe.size.setWidth 24)
  | 15 => some (s.pipe.mask.setWidth 24)
  | 16 => some (s.pipe.rem.setWidth 24)
  | 17 => some s.pipe.sbits
  | _ => none

/-- Field `k` of a segment, zero-extended, or nothing for `k` above 2 (42_segment_encoder.md R149). -/
def segmentField (sg : Segment) (k : BitVec 16) : Option (BitVec 24) :=
  match k.toNat with
  | 0 => some (sg.mode.setWidth 24)
  | 1 => some (sg.count.setWidth 24)
  | 2 => some sg.blen
  | _ => none

/-- Window `k` of a segment's payload, the 16 bits from bit 16·k on, the first the most significant, zeros past the end
(42_segment_encoder.md R150). -/
def payloadWindow (sg : Segment) (k : Nat) : BitVec 24 :=
  (List.range 16).foldl
    (fun v j =>
      let bit := if 16 * k + j < sg.blen.toNat then payloadBit sg.bits (16 * k + j) else false
      (v <<< 1) ||| (BitVec.ofBool bit).setWidth 24)
    0#24

end Sys2Proof.Machine
end

