-- ==== Sys2Proof/Machine/Penalty.lean ====
section
/-! DEFINITION. The penalty function of the spec's configuration (45_matrix_builder.md R217 to R221): the default instance of
the function a configuration holds (assumption 8). -/

namespace Sys2Proof.Machine

/-- |a − b|. -/
def absDiff (a b : Nat) : Nat := (a - b) + (b - a)

/-- The rows of an n × n grid as lines, left to right (45_matrix_builder.md R217). -/
def rowLines (n : Nat) (g : Grid) : List (List Bool) := gridOf n (moduleAt g)

/-- The columns of an n × n grid as lines, top to bottom (45_matrix_builder.md R217). -/
def columnLines (n : Nat) (g : Grid) : List (List Bool) := gridOf n fun c r => moduleAt g r c

/-- The lengths of the maximal runs of a line, given the colour and length of the run under way. -/
def runsFrom (colour : Bool) (len : Nat) : List Bool → List Nat
  | [] => [len]
  | b :: rest => if b = colour then runsFrom colour (len + 1) rest else len :: runsFrom b 1 rest

/-- The lengths of the maximal runs of a line. -/
def runLengths : List Bool → List Nat
  | [] => []
  | b :: rest => runsFrom b 1 rest

/-- What a run of length `len` adds under rule (a) (45_matrix_builder.md R218). -/
def runPenalty (len : Nat) : Nat := if 5 ≤ len then penaltyN1 + (len - 5) else 0

/-- Rule (a) on one line (45_matrix_builder.md R218). -/
def linePenaltyA (line : List Bool) : Nat := ((runLengths line).map runPenalty).sum

/-- The 2 × 2 block at (r, c) has one colour (45_matrix_builder.md R219). -/
def uniformBlock (g : Grid) (r c : Nat) : Bool :=
  let m := moduleAt g r c
  moduleAt g r (c + 1) == m && moduleAt g (r + 1) c == m && moduleAt g (r + 1) (c + 1) == m

/-- Rule (b) (45_matrix_builder.md R219). -/
def penaltyB (n : Nat) (g : Grid) : Nat :=
  penaltyN2 *
    ((List.range (n - 1)).map fun r => (List.range (n - 1)).countP fun c => uniformBlock g r c).sum

/-- The state of `line_penalty_c`: the last seven runs, the newest first, the colour and length of the run under way, and
the count so far (45_matrix_builder.md R220). -/
structure FinderScan where
  history : List Nat
  colour : Bool
  run : Nat
  total : Nat
  deriving DecidableEq, Repr

/-- `add(len)` of `line_penalty_c` on a line of length `n` (45_matrix_builder.md R220). -/
def addRun (n : Nat) (h : List Nat) (len : Nat) : List Nat :=
  ((if h.headD 0 = 0 then len + n else len) :: h).take 7

/-- `count()` of `line_penalty_c` (45_matrix_builder.md R220). -/
def countFinder : List Nat → Nat
  | [h0, h1, h2, h3, h4, h5, h6] =>
      let core : Bool := 0 < h1 && h2 == h1 && h3 == 3 * h1 && h4 == h1 && h5 == h1
      (if core && 4 * h1 ≤ h0 && h1 ≤ h6 then 1 else 0) + (if core && 4 * h1 ≤ h6 && h1 ≤ h0 then 1 else 0)
  | _ => 0

/-- One module of `line_penalty_c` (45_matrix_builder.md R220). -/
def scanModule (n : Nat) (t : FinderScan) (b : Bool) : FinderScan :=
  if b = t.colour then { t with run := t.run + 1 }
  else
    let h := addRun n t.history t.run
    { history := h, colour := b, run := 1, total := if t.colour then t.total else t.total + countFinder h }

/-- The end of a line in `line_penalty_c` (45_matrix_builder.md R220). -/
def scanEnd (n : Nat) (t : FinderScan) : Nat :=
  let t := if t.colour then { t with history := addRun n t.history t.run, run := 0 } else t
  t.total + countFinder (addRun n t.history (t.run + n))

/-- `line_penalty_c(line)` (45_matrix_builder.md R220). -/
def linePenaltyC (line : List Bool) : Nat :=
  scanEnd line.length
    (line.foldl (scanModule line.length) { history := [0, 0, 0, 0, 0, 0, 0], colour := false, run := 0, total := 0 })

/-- The number of dark modules of an n × n grid. -/
def darkCount (n : Nat) (g : Grid) : Nat := ((rowLines n g).map fun line => line.count true).sum

/-- Rule (d) for `dark` dark modules of `total` (45_matrix_builder.md R221). -/
def penaltyD (dark total : Nat) : Nat :=
  penaltyN4 * ((absDiff (20 * dark) (10 * total) + total - 1) / total - 1)

/-- Rule (a) on a whole grid. -/
def penaltyA (n : Nat) (g : Grid) : Nat := ((rowLines n g ++ columnLines n g).map linePenaltyA).sum

/-- Rule (c) on a whole grid. -/
def penaltyC (n : Nat) (g : Grid) : Nat := penaltyN3 * ((rowLines n g ++ columnLines n g).map linePenaltyC).sum

/-- `penalty(grid)` of an n × n grid (45_matrix_builder.md R217). -/
def penalty (n : Nat) (g : Grid) : Nat :=
  penaltyA n g + penaltyB n g + penaltyC n g + penaltyD (darkCount n g) (n * n)

end Sys2Proof.Machine
end

