-- ==== Sys2Proof/Machine/SpecConfig.lean ====
section
/-! DEFINITION. The configuration the spec gives: the default capacities of 00_scope.md R7 and the default tables of R8. It is
the configuration of `exec` and `step`; Machine/Configured.lean has them for every other one. -/

namespace Sys2Proof.Machine

/-- The capacities of 00_scope.md R7 at their defaults (assumption 6). -/
def specCapacities : Capacities := { rbufCap := 4096, ibufCap := 8192, nsegMax := 8, sbitCap := 65536 }

/-- The configuration of the spec: every parameter at its default (00_scope.md R7, R8; assumptions 6, 7, 8). -/
def specConfig : Configuration :=
  { capacities := specCapacities
    modeIndicator := modeIndicator
    ccbits := ccbits
    eccPerBlock := eccPerBlock
    numBlocks := numBlocks
    rawModules := rawModules
    alignPos := alignPos
    formatWord := formatWord
    versionWord := versionWord
    maskFn := maskFn
    penalty := penalty }

end Sys2Proof.Machine
end

