-- ==== Sys2Proof/Machine/Rs.lean ====
section
/-! DEFINITION. The RS unit: the divisor polynomial, the remainder, and `RSINIT`, `RSREM`, `PUTR`, `CLRR`, `GETE`, `GETG`
(41_reed_solomon.md R110 to R120). -/

namespace Sys2Proof.Machine

/-- The array shifted one place towards index 0, a zero entering at the end. -/
def shiftIn (c : List Byte) : List Byte := c.drop 1 ++ [0#8]

/-- One round of `rs_divisor`: multiply the polynomial by (x + root) (41_reed_solomon.md R111). -/
def divisorRound (c : List Byte) (root : Byte) : List Byte :=
  List.zipWith (· ^^^ ·) (c.map fun a => gfMul a root) (shiftIn c)

/-- `i` rounds of `rs_divisor` from the array `c` and the root `root` (41_reed_solomon.md R111). -/
def divisorRounds : Nat → List Byte → Byte → List Byte
  | 0, c, _ => c
  | i + 1, c, root => divisorRounds i (divisorRound c root) (gfMul root Config.fieldGenerator)

/-- `rs_divisor(d)`: the divisor's coefficients without the leading 1, highest first (41_reed_solomon.md R110, R111). DESIGN CHOICE
(assumption 16): for d outside 1 to 255, which only a table of which the spec does not speak can give, what the rounds leave. -/
def rsDivisor (d : Nat) : List Byte := divisorRounds d (List.replicate (d - 1) 0#8 ++ [1#8]) 1#8

/-- One byte of `rs_remainder` (41_reed_solomon.md R112). -/
def remainderRound (c rem : List Byte) (b : Byte) : List Byte :=
  List.zipWith (· ^^^ ·) (shiftIn rem) (c.map fun a => gfMul a (b ^^^ rem.headD 0#8))

/-- `rs_remainder(c, data)` (41_reed_solomon.md R112). -/
def rsRemainder (c data : List Byte) : List Byte :=
  data.foldl (remainderRound c) (List.replicate c.length 0#8)

/-- `RSINIT idx` (41_reed_solomon.md R114). -/
def rsinit (idx : BitVec 16) (s : State) : State :=
  if idx.toNat < 1 ∨ 255 < idx.toNat then raise .invalidArgument s
  else
    respond (idx.setWidth 24)
      { s with rs := { s.rs with
          div := rsDivisor idx.toNat, deg := idx.setWidth 8, gv := 1, elen := 0, ebuf := [] } }

/-- `RSREM` (41_reed_solomon.md R115). -/
def rsrem (s : State) : State :=
  if s.rs.gv = 0#1 then raise .invalidArgument s
  else if s.rs.rlen = 0#16 then raise .invalidArgument s
  else
    respond (s.rs.deg.setWidth 24)
      { s with rs := { s.rs with
          ebuf := rsRemainder (bytesOf s.rs.div s.rs.deg.toNat) (bytesOf s.rs.rbuf s.rs.rlen.toNat)
          elen := s.rs.deg } }

/-- `PUTR b` (41_reed_solomon.md R116). -/
def putr (cfg : Configuration) (b : Byte) (s : State) : State :=
  if s.rs.rlen.toNat = cfg.capacities.rbufCap then raise .invalidArgument s
  else
    respond ((s.rs.rlen + 1).setWidth 24)
      { s with rs := { s.rs with
          rbuf := bytesOf s.rs.rbuf s.rs.rlen.toNat ++ [b], rlen := s.rs.rlen + 1 } }

/-- `CLRR` (41_reed_solomon.md R117). -/
def clrr (s : State) : State := respond 0 { s with rs := { s.rs with rlen := 0, rbuf := [] } }

/-- `GETE idx` (41_reed_solomon.md R118). -/
def gete (idx : BitVec 16) (s : State) : State :=
  if s.rs.elen.toNat ≤ idx.toNat then raise .invalidArgument s
  else respond ((byteAt s.rs.ebuf idx.toNat).setWidth 24) s

/-- `GETG idx` (41_reed_solomon.md R119). -/
def getg (idx : BitVec 16) (s : State) : State :=
  if s.rs.deg.toNat ≤ idx.toNat then raise .invalidArgument s
  else respond ((byteAt s.rs.div idx.toNat).setWidth 24) s

/-- `RSINIT` as a command. -/
def execRsinit (idx : BitVec 16) (s : State) : Host.Outcome State Fault Refusal := ended (whenRunning (rsinit idx) s)
/-- `RSREM` as a command. -/
def execRsrem (s : State) : Host.Outcome State Fault Refusal := ended (whenRunning rsrem s)
/-- `PUTR` as a command. -/
def execPutr (b : Byte) (s : State) : Host.Outcome State Fault Refusal := ended (whenRunning (putr specConfig b) s)
/-- `CLRR` as a command. -/
def execClrr (s : State) : Host.Outcome State Fault Refusal := ended (whenRunning clrr s)
/-- `GETE` as a command. -/
def execGete (idx : BitVec 16) (s : State) : Host.Outcome State Fault Refusal := ended (whenRunning (gete idx) s)
/-- `GETG` as a command. -/
def execGetg (idx : BitVec 16) (s : State) : Host.Outcome State Fault Refusal := ended (whenRunning (getg idx) s)

end Sys2Proof.Machine
end

