-- ==== Sys2Proof/Machine/BitStrings.lean ====
section
/-! DEFINITION. Bit strings and codewords, most significant bit first (00_scope.md R10, 20_memory.md R55). -/

namespace Sys2Proof.Machine

/-- `bits_n(v)`: item i is bit n−1−i of v (00_scope.md R10). DESIGN CHOICE (assumption 16): the low n bits of a v that does not
fit, for which the spec gives no string. -/
def bitsOfNat (n v : Nat) : Bits := (List.range n).map fun i => v.testBit (n - 1 - i)

/-- `zeros(n)`. -/
def zeroBits (n : Nat) : Bits := List.replicate n false

/-- The eight bits of a codeword, bit 7 first (20_memory.md R55). -/
def bitsOfByte (b : Byte) : Bits := bitsOfNat 8 b.toNat

/-- The number a bit string spells, first bit the most significant. -/
def natOfBits (bs : Bits) : Nat := bs.foldl (fun v b => 2 * v + b.toNat) 0

/-- The codewords of a bit string whose length is a multiple of 8 (44_codeword_assembler.md R183); bits short of a full
codeword, which no caller leaves, make none. -/
def codewordsOf : Bits → List Byte
  | b7 :: b6 :: b5 :: b4 :: b3 :: b2 :: b1 :: b0 :: rest =>
      BitVec.ofNat 8 (natOfBits [b7, b6, b5, b4, b3, b2, b1, b0]) :: codewordsOf rest
  | _ => []

/-- The bits of a codeword sequence, each codeword's bit 7 first (45_matrix_builder.md R212). -/
def bitsOfBytes (bs : List Byte) : Bits := bs.flatMap bitsOfByte

end Sys2Proof.Machine
end

