-- ==== Sys2Proof/Machine/SegmentEncoder.lean ====
section
/-! DEFINITION. The segment encoder: packing, choice of mode, segments, and `NEWSYM`, `PUTI`, `CLRI`, `SEG`, `GETSEG`,
`GETSB` (42_segment_encoder.md R130 to R150). -/

namespace Sys2Proof.Machine

/-- A byte is a digit (42_segment_encoder.md R136). -/
def isDigit (b : Byte) : Bool := 0x30 ≤ b.toNat && b.toNat ≤ 0x39

/-- The value of an alphanumeric character, its place in the alphabet, or nothing (42_segment_encoder.md R132). -/
def alnumValue? (b : Byte) : Option Nat :=
  let a := b.toNat
  if 0x30 ≤ a ∧ a ≤ 0x39 then some (a - 0x30)
  else if 0x41 ≤ a ∧ a ≤ 0x5A then some (a - 0x41 + 10)
  else if a = 0x20 then some 36
  else if a = 0x24 then some 37
  else if a = 0x25 then some 38
  else if a = 0x2A then some 39
  else if a = 0x2B then some 40
  else if a = 0x2D then some 41
  else if a = 0x2E then some 42
  else if a = 0x2F then some 43
  else if a = 0x3A then some 44
  else none

/-- A byte is alphanumeric (42_segment_encoder.md R136). -/
def isAlnum (b : Byte) : Bool := (alnumValue? b).isSome

/-- `val` of R132 on an alphanumeric byte; `pack_alnum` is used on no other. -/
def alnumValue (b : Byte) : Nat := (alnumValue? b).getD 0

/-- The digit of a byte, for the digits `pack_numeric` is used on (42_segment_encoder.md R131). -/
def digitValue (b : Byte) : Nat := b.toNat - 0x30

/-- `pack_numeric` (42_segment_encoder.md R131). -/
def packNumeric : List Byte → Bits
  | a :: b :: c :: rest =>
      bitsOfNat 10 ((digitValue a * 10 + digitValue b) * 10 + digitValue c) ++ packNumeric rest
  | [a, b] => bitsOfNat 7 (digitValue a * 10 + digitValue b)
  | [a] => bitsOfNat 4 (digitValue a)
  | [] => []

/-- `pack_alnum` (42_segment_encoder.md R132). -/
def packAlnum : List Byte → Bits
  | a :: b :: rest => bitsOfNat 11 (45 * alnumValue a + alnumValue b) ++ packAlnum rest
  | [a] => bitsOfNat 6 (alnumValue a)
  | [] => []

/-- `pack_byte` (42_segment_encoder.md R133). -/
def packByte (input : List Byte) : Bits := bitsOfBytes input

/-- The packing of a mode. -/
def packAs : Mode → List Byte → Bits
  | .numeric, input => packNumeric input
  | .alphanumeric, input => packAlnum input
  | .byte, input => packByte input

/-- `resolve_mode(req, in)` (42_segment_encoder.md R137). -/
def resolveMode (req : ModeRequest) (input : List Byte) : Mode :=
  match req with
  | .auto => if input.all isDigit then .numeric else if input.all isAlnum then .alphanumeric else .byte
  | .numeric => if input.all isDigit then .numeric else .byte
  | .alphanumeric => if input.all isAlnum then .alphanumeric else .byte
  | .byte => .byte

/-- `payload_len(mode, n)` (42_segment_encoder.md R139). -/
def payloadLen : Mode → Nat → Nat
  | .numeric, n => 10 * (n / 3) + (if n % 3 = 0 then 0 else if n % 3 = 1 then 4 else 7)
  | .alphanumeric, n => 11 * (n / 2) + 6 * (n % 2)
  | .byte, n => 8 * n

/-- The payload of `make_segment(req, in)`. -/
def payloadFor (req : ModeRequest) (input : List Byte) : Bits := packAs (resolveMode req input) input

/-- `make_segment(req, in)` (42_segment_encoder.md R138). -/
def makeSegment (cfg : Configuration) (req : ModeRequest) (input : List Byte) : Segment :=
  { mode := cfg.modeIndicator (resolveMode req input)
    count := BitVec.ofNat 16 input.length
    blen := BitVec.ofNat 24 (payloadFor req input).length
    bits := payloadFor req input }

/-- `seg_bits(seg, v)`: mode indicator, length field, payload (42_segment_encoder.md R147). -/
def segBits (cfg : Configuration) (sg : Segment) (v : Nat) : Bits :=
  bitsOfNat 4 sg.mode.toNat ++ bitsOfNat (cfg.ccbits sg.mode v) sg.count.toNat ++ payloadOf sg

/-- `NEWSYM` (42_segment_encoder.md R140): every register of the PIPE unit 0 and every buffer of it empty. -/
def newsym (s : State) : State := respond 0 { s with pipe := PipeUnit.reset }

/-- `PUTI b` (42_segment_encoder.md R141). -/
def puti (cfg : Configuration) (b : Byte) (s : State) : State :=
  if s.pipe.stage ≠ 0#3 then raise .invalidArgument s
  else if s.pipe.ilen.toNat = cfg.capacities.ibufCap then raise .dataTooLong s
  else
    respond ((s.pipe.ilen + 1).setWidth 24)
      { s with pipe := { s.pipe with ibuf := inputOf s.pipe ++ [b], ilen := s.pipe.ilen + 1 } }

/-- `CLRI` (42_segment_encoder.md R142). -/
def clri (s : State) : State :=
  if s.pipe.stage ≠ 0#3 then raise .invalidArgument s
  else respond 0 { s with pipe := { s.pipe with ilen := 0, ibuf := [] } }

/-- `SEG mode` (42_segment_encoder.md R146). -/
def seg (cfg : Configuration) (req : ModeRequest) (s : State) : State :=
  if s.pipe.stage ≠ 0#3 then raise .invalidArgument s
  else if s.pipe.nseg.toNat = cfg.capacities.nsegMax then raise .invalidArgument s
  else
    let sg := makeSegment cfg req (inputOf s.pipe)
    if cfg.capacities.sbitCap < s.pipe.sbits.toNat + sg.blen.toNat then raise .dataTooLong s
    else
      respond (sg.mode.setWidth 24)
        { s with pipe := { s.pipe with
            segs := segmentsOf s.pipe ++ [sg], nseg := s.pipe.nseg + 1, sbits := s.pipe.sbits + sg.blen
            ilen := 0, ibuf := [] } }

/-- `GETSEG s, k` (42_segment_encoder.md R149). -/
def getseg (idx : BitVec 8) (k : BitVec 16) (s : State) : State :=
  if s.pipe.nseg.toNat ≤ idx.toNat then raise .invalidArgument s
  else
    match segmentField (segmentAt s.pipe idx.toNat) k with
    | some v => respond v s
    | none => raise .invalidArgument s

/-- `GETSB s, k` (42_segment_encoder.md R150). -/
def getsb (idx : BitVec 8) (k : BitVec 16) (s : State) : State :=
  if s.pipe.nseg.toNat ≤ idx.toNat then raise .invalidArgument s
  else if (segmentAt s.pipe idx.toNat).blen.toNat ≤ 16 * k.toNat then raise .invalidArgument s
  else respond (payloadWindow (segmentAt s.pipe idx.toNat) k.toNat) s

/-- `NEWSYM` as a command. -/
def execNewsym (s : State) : Host.Outcome State Fault Refusal := ended (whenRunning newsym s)
/-- `PUTI` as a command. -/
def execPuti (b : Byte) (s : State) : Host.Outcome State Fault Refusal := ended (whenRunning (puti specConfig b) s)
/-- `CLRI` as a command. -/
def execClri (s : State) : Host.Outcome State Fault Refusal := ended (whenRunning clri s)
/-- `SEG` as a command. -/
def execSeg (req : ModeRequest) (s : State) : Host.Outcome State Fault Refusal :=
  ended (whenRunning (seg specConfig req) s)
/-- `GETSEG` as a command. -/
def execGetseg (idx : BitVec 8) (k : BitVec 16) (s : State) : Host.Outcome State Fault Refusal :=
  ended (whenRunning (getseg idx k) s)
/-- `GETSB` as a command. -/
def execGetsb (idx : BitVec 8) (k : BitVec 16) (s : State) : Host.Outcome State Fault Refusal :=
  ended (whenRunning (getsb idx k) s)

end Sys2Proof.Machine
end

