-- ==== Sys2Proof/Machine/VersionSelector.lean ====
section
/-! DEFINITION. The version and capacity selector and `VSEL` (43_version_selector.md R160 to R169); the tables are
the configuration's. -/

namespace Sys2Proof.Machine

/-- `total_codewords(v)` (43_version_selector.md R161). -/
def totalCodewords (cfg : Configuration) (v : Nat) : Nat := cfg.rawModules v / 8

/-- `data_codewords(v, e)` (43_version_selector.md R163). DESIGN CHOICE (assumption 16): 0 for a table with more ECC codewords
than total codewords, of which the spec does not speak. -/
def dataCodewords (cfg : Configuration) (v : Nat) (e : Level) : Nat :=
  totalCodewords cfg v - cfg.eccPerBlock e v * cfg.numBlocks e v

/-- The bits one segment needs at version `v`: 4 + ccbits + blen (43_version_selector.md R164). -/
def segmentCost (cfg : Configuration) (v : Nat) (sg : Segment) : Nat := 4 + cfg.ccbits sg.mode v + sg.blen.toNat

/-- `required_bits(segs, v)` (43_version_selector.md R164). -/
def requiredBits (cfg : Configuration) (segs : List Segment) (v : Nat) : Nat := (segs.map (segmentCost cfg v)).sum

/-- The capacity in bits of (v, e) (43_version_selector.md R163). -/
def capacityBits (cfg : Configuration) (v : Nat) (e : Level) : Nat := 8 * dataCodewords cfg v e

/-- The segments fit version `v` at level `e` (43_version_selector.md R166). -/
def fitsVersion (cfg : Configuration) (segs : List Segment) (e : Level) (v : Nat) : Bool :=
  requiredBits cfg segs v ≤ capacityBits cfg v e

/-- The candidate versions from `minv` to `maxv`, upwards. -/
def versionRange (minv maxv : Nat) : List Nat := List.range' minv (maxv + 1 - minv)

/-- The upward scan: the first version in range that holds the segments (43_version_selector.md R166). -/
def leastVersion (cfg : Configuration) (segs : List Segment) (e : Level) (minv maxv : Nat) : Option Nat :=
  (versionRange minv maxv).find? (fitsVersion cfg segs e)

/-- The version bounds are refused (43_version_selector.md R166). -/
def boundsIllegal (minv maxv : BitVec 6) : Bool :=
  minv.toNat < Config.versionMin || Config.versionMax < maxv.toNat || maxv.toNat < minv.toNat

/-- `VSEL ecl, minv, maxv` (43_version_selector.md R166). -/
def vsel (cfg : Configuration) (ecl : Level) (minv maxv : BitVec 6) (s : State) : State :=
  if s.pipe.stage ≠ 0#3 then raise .invalidArgument s
  else if boundsIllegal minv maxv then raise .invalidArgument s
  else
    match leastVersion cfg (segmentsOf s.pipe) ecl minv.toNat maxv.toNat with
    | none => raise .dataTooLong s
    | some v =>
        respond (BitVec.ofNat 24 v)
          { s with pipe := { s.pipe with ver := BitVec.ofNat 6 v, ecl := levelBits ecl, stage := 1 } }

/-- `VSEL` as a command. -/
def execVsel (ecl : Level) (minv maxv : BitVec 6) (s : State) : Host.Outcome State Fault Refusal :=
  ended (whenRunning (vsel specConfig ecl minv maxv) s)

end Sys2Proof.Machine
end

