-- ==== Sys2Proof/Machine/CodewordAssembler.lean ====
section
/-! DEFINITION. The codeword assembler and the ECC interleaver: `ASM`, `ILV`, `GETD`, `GETO` (44_codeword_assembler.md R180
to R192). -/

namespace Sys2Proof.Machine

/-- `stream(segs, v)` (44_codeword_assembler.md R181). -/
def streamOf (cfg : Configuration) (segs : List Segment) (v : Nat) : Bits := segs.flatMap fun sg => segBits cfg sg v

/-- The stream with its terminator, for a capacity of `cap` bits (44_codeword_assembler.md R182). -/
def withTerminator (cap : Nat) (bb : Bits) : Bits := bb ++ zeroBits (min Config.terminatorBits (cap - bb.length))

/-- A bit string padded with zero bits to a multiple of 8 (44_codeword_assembler.md R182). -/
def padToByte (bb : Bits) : Bits := bb ++ zeroBits ((8 - bb.length % 8) % 8)

/-- The first `n` pad codewords: 0xEC, 0x11, 0xEC, … (44_codeword_assembler.md R183). -/
def padCodewords (n : Nat) : List Byte :=
  (List.range n).map fun i => if i % 2 = 0 then Config.padFirst else Config.padSecond

/-- `assemble(segs, v, e)`, or nothing where it raises InternalInvariant (44_codeword_assembler.md R183). -/
def assemble (cfg : Configuration) (segs : List Segment) (v : Nat) (e : Level) : Option (List Byte) :=
  let cap := capacityBits cfg v e
  let bb := streamOf cfg segs v
  if cap < bb.length then none
  else
    let out := codewordsOf (padToByte (withTerminator cap bb))
    some (out ++ padCodewords (dataCodewords cfg v e - out.length))

/-- `nshort` of `layout(v, e)` (44_codeword_assembler.md R185). DESIGN CHOICE (assumption 16): n mod 0 is n, so a table with
`NUM_BLOCKS` = 0, of which the spec does not speak, gives 0. -/
def shortBlocks (cfg : Configuration) (v : Nat) (e : Level) : Nat :=
  cfg.numBlocks e v - totalCodewords cfg v % cfg.numBlocks e v

/-- `sdl` of `layout(v, e)` (44_codeword_assembler.md R185). DESIGN CHOICE (assumption 16), for tables of which the spec does
not speak: n div 0 is 0, and 0 stands for a difference below 0. -/
def shortDataLen (cfg : Configuration) (v : Nat) (e : Level) : Nat :=
  totalCodewords cfg v / cfg.numBlocks e v - cfg.eccPerBlock e v

/-- `dlen(j)` of `layout(v, e)` (44_codeword_assembler.md R185). -/
def blockDataLen (cfg : Configuration) (v : Nat) (e : Level) (j : Nat) : Nat :=
  if j < shortBlocks cfg v e then shortDataLen cfg v e else shortDataLen cfg v e + 1

/-- The data cut into consecutive runs of the given lengths (44_codeword_assembler.md R185). -/
def cutInto : List Nat → List Byte → List (List Byte)
  | [], _ => []
  | k :: ks, data => data.take k :: cutInto ks (data.drop k)

/-- The blocks B_0, … of the data (44_codeword_assembler.md R185). DESIGN CHOICE (assumption 16): where a table's lengths do not
add up to the data, the blocks take what there is. -/
def dataBlocks (cfg : Configuration) (data : List Byte) (v : Nat) (e : Level) : List (List Byte) :=
  cutInto ((List.range (cfg.numBlocks e v)).map (blockDataLen cfg v e)) data

/-- The ECC codewords E_j of each block, one divisor for all (44_codeword_assembler.md R186). -/
def eccBlocks (cfg : Configuration) (data : List Byte) (v : Nat) (e : Level) : List (List Byte) :=
  let c := rsDivisor (cfg.eccPerBlock e v)
  (dataBlocks cfg data v e).map (rsRemainder c)

/-- `rounds` rounds that each take item i of every sequence that has one, in order (44_codeword_assembler.md R187). -/
def roundRobin (rounds : Nat) (blocks : List (List Byte)) : List Byte :=
  (List.range rounds).flatMap fun i => blocks.filterMap fun b => b[i]?

/-- `interleave(data, v, e)` (44_codeword_assembler.md R187). -/
def interleave (cfg : Configuration) (data : List Byte) (v : Nat) (e : Level) : List Byte :=
  roundRobin (shortDataLen cfg v e + 1) (dataBlocks cfg data v e) ++ roundRobin (cfg.eccPerBlock e v) (eccBlocks cfg data v e)

/-- `ASM` (44_codeword_assembler.md R184). -/
def asm (cfg : Configuration) (s : State) : State :=
  if s.pipe.stage ≠ 1#3 then raise .invalidArgument s
  else
    match assemble cfg (segmentsOf s.pipe) s.pipe.ver.toNat (levelOfBits s.pipe.ecl) with
    | none => raise .internalInvariant s
    | some d =>
        let n := dataCodewords cfg s.pipe.ver.toNat (levelOfBits s.pipe.ecl)
        respond (BitVec.ofNat 24 n)
          { s with pipe := { s.pipe with dbuf := d, dlen := BitVec.ofNat 12 n, stage := 2 } }

/-- `ILV` (44_codeword_assembler.md R189). -/
def ilv (cfg : Configuration) (s : State) : State :=
  if s.pipe.stage ≠ 2#3 then raise .invalidArgument s
  else if s.pipe.dlen.toNat ≠ dataCodewords cfg s.pipe.ver.toNat (levelOfBits s.pipe.ecl) then raise .internalInvariant s
  else
    let n := totalCodewords cfg s.pipe.ver.toNat
    respond (BitVec.ofNat 24 n)
      { s with pipe := { s.pipe with
          obuf := interleave cfg (bytesOf s.pipe.dbuf s.pipe.dlen.toNat) s.pipe.ver.toNat (levelOfBits s.pipe.ecl)
          olen := BitVec.ofNat 12 n, stage := 3 } }

/-- `GETD idx` (44_codeword_assembler.md R190). -/
def getd (idx : BitVec 16) (s : State) : State :=
  if s.pipe.dlen.toNat ≤ idx.toNat then raise .invalidArgument s
  else respond ((byteAt s.pipe.dbuf idx.toNat).setWidth 24) s

/-- `GETO idx` (44_codeword_assembler.md R191). -/
def geto (idx : BitVec 16) (s : State) : State :=
  if s.pipe.olen.toNat ≤ idx.toNat then raise .invalidArgument s
  else respond ((byteAt s.pipe.obuf idx.toNat).setWidth 24) s

/-- `ASM` as a command. -/
def execAsm (s : State) : Host.Outcome State Fault Refusal := ended (whenRunning (asm specConfig) s)
/-- `ILV` as a command. -/
def execIlv (s : State) : Host.Outcome State Fault Refusal := ended (whenRunning (ilv specConfig) s)
/-- `GETD` as a command. -/
def execGetd (idx : BitVec 16) (s : State) : Host.Outcome State Fault Refusal := ended (whenRunning (getd idx) s)
/-- `GETO` as a command. -/
def execGeto (idx : BitVec 16) (s : State) : Host.Outcome State Fault Refusal := ended (whenRunning (geto idx) s)

end Sys2Proof.Machine
end

