-- ==== Sys2Proof/Machine/MatrixBuilder.lean ====
section
/-! DEFINITION. The matrix builder: function patterns, placement, masking, selection, and `FNPAT`, `PLACE`, `MASK`, `GETM`
(45_matrix_builder.md R200 to R225), for a configuration `cfg`. A pattern is given by the colour it draws at a module, if it draws there; the
module takes the colour of the last pattern of R208's order that draws it (assumption 10). -/

namespace Sys2Proof.Machine

/-- dist of R201 between two modules. -/
def distFrom (r0 c0 r c : Nat) : Nat := max (absDiff r r0) (absDiff c c0)

/-- What the timing patterns draw (45_matrix_builder.md R202). -/
def timingAt (r c : Nat) : Option Bool :=
  if r = 6 then some (c % 2 == 0) else if c = 6 then some (r % 2 == 0) else none

/-- The three finder centres (45_matrix_builder.md R203). -/
def finderCentres (n : Nat) : List (Nat × Nat) := [(3, 3), (3, n - 4), (n - 4, 3)]

/-- What one finder pattern with its separator draws (45_matrix_builder.md R203). -/
def finderShape (d : Nat) : Option Bool := if d ≤ 4 then some (d != 2 && d != 4) else none

/-- What the finder patterns and separators draw (45_matrix_builder.md R203); no two of them meet. -/
def finderAt (n r c : Nat) : Option Bool :=
  (finderCentres n).findSome? fun ctr => finderShape (distFrom ctr.1 ctr.2 r c)

/-- The indexes of the alignment positions within 2 of coordinate `x`, the last one first. -/
def alignNear (ps : List Nat) (x : Nat) : List Nat :=
  (List.range ps.length).reverse.filter fun i => absDiff x (ps.getD i 0) ≤ 2

/-- The pairs of R205 whose place is taken by a finder pattern, for `k` positions. -/
def alignSkipped (k i j : Nat) : Bool :=
  (i == 0 && j == 0) || (i == 0 && j == k - 1) || (i == k - 1 && j == 0)

/-- What the alignment patterns draw, the last pair of R205's order that reaches the module (45_matrix_builder.md R205). -/
def alignAt (cfg : Configuration) (v r c : Nat) : Option Bool :=
  let ps := cfg.alignPos v
  (alignNear ps r).findSome? fun i =>
    (alignNear ps c).findSome? fun j =>
      if alignSkipped ps.length i j then none else some (distFrom (ps.getD i 0) (ps.getD j 0) r c != 1)

/-- Which bit of the format word a module holds, if it is one of the 30 format modules (45_matrix_builder.md R206). -/
def formatBitAt (n r c : Nat) : Option Nat :=
  if c = 8 ∧ r ≤ 5 then some r
  else if c = 8 ∧ r = 7 then some 6
  else if c = 8 ∧ r = 8 then some 7
  else if r = 8 ∧ c = 7 then some 8
  else if r = 8 ∧ c ≤ 5 then some (14 - c)
  else if r = 8 ∧ n - 8 ≤ c ∧ c < n then some (n - 1 - c)
  else if c = 8 ∧ n - 7 ≤ r ∧ r < n then some (r + 15 - n)
  else none

/-- What the reservation of the format information draws: light, and the dark module dark (45_matrix_builder.md R208). -/
def formatAreaAt (n r c : Nat) : Option Bool :=
  if r = n - 8 ∧ c = 8 then some true
  else match formatBitAt n r c with
    | some _ => some false
    | none => none

/-- Which bit of the version word a module holds, if it is in one of the two blocks of R207. -/
def versionBitAt (n r c : Nat) : Option Nat :=
  if r < 6 ∧ n - 11 ≤ c ∧ c < n - 8 then some (3 * r + (c - (n - 11)))
  else if c < 6 ∧ n - 11 ≤ r ∧ r < n - 8 then some (3 * c + (r - (n - 11)))
  else none

/-- What the version information draws (45_matrix_builder.md R207). -/
def versionAt (cfg : Configuration) (v r c : Nat) : Option Bool :=
  if 7 ≤ v then
    match versionBitAt (Config.sideLength v) r c with
    | some i => some ((cfg.versionWord v).testBit i)
    | none => none
  else none

/-- The function module at (r, c) and its colour, if there is one: the last of timing, finder, alignment, format area and
version information that draws it (45_matrix_builder.md R208). -/
def functionAt (cfg : Configuration) (v r c : Nat) : Option Bool :=
  (versionAt cfg v r c).or <| (formatAreaAt (Config.sideLength v) r c).or <| (alignAt cfg v r c).or <|
    (finderAt (Config.sideLength v) r c).or (timingAt r c)

/-- The grid of `function_patterns(v)`: data modules light (45_matrix_builder.md R208). -/
def functionGrid (cfg : Configuration) (v : Nat) : Grid :=
  gridOf (Config.sideLength v) fun r c => (functionAt cfg v r c).getD false

/-- The function map of `function_patterns(v)` (45_matrix_builder.md R208). -/
def functionMap (cfg : Configuration) (v : Nat) : Grid :=
  gridOf (Config.sideLength v) fun r c => (functionAt cfg v r c).isSome

/-- The column pair with right column `right`, walked upward or downward (45_matrix_builder.md R211). -/
def columnPair (n right : Nat) : List (Nat × Nat) :=
  (List.range n).flatMap fun vert =>
    let row := if (right + 1) &&& 2 = 0 then n - 1 - vert else vert
    [(row, right), (row, right - 1)]

/-- The column pairs from `right` to the left, at most `fuel` of them (45_matrix_builder.md R211). -/
def zigzagFrom (n : Nat) : Nat → Nat → List (Nat × Nat)
  | 0, _ => []
  | fuel + 1, right =>
      if right < 1 then []
      else
        let right := if right = 6 then 5 else right
        columnPair n right ++ zigzagFrom n fuel (right - 2)

/-- `zigzag(n)` (45_matrix_builder.md R211); there are fewer than n column pairs. -/
def zigzag (n : Nat) : List (Nat × Nat) := zigzagFrom n n (n - 1)

/-- `data_positions(F)` of an n × n function map (45_matrix_builder.md R211). -/
def dataPositions (n : Nat) (f : Grid) : List (Nat × Nat) := (zigzag n).filter fun p => !moduleAt f p.1 p.2

/-- The grid with bit t of `bits` at the t-th position (45_matrix_builder.md R212, R213). -/
def placeBits (g : Grid) (pos : List (Nat × Nat)) (bits : Bits) : Grid :=
  (pos.zip bits).foldl (fun g pb => setModule g pb.1.1 pb.1.2 pb.2) g

/-- The number of data modules and the number of codewords disagree (45_matrix_builder.md R213). -/
def placementMismatch (positions codewords : Nat) : Bool :=
  positions < 8 * codewords || 7 < positions - 8 * codewords

/-- The module (r, c) of `trial(G, F, e, k)` (45_matrix_builder.md R215): a format module holds its bit of the format word,
another function module is kept, a data module is inverted where the mask says. -/
def trialModule (cfg : Configuration) (n : Nat) (g f : Grid) (e : Level) (k r c : Nat) : Bool :=
  match formatBitAt n r c with
  | some i => (cfg.formatWord e k).testBit i
  | none => if moduleAt f r c then moduleAt g r c else moduleAt g r c ^^ cfg.maskFn k r c

/-- `trial(G, F, e, k)` (45_matrix_builder.md R215). -/
def trial (cfg : Configuration) (n : Nat) (g f : Grid) (e : Level) (k : Nat) : Grid :=
  gridOf n (trialModule cfg n g f e k)

/-- The scan of `select_mask` over the masks `ks`, from the best so far (45_matrix_builder.md R222). -/
def bestMask (score : Nat → Nat) : List Nat → Nat → Nat → Nat
  | [], best, _ => best
  | k :: ks, best, bestScore =>
      let p := score k
      if p < bestScore then bestMask score ks k p else bestMask score ks best bestScore

/-- `select_mask(G, F, e)` (45_matrix_builder.md R222). -/
def selectMask (cfg : Configuration) (n : Nat) (g f : Grid) (e : Level) : Nat :=
  let score := fun k => cfg.penalty n (trial cfg n g f e k)
  bestMask score [1, 2, 3, 4, 5, 6, 7] 0 (score 0)

/-- The mask a `MASK` or `ENCODE` command applies (45_matrix_builder.md R223). -/
def chosenMask (cfg : Configuration) (auto : Bool) (pattern : BitVec 3) (n : Nat) (g f : Grid) (e : Level) : Nat :=
  if auto then selectMask cfg n g f e else pattern.toNat

/-- `FNPAT` (45_matrix_builder.md R210). -/
def fnpat (cfg : Configuration) (s : State) : State :=
  if s.pipe.stage ≠ 3#3 then raise .invalidArgument s
  else
    let v := s.pipe.ver.toNat
    respond (BitVec.ofNat 24 (Config.sideLength v))
      { s with pipe := { s.pipe with
          grid := functionGrid cfg v, func := functionMap cfg v, size := BitVec.ofNat 8 (Config.sideLength v), stage := 4 } }

/-- `PLACE` (45_matrix_builder.md R213). -/
def place (s : State) : State :=
  if s.pipe.stage ≠ 4#3 then raise .invalidArgument s
  else
    let n := s.pipe.size.toNat
    let pos := dataPositions n s.pipe.func
    if placementMismatch pos.length s.pipe.olen.toNat then raise .internalInvariant s
    else
      let left := pos.length - 8 * s.pipe.olen.toNat
      respond (BitVec.ofNat 24 left)
        { s with pipe := { s.pipe with
            grid := placeBits (gridPart n s.pipe.grid) pos (bitsOfBytes (bytesOf s.pipe.obuf s.pipe.olen.toNat))
            rem := BitVec.ofNat 3 left, stage := 5 } }

/-- `MASK auto, mask` (45_matrix_builder.md R223). -/
def mask (cfg : Configuration) (auto : Bool) (pattern : BitVec 3) (s : State) : State :=
  if s.pipe.stage ≠ 5#3 then raise .invalidArgument s
  else
    let n := s.pipe.size.toNat
    let e := levelOfBits s.pipe.ecl
    let m := chosenMask cfg auto pattern n s.pipe.grid s.pipe.func e
    respond (BitVec.ofNat 24 m)
      { s with pipe := { s.pipe with
          grid := trial cfg n s.pipe.grid s.pipe.func e m, mask := BitVec.ofNat 3 m, stage := 6 } }

/-- `GETM row, col` (45_matrix_builder.md R224). -/
def getm (row col : Byte) (s : State) : State :=
  if s.pipe.size.toNat ≤ row.toNat ∨ s.pipe.size.toNat ≤ col.toNat then raise .invalidArgument s
  else respond ((BitVec.ofBool (moduleAt s.pipe.grid row.toNat col.toNat)).setWidth 24) s

/-- `FNPAT` as a command. -/
def execFnpat (s : State) : Host.Outcome State Fault Refusal := ended (whenRunning (fnpat specConfig) s)
/-- `PLACE` as a command. -/
def execPlace (s : State) : Host.Outcome State Fault Refusal := ended (whenRunning place s)
/-- `MASK` as a command. -/
def execMask (auto : Bool) (pattern : BitVec 3) (s : State) : Host.Outcome State Fault Refusal :=
  ended (whenRunning (mask specConfig auto pattern) s)
/-- `GETM` as a command. -/
def execGetm (row col : Byte) (s : State) : Host.Outcome State Fault Refusal := ended (whenRunning (getm row col) s)

end Sys2Proof.Machine
end

