-- ==== Sys2Proof/Machine/Encode.lean ====
section
/-! DEFINITION. `ENCODE`, the whole encode in one command (46_encode_and_system.md R240 to R242, R245). -/

namespace Sys2Proof.Machine

/-- The commit of `ENCODE` once version `v`, data codewords `d` and positions `pos` are known
(46_encode_and_system.md R241). -/
def encodeCommit (cfg : Configuration) (ecl : Level) (auto : Bool) (pattern : BitVec 3) (sg : Segment) (v : Nat)
    (d : List Byte) (pos : List (Nat × Nat)) (s : State) : State :=
  let n := Config.sideLength v
  let o := interleave cfg d v ecl
  let f := functionMap cfg v
  let g := placeBits (functionGrid cfg v) pos (bitsOfBytes o)
  let m := chosenMask cfg auto pattern n g f ecl
  respond (BitVec.ofNat 24 ((v <<< 8) ||| m))
    { s with pipe :=
        { stage := 6, ilen := 0, ibuf := [], nseg := 1, segs := [sg], sbits := sg.blen
          ecl := levelBits ecl, ver := BitVec.ofNat 6 v
          dlen := BitVec.ofNat 12 d.length, dbuf := d, olen := BitVec.ofNat 12 o.length, obuf := o
          rem := BitVec.ofNat 3 (pos.length - 8 * o.length)
          size := BitVec.ofNat 8 n, grid := trial cfg n g f ecl m, func := f, mask := BitVec.ofNat 3 m } }

/-- `ENCODE ecl, minv, maxv, auto, mask` (46_encode_and_system.md R241): nothing is written before the commit. -/
def encodeSymbol (cfg : Configuration) (ecl : Level) (minv maxv : BitVec 6) (auto : Bool) (pattern : BitVec 3)
    (s : State) : State :=
  if s.pipe.stage ≠ 0#3 ∨ s.pipe.nseg ≠ 0#8 then raise .invalidArgument s
  else if boundsIllegal minv maxv then raise .invalidArgument s
  else
    let sg := makeSegment cfg .auto (inputOf s.pipe)
    match leastVersion cfg [sg] ecl minv.toNat maxv.toNat with
    | none => raise .dataTooLong s
    | some v =>
        match assemble cfg [sg] v ecl with
        | none => raise .internalInvariant s
        | some d =>
            let pos := dataPositions (Config.sideLength v) (functionMap cfg v)
            if placementMismatch pos.length (interleave cfg d v ecl).length then raise .internalInvariant s
            else encodeCommit cfg ecl auto pattern sg v d pos s

/-- `ENCODE` as a command. -/
def execEncode (ecl : Level) (minv maxv : BitVec 6) (auto : Bool) (pattern : BitVec 3) (s : State) :
    Host.Outcome State Fault Refusal :=
  ended (whenRunning (encodeSymbol specConfig ecl minv maxv auto pattern) s)

end Sys2Proof.Machine
end

