-- ==== Sys2Proof/Machine/System.lean ====
section
/-! DEFINITION. The system commands `RESET` and `GETR` (46_encode_and_system.md R243, R244), the two that run while
`HALT` = 1 (60_exceptions.md R268). -/

namespace Sys2Proof.Machine

/-- `GETR sel` (46_encode_and_system.md R244). -/
def getr (sel : BitVec 16) (s : State) : State :=
  match registerAt s sel with
  | some v => respond v s
  | none => raise .invalidArgument s

/-- `RESET` as a command: the effect of the `rst` input, and a response (46_encode_and_system.md R243). -/
def execReset (s : State) : Host.Outcome State Fault Refusal := ended (respond 0 (hardReset s))
/-- `GETR` as a command. -/
def execGetr (sel : BitVec 16) (s : State) : Host.Outcome State Fault Refusal := ended (getr sel s)

end Sys2Proof.Machine
end

