-- ==== Sys2Proof/Machine/Dispatch.lean ====
section
/-! DEFINITION. One arm per command. -/

namespace Sys2Proof.Machine

def exec (i : Instr) (s : State) : Host.Outcome State Fault Refusal :=
  match i with
  | .reset => Sys2Proof.Machine.execReset s
  | .getr sel => Sys2Proof.Machine.execGetr sel s
  | .gfmul x y => Sys2Proof.Machine.execGfmul x y s
  | .rsinit idx => Sys2Proof.Machine.execRsinit idx s
  | .rsrem => Sys2Proof.Machine.execRsrem s
  | .putr b => Sys2Proof.Machine.execPutr b s
  | .clrr => Sys2Proof.Machine.execClrr s
  | .gete idx => Sys2Proof.Machine.execGete idx s
  | .getg idx => Sys2Proof.Machine.execGetg idx s
  | .newsym => Sys2Proof.Machine.execNewsym s
  | .puti b => Sys2Proof.Machine.execPuti b s
  | .clri => Sys2Proof.Machine.execClri s
  | .seg req => Sys2Proof.Machine.execSeg req s
  | .getseg idx k => Sys2Proof.Machine.execGetseg idx k s
  | .getsb idx k => Sys2Proof.Machine.execGetsb idx k s
  | .vsel ecl minv maxv => Sys2Proof.Machine.execVsel ecl minv maxv s
  | .asm => Sys2Proof.Machine.execAsm s
  | .ilv => Sys2Proof.Machine.execIlv s
  | .getd idx => Sys2Proof.Machine.execGetd idx s
  | .geto idx => Sys2Proof.Machine.execGeto idx s
  | .fnpat => Sys2Proof.Machine.execFnpat s
  | .place => Sys2Proof.Machine.execPlace s
  | .mask auto pattern => Sys2Proof.Machine.execMask auto pattern s
  | .getm row col => Sys2Proof.Machine.execGetm row col s
  | .encode ecl minv maxv auto pattern => Sys2Proof.Machine.execEncode ecl minv maxv auto pattern s

end Sys2Proof.Machine
end

