-- ==== Sys2Proof/Machine/Step.lean ====
section
/-! DEFINITION. One step: the host's next command word is transferred, decoded and executed to its end
(00_scope.md R12, R19; 30_encoding.md R70; 60_exceptions.md R267). -/

namespace Sys2Proof.Machine

/-- The state once the word at the command port is transferred: `rest` are the words the host has still to send. -/
def State.withCommands (s : State) (rest : List Word) : State := { s with ports := { s.ports with cmds := rest } }

/-- Execute the command word `w` (60_exceptions.md R267). -/
def execWord (w : Word) (s : State) : Host.Outcome State Fault Refusal :=
  match decode w with
  | .ok i => exec i s
  | .error _ => ended (illegalWord s)

/-- One step. With no word at the port the core waits, and waiting keeps all state (60_exceptions.md R276). -/
def step (s : State) : Host.Outcome State Fault Refusal :=
  match s.ports.cmds with
  | [] => .next s
  | w :: rest => execWord w (s.withCommands rest)

/-- `s` with the word `w` as the next one the host hands over (assumption 1). -/
def State.withFetchWord (s : State) (nbits w : Nat) : State :=
  s.withCommands (BitVec.ofNat 32 (w % 2 ^ nbits) :: s.ports.cmds)

end Sys2Proof.Machine
end

