-- ==== Sys2Proof/Safety.lean ====
section
/-! DEFINITION. What a state must keep and what a safe run is: the invariants of 10_state.md R31 and R48 with the contents of
the buffers they speak of, and the running (not halted) core. `State.Inv` is what every command keeps from every state
that has it; a core that has it and is not halted never becomes halted (60_exceptions.md R264). -/

namespace Sys2Proof.Machine

/-- The invariant of the RS unit (10_state.md R31, with R26 to R30): every buffer holds as many items as its length
register says, and a valid generator is the divisor of its degree. -/
structure RsUnit.InvFor (cfg : Configuration) (u : RsUnit) : Prop where
  noGenerator : u.gv = 0#1 → u.deg = 0#8 ∧ u.elen = 0#8
  generator : u.gv = 1#1 → u.deg ≠ 0#8 ∧ (u.elen = 0#8 ∨ u.elen = u.deg) ∧ u.div = rsDivisor u.deg.toNat
  divSize : u.div.length = u.deg.toNat
  rbufSize : u.rbuf.length = u.rlen.toNat ∧ u.rlen.toNat ≤ cfg.capacities.rbufCap
  ebufSize : u.ebuf.length = u.elen.toNat

/-- A stored segment as 10_state.md R48 has it: one of the three modes, the payload length its mode and count give. -/
def SegmentOk (cfg : Configuration) (sg : Segment) : Prop :=
  ∃ m : Mode, sg.mode = cfg.modeIndicator m ∧ sg.blen.toNat = payloadLen m sg.count.toNat ∧ sg.bits.length = sg.blen.toNat

/-- A grid of `n` rows of `n` modules. -/
def IsSquare (n : Nat) (g : Grid) : Prop := g.length = n ∧ ∀ line ∈ g, line.length = n

/-- Every function module of version `v` but the 30 format modules has the colour `FNPAT` gave it
(45_matrix_builder.md R201, R206): "these modules are marked immutable". -/
def KeepsPatterns (cfg : Configuration) (v : Nat) (g : Grid) : Prop :=
  ∀ r c d, r < Config.sideLength v → c < Config.sideLength v → functionAt cfg v r c = some d →
    formatBitAt (Config.sideLength v) r c = none → moduleAt g r c = d

/-- The invariant of the PIPE unit (10_state.md R48). -/
structure PipeUnit.InvFor (cfg : Configuration) (p : PipeUnit) : Prop where
  stageLegal : p.stage.toNat ≤ 6
  inputSize : p.ibuf.length = p.ilen.toNat ∧ p.ilen.toNat ≤ cfg.capacities.ibufCap
  storeSize : p.segs.length = p.nseg.toNat ∧ p.nseg.toNat ≤ cfg.capacities.nsegMax
  storeBits : p.sbits.toNat = (p.segs.map fun sg => sg.blen.toNat).sum ∧ p.sbits.toNat ≤ cfg.capacities.sbitCap
  segments : ∀ sg ∈ p.segs, SegmentOk cfg sg
  noVersion : p.stage.toNat = 0 → p.ver = 0#6 ∧ p.ecl = 0#2
  version : 1 ≤ p.stage.toNat → 1 ≤ p.ver.toNat ∧ p.ver.toNat ≤ 40 ∧
    requiredBits cfg p.segs p.ver.toNat ≤ capacityBits cfg p.ver.toNat (levelOfBits p.ecl)
  noData : p.stage.toNat < 2 → p.dlen = 0#12
  data : 2 ≤ p.stage.toNat → p.dlen.toNat = dataCodewords cfg p.ver.toNat (levelOfBits p.ecl)
  dataSize : p.dbuf.length = p.dlen.toNat
  noCodewords : p.stage.toNat < 3 → p.olen = 0#12
  codewords : 3 ≤ p.stage.toNat → p.olen.toNat = totalCodewords cfg p.ver.toNat
  codewordsSize : p.obuf.length = p.olen.toNat
  noGrid : p.stage.toNat < 4 → p.size = 0#8 ∧ p.grid = [] ∧ p.func = []
  gridSize : 4 ≤ p.stage.toNat → p.size.toNat = Config.sideLength p.ver.toNat ∧ IsSquare p.size.toNat p.grid
  gridPatterns : 4 ≤ p.stage.toNat → p.func = functionMap cfg p.ver.toNat ∧ KeepsPatterns cfg p.ver.toNat p.grid
  noRemainder : p.stage.toNat < 5 → p.rem = 0#3
  remainder : 5 ≤ p.stage.toNat → p.rem.toNat = cfg.rawModules p.ver.toNat - 8 * p.olen.toNat
  noMask : p.stage.toNat < 6 → p.mask = 0#3

/-- The invariant of the machine (10_state.md R31, R48). -/
structure State.InvFor (cfg : Configuration) (s : State) : Prop where
  rs : s.rs.InvFor cfg
  pipe : s.pipe.InvFor cfg
  haltFlag : s.halt = 1#1 → s.eflags.getLsbD 2 = true

/-- The invariant of the RS unit of the spec's configuration. -/
abbrev RsUnit.Inv (u : RsUnit) : Prop := u.InvFor specConfig

/-- The invariant of the PIPE unit of the spec's configuration. -/
abbrev PipeUnit.Inv (p : PipeUnit) : Prop := p.InvFor specConfig

/-- The invariant of the core of the spec's configuration. -/
abbrev State.Inv (s : State) : Prop := s.InvFor specConfig

/-- The core is not halted (10_state.md R24). -/
def State.Running (s : State) : Prop := s.halt = 0#1

end Sys2Proof.Machine
end

