-- ==== Sys2Proof/Certificates/Slice0/Reference.lean ====
section
/-! DEFINITION. What the statements speak in: the response port and the error state written out from the rules, the opcode
map as numbers, polynomials over GF(2^8), the places of format bits and blocks. Nothing here is used by the machine, and
where the machine has a definition of the same thing, the one here is written from the rule again. -/

namespace Sys2Proof.Reference

open Sys2Proof.Machine

/-- The ports once the response `w` is put out (30_encoding.md R70). -/
def portsAfter (s : State) (w : Word) : Ports := { cmds := s.ports.cmds, rsps := s.ports.rsps ++ [w] }

/-- A successful response: status 0 and the value in the low 24 bits (30_encoding.md R73). -/
def okResponse (v : Nat) : Word := BitVec.ofNat 32 v

/-- The response of an error: `code << 28` (30_encoding.md R73). -/
def errResponse (code : Nat) : Word := BitVec.ofNat 32 (code * 2 ^ 28)

/-- The state after the error of code 1 to 4 (60_exceptions.md R266): bit code − 1 of `EFLAGS`, `HALT` for code 3, the
response, and nothing else. -/
def errorState (s : State) (code : Nat) : State :=
  { s with
    eflags := s.eflags ||| BitVec.ofNat 4 (2 ^ (code - 1))
    halt := if code = 3 then 1#1 else s.halt
    ports := portsAfter s (errResponse code) }

/-- The status field of a response (30_encoding.md R73). -/
def statusOf (w : Word) : Nat := w.toNat / 2 ^ 28

/-- Bits 27:24 of a response (30_encoding.md R73). -/
def zeroField (w : Word) : Nat := w.toNat / 2 ^ 24 % 16

/-- The value field of a response (30_encoding.md R73). -/
def valueOf (w : Word) : Nat := w.toNat % 2 ^ 24

/-- Match and mask of every row of the opcode map (30_encoding.md R75). -/
def opcodeMap : List (Nat × Nat) :=
  [(0x01000000, 0xFFFFFFFF), (0x02000000, 0xFFFF0000), (0x10000000, 0xFFFF0000), (0x20000000, 0xFFFF0000),
   (0x21000000, 0xFFFFFFFF), (0x22000000, 0xFFFFFF00), (0x23000000, 0xFFFFFFFF), (0x24000000, 0xFFFF0000),
   (0x25000000, 0xFFFF0000), (0x30000000, 0xFFFFFFFF), (0x31000000, 0xFFFFFF00), (0x32000000, 0xFFFFFFFF)] ++
  [(0x33000000, 0xFFFFFFFC), (0x34000000, 0xFF000000), (0x35000000, 0xFF000000), (0x40000000, 0xFF0003FF),
   (0x50000000, 0xFFFFFFFF), (0x51000000, 0xFFFFFFFF), (0x52000000, 0xFFFF0000), (0x53000000, 0xFFFF0000),
   (0x60000000, 0xFFFFFFFF), (0x61000000, 0xFFFFFFFF), (0x62000000, 0xFFFFFFF0), (0x63000000, 0xFFFF0000),
   (0x70000000, 0xFF0003F0)]

/-- A word is a command: it matches a row, and `MASK` and `ENCODE` have not `auto` = 1 with `mask` ≠ 0
(30_encoding.md R75). -/
def isCommandWord (w : Word) : Bool :=
  (opcodeMap.any fun row => w.toNat &&& row.2 == row.1) &&
    !((w.toNat / 2 ^ 24 == 0x62 || w.toNat / 2 ^ 24 == 0x70) && w.getLsbD 3 && w.toNat % 8 != 0)

/-- The scalar registers in the order of their selectors (10_state.md R49). -/
def scalarRegisters (s : State) : List Nat :=
  [s.eflags.toNat, s.halt.toNat, s.res.toNat, s.rs.gv.toNat, s.rs.deg.toNat, s.rs.rlen.toNat, s.rs.elen.toNat,
   s.pipe.stage.toNat, s.pipe.ilen.toNat, s.pipe.nseg.toNat, s.pipe.ecl.toNat, s.pipe.ver.toNat, s.pipe.dlen.toNat,
   s.pipe.olen.toNat, s.pipe.size.toNat, s.pipe.mask.toNat, s.pipe.rem.toNat, s.pipe.sbits.toNat]

/-- The command may write the GF unit (10_state.md R20, R25). -/
def writesGf : Instr → Bool
  | .reset | .gfmul _ _ => true
  | _ => false

/-- The command may write the RS unit (10_state.md R20, R26 to R30). -/
def writesRs : Instr → Bool
  | .reset | .rsinit _ | .rsrem | .putr _ | .clrr => true
  | _ => false

/-- The command may write the PIPE unit (10_state.md R20, R33 to R44). -/
def writesPipe : Instr → Bool
  | .reset | .newsym | .puti _ | .clri | .seg _ | .vsel _ _ _ | .asm | .ilv | .fnpat | .place | .mask _ _
  | .encode _ _ _ _ _ => true
  | _ => false

/-- A `GET` command (20_memory.md R59). -/
def isRead : Instr → Bool
  | .getr _ | .gete _ | .getg _ | .getseg _ _ | .getsb _ _ | .getd _ | .geto _ | .getm _ _ => true
  | _ => false

/-- A command of the RS unit (41_reed_solomon.md). -/
def isRsCommand : Instr → Bool
  | .rsinit _ | .rsrem | .putr _ | .clrr | .gete _ | .getg _ => true
  | _ => false

/-- A command of the PIPE unit (42 to 46). -/
def isPipeCommand : Instr → Bool
  | .newsym | .puti _ | .clri | .seg _ | .getseg _ _ | .getsb _ _ | .vsel _ _ _ | .asm | .ilv | .getd _ | .geto _
  | .fnpat | .place | .mask _ _ | .getm _ _ | .encode _ _ _ _ _ => true
  | _ => false

/-- A command whose answer reads no register that `NEWSYM` leaves as it was (70_reset_and_hazards.md R292): those of the PIPE
unit, those whose answer is a function of their operands, and `GETR` of `HALT` and the PIPE registers. -/
def answersAlike : Instr → Bool
  | .reset | .gfmul _ _ | .rsinit _ | .clrr => true
  | .getr sel => !([0, 2, 3, 4, 5, 6].contains sel.toNat)
  | i => isPipeCommand i

/-- Commands one after another, each a next state. -/
def runCommands : List Instr → State → Host.Outcome State Fault Refusal
  | [], s => .next s
  | i :: is, s =>
    match exec i s with
    | .next t => runCommands is t
    | .fault r => .fault r
    | .refused r => .refused r

/-- The carry-less product of two bytes, 15 bits (40_gf_arithmetic.md R100). -/
def carrylessProduct (x y : Byte) : BitVec 16 :=
  (List.range 8).foldl (fun acc i => if y.getLsbD i then acc ^^^ (x.setWidth 16 <<< i) else acc) 0#16

/-- The remainder of a 15-bit polynomial by 0x11D (40_gf_arithmetic.md R100). -/
def reduce11D (p : BitVec 16) : Byte :=
  ([14, 13, 12, 11, 10, 9, 8].foldl (fun acc i => if acc.getLsbD i then acc ^^^ (0x11D#16 <<< (i - 8)) else acc) p).setWidth 8

/-- The product of two field elements as R100 defines it. -/
def fieldProduct (x y : Byte) : Byte := reduce11D (carrylessProduct x y)

/-- 2^i in the field. -/
def powerOfTwo : Nat → Byte
  | 0 => 1#8
  | i + 1 => fieldProduct (powerOfTwo i) 2#8

/-- The value of a polynomial, coefficients highest first, at a point (Horner's rule; 95_test_vectors.md V8). -/
def polyEval (p : List Byte) (x : Byte) : Byte := p.foldl (fun acc c => fieldProduct acc x ^^^ c) 0#8

/-- A polynomial, coefficients highest first, times (x + r). -/
def timesMonomial (p : List Byte) (r : Byte) : List Byte :=
  List.zipWith (· ^^^ ·) (p ++ [0#8]) (0#8 :: p.map fun a => fieldProduct a r)

/-- (x − r^0)·…·(x − r^(d−1)), all its d + 1 coefficients, highest first (41_reed_solomon.md R110). -/
def divisorPolynomial : Nat → List Byte
  | 0 => [1#8]
  | d + 1 => timesMonomial (divisorPolynomial d) (powerOfTwo d)

/-- The terminator bits for a stream of `len` bits in `cap` (44_codeword_assembler.md R182). -/
def terminatorLen (cap len : Nat) : Nat := min 4 (cap - len)

/-- The bits that fill up the last byte (44_codeword_assembler.md R182). -/
def fillLen (len : Nat) : Nat := (8 - len % 8) % 8

/-- The first data codeword of block `j` (44_codeword_assembler.md R185). -/
def blockStart (v : Nat) (e : Level) (j : Nat) : Nat := j * shortDataLen specConfig v e + (j - shortBlocks specConfig v e)

/-- Where copy 1 of format bit `i` lies (45_matrix_builder.md R206). -/
def formatCopy1 (i : Nat) : Nat × Nat :=
  if i ≤ 5 then (i, 8) else if i = 6 then (7, 8) else if i = 7 then (8, 8) else if i = 8 then (8, 7) else (8, 14 - i)

/-- Where copy 2 of format bit `i` lies in a grid of side `n` (45_matrix_builder.md R206). -/
def formatCopy2 (n i : Nat) : Nat × Nat :=
  if i ≤ 7 then (8, n - 1 - i) else (n - 15 + i, 8)

/-- The 15-bit words of the format information, a row per level, masks 0 to 7 (the table of 45_matrix_builder.md R206). -/
def formatCodes : Level → List Nat
  | .low => [0x77C4, 0x72F3, 0x7DAA, 0x789D, 0x662F, 0x6318, 0x6C41, 0x6976]
  | .medium => [0x5412, 0x5125, 0x5E7C, 0x5B4B, 0x45F9, 0x40CE, 0x4F97, 0x4AA0]
  | .quartile => [0x355F, 0x3068, 0x3F31, 0x3A06, 0x24B4, 0x2183, 0x2EDA, 0x2BED]
  | .high => [0x1689, 0x13BE, 0x1CE7, 0x19D0, 0x0762, 0x0255, 0x0D0C, 0x083B]

/-- The format word of a level and a mask. -/
def formatCode (e : Level) (k : Nat) : Nat := (formatCodes e).getD k 0

/-- The 18-bit words of the version information, versions 7 to 40 (the list of 45_matrix_builder.md R207). -/
def versionCodes : List Nat :=
  [0x07C94, 0x085BC, 0x09A99, 0x0A4D3, 0x0BBF6, 0x0C762, 0x0D847, 0x0E60D, 0x0F928, 0x10B78, 0x1145D, 0x12A17] ++
  [0x13532, 0x149A6, 0x15683, 0x168C9, 0x177EC, 0x18EC4, 0x191E1, 0x1AFAB, 0x1B08E, 0x1CC1A, 0x1D33F, 0x1ED75] ++
  [0x1F250, 0x209D5, 0x216F0, 0x228BA, 0x2379F, 0x24B0B, 0x2542E, 0x26A64, 0x27541, 0x28C69]

/-- The version word of a version from 7 on. -/
def versionCode (v : Nat) : Nat := versionCodes.getD (v - 7) 0

/-- Mask `k` inverts the module at row `r`, column `c` (the table of 45_matrix_builder.md R214). -/
def maskInverts (k r c : Nat) : Bool :=
  [decide ((r + c) % 2 = 0), decide (r % 2 = 0), decide (c % 3 = 0), decide ((r + c) % 3 = 0),
   decide ((r / 2 + c / 3) % 2 = 0), decide (r * c % 2 + r * c % 3 = 0), decide ((r * c % 2 + r * c % 3) % 2 = 0),
   decide (((r + c) % 2 + r * c % 3) % 2 = 0)].getD k false

/-- The penalty of the trial grid of mask `k` (45_matrix_builder.md R222). -/
def trialPenalty (p : PipeUnit) (k : Nat) : Nat :=
  penalty p.size.toNat (trial specConfig p.size.toNat p.grid p.func (levelOfBits p.ecl) k)

/-- `m` is the mask automatic selection must take: no mask scores less, no lower-numbered mask scores the same
(45_matrix_builder.md R222). -/
def IsBestMask (score : Nat → Nat) (m : Nat) : Prop :=
  m < 8 ∧ (∀ k, k < 8 → score m ≤ score k) ∧ ∀ k, k < m → score m < score k

/-- The ASCII codes of the alphanumeric alphabet, in the order of their values (42_segment_encoder.md R132). -/
def alphabet : List Nat :=
  [0x30, 0x31, 0x32, 0x33, 0x34, 0x35, 0x36, 0x37, 0x38, 0x39] ++
  [0x41, 0x42, 0x43, 0x44, 0x45, 0x46, 0x47, 0x48, 0x49, 0x4A, 0x4B, 0x4C, 0x4D, 0x4E, 0x4F, 0x50, 0x51, 0x52, 0x53,
   0x54, 0x55, 0x56, 0x57, 0x58, 0x59, 0x5A] ++
  [0x20, 0x24, 0x25, 0x2A, 0x2B, 0x2D, 0x2E, 0x2F, 0x3A]

/-- From bit `start` on, `bits` holds the number `v` in `width` bits, the most significant first (`bits_n` of
00_scope.md R10). -/
def HoldsNumber (bits : Bits) (start width v : Nat) : Prop :=
  v < 2 ^ width ∧ ∀ j, j < width → bits[start + j]? = some (v.testBit (width - 1 - j))

/-- The value of the digit at index `i` of an input (42_segment_encoder.md R131). -/
def digitAt (input : List Byte) (i : Nat) : Nat := (input.getD i 0#8).toNat - 0x30

/-- The value of the alphanumeric character at index `i` of an input: its place in the alphabet (42_segment_encoder.md
R132). -/
def charAt (input : List Byte) (i : Nat) : Nat := alphabet.idxOf (input.getD i 0#8).toNat

/-- A line made of runs of the given lengths, the colours alternating from `colour` (45_matrix_builder.md R218). -/
def lineOfRuns : Bool → List Nat → List Bool
  | _, [] => []
  | colour, len :: rest => List.replicate len colour ++ lineOfRuns (!colour) rest

/-- What seven runs, light first, count as under rule (c): light x, dark k, light k, dark 3k, light k, dark k, light y
(45_matrix_builder.md R220). -/
def finderLikeAt : List Nat → Nat
  | [x, k, a, b, c, d, y] =>
      if 1 ≤ k ∧ a = k ∧ b = 3 * k ∧ c = k ∧ d = k then
        (if 4 * k ≤ x ∧ k ≤ y then 1 else 0) + (if 4 * k ≤ y ∧ k ≤ x then 1 else 0)
      else 0
  | _ => 0

/-- The count of rule (c) over a list of runs that begins with a light one: every window that begins with a light run. -/
def finderLikeIn : List Nat → Nat
  | light :: dark :: rest => finderLikeAt ((light :: dark :: rest).take 7) + finderLikeIn rest
  | _ => 0

end Sys2Proof.Reference
end

