-- ==== Sys2Proof/Machine/Configured.lean ====
section
/-! DEFINITION. The machine of an arbitrary configuration (00_scope.md R19: the tables and the capacities are arguments of
`step`). `exec` and `step` are these at `specConfig`; a command that reads no parameter is the same in every core.
What a configuration outside R7's constraints, or with tables of which the spec does not speak, computes is the model's choice
(assumption 16). -/

namespace Sys2Proof.Machine

/-- `exec` of the core built with `cfg`. -/
def execWith (cfg : Configuration) (i : Instr) (s : State) : Host.Outcome State Fault Refusal :=
  match i with
  | .reset => execReset s
  | .getr sel => execGetr sel s
  | .gfmul x y => execGfmul x y s
  | .rsinit idx => execRsinit idx s
  | .rsrem => execRsrem s
  | .putr b => ended (whenRunning (putr cfg b) s)
  | .clrr => execClrr s
  | .gete idx => execGete idx s
  | .getg idx => execGetg idx s
  | .newsym => execNewsym s
  | .puti b => ended (whenRunning (puti cfg b) s)
  | .clri => execClri s
  | .seg req => ended (whenRunning (seg cfg req) s)
  | .getseg idx k => execGetseg idx k s
  | .getsb idx k => execGetsb idx k s
  | .vsel ecl minv maxv => ended (whenRunning (vsel cfg ecl minv maxv) s)
  | .asm => ended (whenRunning (asm cfg) s)
  | .ilv => ended (whenRunning (ilv cfg) s)
  | .getd idx => execGetd idx s
  | .geto idx => execGeto idx s
  | .fnpat => ended (whenRunning (fnpat cfg) s)
  | .place => execPlace s
  | .mask auto pattern => ended (whenRunning (mask cfg auto pattern) s)
  | .getm row col => execGetm row col s
  | .encode ecl minv maxv auto pattern => ended (whenRunning (encodeSymbol cfg ecl minv maxv auto pattern) s)

/-- `step` of the core built with `cfg`: the word at the port, decoded, refused or executed (60_exceptions.md R267). -/
def stepWith (cfg : Configuration) (s : State) : Host.Outcome State Fault Refusal :=
  match s.ports.cmds with
  | [] => .next s
  | w :: rest =>
    match decode w with
    | .ok i => execWith cfg i (s.withCommands rest)
    | .error _ => ended (illegalWord (s.withCommands rest))

end Sys2Proof.Machine
end

