-- ==== Sys2Proof/Certificates/Slice0/Obligations.lean ====
section
/-! DEFINITION. The statements for the provers. Each names the rule of the spec it formalises; the premises `Inv` are the
invariant of Safety.lean (10_state.md R31, R48), which `EveryStepKeepsTheInvariant` shows to hold of every reachable
state. A command's frame is said by giving the whole next state. A buffer stands in a
state as the list of the items below its length register (the model's choice, assumption 3), so a buffer of length 0 is
`[]`. -/

open Sys2Proof Sys2Proof.Machine Sys2Proof.Reference

/-! ## Decoding and stepping -/

/-- 60_exceptions.md R267, R276: the word at the port, when it decodes, is what the step executes, on the state with that
word transferred; with no word the core waits (the port as a list is the model's choice, assumption 1). -/
def Obligations.StepRunsTheCommandAtThePort : Prop :=
  ∀ s : State,
    (∀ w rest i, s.ports.cmds = w :: rest → decode w = .ok i →
      step s = exec i { s with ports := { s.ports with cmds := rest } }) ∧
    (s.ports.cmds = [] → step s = .next s)

/-- 30_encoding.md R76, 60_exceptions.md R265, R268: a word that is no command raises IllegalCommand, and on a halted core
is answered like every other word. -/
def Obligations.IllegalWordRaisesIllegalCommand : Prop :=
  ∀ (s : State) (w : Word) (rest : List Word), s.ports.cmds = w :: rest → isCommandWord w = false →
    (s.halt = 0#1 → step s = .next (errorState { s with ports := { s.ports with cmds := rest } } 4)) ∧
    (s.halt = 1#1 → step s = .next { s with ports := { cmds := rest, rsps := s.ports.rsps ++ [0x30000000#32] } })

/-- 30_encoding.md R71, R72: every command is read back from its word, with every operand. -/
def Obligations.DecodeInvertsEncode : Prop :=
  ∀ i : Instr, i.wellFormed = true → decode (encode i) = .ok i

/-- 30_encoding.md R76, R77: a word that decodes is the one word of a well-formed command; no bit is ignored. -/
def Obligations.EveryCommandHasOneWord : Prop :=
  ∀ (w : Word) (i : Instr), decode w = .ok i → i.wellFormed = true ∧ encode i = w

/-- 30_encoding.md R75: the words that decode are exactly those that match a row of the opcode map. -/
def Obligations.CommandWordsAreTheOpcodeMap : Prop :=
  ∀ w : Word, (∃ i, decode w = .ok i) ↔ isCommandWord w = true

/-- 30_encoding.md R79 and 95_test_vectors.md V28: words written out by the spec. -/
def Obligations.WordsOfTheSpecDecode : Prop :=
  decode 0x100053CA#32 = .ok (.gfmul 0x53#8 0xCA#8) ∧ decode 0x2000000A#32 = .ok (.rsinit 10#16) ∧
  decode 0x33000001#32 = .ok (.seg .numeric) ∧ decode 0x4081A000#32 = .ok (.vsel .quartile 1#6 40#6) ∧
  decode 0x62000003#32 = .ok (.mask false 3#3) ∧ decode 0x7041A008#32 = .ok (.encode .medium 1#6 40#6 true 0#3) ∧
  decode 0x34FF0002#32 = .ok (.getseg 255#8 2#16) ∧ decode 0x62000009#32 = .error .autoWithMask

/-! ## Reset, errors, halting -/

/-- 70_reset_and_hazards.md R290: after reset every scalar register is 0. -/
def Obligations.ResetZeroesEveryScalarRegister : Prop :=
  scalarRegisters State.reset = List.replicate 18 0

/-- 10_state.md R31, R48: the invariant holds after reset. -/
def Obligations.ResetMeetsTheInvariant : Prop := State.reset.Inv

/-- 10_state.md R31, R48: every step keeps the invariant. -/
def Obligations.EveryStepKeepsTheInvariant : Prop :=
  ∀ s t : State, s.Inv → step s = .next t → t.Inv

/-- 60_exceptions.md R264: with the tables of the spec no internal check fails, so no step halts a running core whose state
meets the invariant. -/
def Obligations.NoStepHaltsARunningCore : Prop :=
  ∀ s t : State, s.Inv → s.halt = 0#1 → step s = .next t → t.halt = 0#1

/-- 60_exceptions.md R268: while `HALT` = 1 a step on any word but `RESET` and `GETR`, legal or not, answers 0x30000000 and
changes nothing, and `RESET` and `GETR` are executed. -/
def Obligations.HaltedCoreAnswersInternalInvariant : Prop :=
  ∀ (s : State) (w : Word) (rest : List Word), s.halt = 1#1 → s.ports.cmds = w :: rest →
    let s1 := { s with ports := { s.ports with cmds := rest } }
    (w ≠ 0x01000000#32 → w &&& 0xFFFF0000#32 ≠ 0x02000000#32 →
      step s = .next { s1 with ports := portsAfter s1 0x30000000#32 }) ∧
    (w = 0x01000000#32 → step s = exec .reset s1) ∧
    (∀ sel : BitVec 16, w = 0x02000000#32 ||| sel.setWidth 32 → step s = exec (.getr sel) s1)

/-- 30_encoding.md R70, R73, 60_exceptions.md R266: every command, in every state, ends with one response word; either it
succeeds, with status 0, and leaves the error record alone (`RESET` apart), or it is one of the three errors a command can
raise and changes nothing but the error record, or the core is halted and nothing changes. -/
def Obligations.EveryCommandAnswersOnce : Prop :=
  ∀ (i : Instr) (s : State), ∃ t w, exec i s = .next t ∧ t.ports = portsAfter s w ∧ zeroField w = 0 ∧
    ((statusOf w = 0 ∧ (i ≠ .reset → t.eflags = s.eflags ∧ t.halt = s.halt)) ∨
     (∃ code, (code = 1 ∨ code = 2 ∨ code = 3) ∧ w = errResponse code ∧ t = errorState s code) ∨
     (s.halt = 1#1 ∧ w = 0x30000000#32 ∧ t = { s with ports := portsAfter s w }))

/-- 10_state.md R23, R24: a word that ends with an error sets the bit of its kind in `EFLAGS` and leaves the others, one that
ends without an error changes none, InternalInvariant and nothing else sets `HALT`, and only `RESET` clears them. The
premise is R48's last row. -/
def Obligations.FlagsAndHaltRecordErrors : Prop :=
  ∀ (s t : State) (w : Word) (rest : List Word), (s.halt = 1#1 → s.eflags.getLsbD 2 = true) →
    s.ports.cmds = w :: rest → step s = .next t →
    ∃ r, t.ports = { cmds := rest, rsps := s.ports.rsps ++ [r] } ∧ statusOf r ≤ 4 ∧
      (w ≠ 0x01000000#32 →
        (statusOf r = 0 → t.eflags = s.eflags) ∧
        (statusOf r ≠ 0 → t.eflags = s.eflags ||| BitVec.ofNat 4 (2 ^ (statusOf r - 1))) ∧
        (t.halt = 1#1 ↔ s.halt = 1#1 ∨ statusOf r = 3)) ∧
      (w = 0x01000000#32 → r = 0#32 ∧ t.eflags = 0#4 ∧ t.halt = 0#1)

/-- 60_exceptions.md R264: what each internal check answers where it fails; no state of the invariant comes here. -/
def Obligations.FailedInternalChecksHaltTheCore : Prop :=
  ∀ s : State, s.halt = 0#1 →
    (s.pipe.stage = 1#3 →
      8 * dataCodewords specConfig s.pipe.ver.toNat (levelOfBits s.pipe.ecl) < (streamOf specConfig (segmentsOf s.pipe) s.pipe.ver.toNat).length →
      exec .asm s = .next (errorState s 3)) ∧
    (s.pipe.stage = 2#3 → s.pipe.dlen.toNat ≠ dataCodewords specConfig s.pipe.ver.toNat (levelOfBits s.pipe.ecl) →
      exec .ilv s = .next (errorState s 3)) ∧
    (s.pipe.stage = 4#3 →
      ((dataPositions s.pipe.size.toNat s.pipe.func).length < 8 * s.pipe.olen.toNat ∨
        8 * s.pipe.olen.toNat + 7 < (dataPositions s.pipe.size.toNat s.pipe.func).length) →
      exec .place s = .next (errorState s 3))

/-- 46_encode_and_system.md R243, 10_state.md R47: `RESET`, in every state, halted or not, gives every register its reset
value, 0, as the `rst` input does, and answers 0. -/
def Obligations.ResetCommandRestoresTheResetState : Prop :=
  encode .reset = 0x01000000#32 ∧
  ∀ s : State, exec .reset s = .next { State.reset with ports := portsAfter s (okResponse 0) } ∧
    exec .reset s = .next { hardReset s with ports := portsAfter s (okResponse 0) } ∧
    scalarRegisters (hardReset s) = List.replicate 18 0

/-- 46_encode_and_system.md R244, 10_state.md R49: `GETR`, in every state, halted or not. -/
def Obligations.GetrReadsTheSelectedRegister : Prop :=
  ∀ (s : State) (sel : BitVec 16), encode (.getr sel) = 0x02000000#32 ||| sel.setWidth 32 ∧
    (∀ v, (scalarRegisters s)[sel.toNat]? = some v →
      exec (.getr sel) s = .next { s with ports := portsAfter s (okResponse v) }) ∧
    (17 < sel.toNat → exec (.getr sel) s = .next (errorState s 1))

/-! ## Whole-machine rules -/

/-- 10_state.md R20: no state is shared between units. A command writes no register or buffer of a unit it does not belong
to, and what it leaves in its own unit, and answers, depends on that unit and `HALT` alone. -/
def Obligations.UnitsShareNoState : Prop :=
  ∀ (i : Instr) (s t : State), exec i s = .next t →
    (writesGf i = false → t.res = s.res) ∧ (writesRs i = false → t.rs = s.rs) ∧ (writesPipe i = false → t.pipe = s.pipe) ∧
    ∀ s' t' : State, exec i s' = .next t' → s'.halt = s.halt →
      (writesGf i = true → s'.res = s.res →
        t'.res = t.res ∧ ∃ w, t.ports = portsAfter s w ∧ t'.ports = portsAfter s' w) ∧
      (isRsCommand i = true → s'.rs = s.rs →
        t'.rs = t.rs ∧ ∃ w, t.ports = portsAfter s w ∧ t'.ports = portsAfter s' w) ∧
      (isPipeCommand i = true → s'.pipe = s.pipe →
        t'.pipe = t.pipe ∧ t'.halt = t.halt ∧ ∃ w, t.ports = portsAfter s w ∧ t'.ports = portsAfter s' w)

/-- 20_memory.md R59: a `GET` command leaves the whole state as it was, unless it is refused, which sets bit `IA` of `EFLAGS`
and changes nothing else; so it changes no answer of another read, that of `GETR 0` after a refusal apart. -/
def Obligations.ReadsHaveNoSideEffects : Prop :=
  ∀ (i : Instr) (s : State), isRead i = true →
    ((∃ w, exec i s = .next { s with ports := portsAfter s w }) ∨ exec i s = .next (errorState s 1)) ∧
    ∀ (j : Instr) (t a b : State) (w : Word), isRead j = true → exec i s = .next t → exec j s = .next a →
      exec j t = .next b → (j ≠ .getr 0#16 ∨ t.eflags = s.eflags) → a.ports = portsAfter s w → b.ports = portsAfter t w

/-- 10_state.md R33: a command leaves `STAGE`, or advances it by one from the one value it needs, or is `ENCODE` from 0 to 6;
only `NEWSYM` and `RESET` move it back. -/
def Obligations.StageAdvancesInOrder : Prop :=
  ∀ (i : Instr) (s t : State), exec i s = .next t →
    t.pipe.stage = s.pipe.stage ∨ (t.pipe.stage = 0#3 ∧ (i = .newsym ∨ i = .reset)) ∨
    (s.pipe.stage = 0#3 ∧ t.pipe.stage = 1#3 ∧ ∃ e lo hi, i = .vsel e lo hi) ∨
    (s.pipe.stage = 1#3 ∧ t.pipe.stage = 2#3 ∧ i = .asm) ∨ (s.pipe.stage = 2#3 ∧ t.pipe.stage = 3#3 ∧ i = .ilv) ∨
    (s.pipe.stage = 3#3 ∧ t.pipe.stage = 4#3 ∧ i = .fnpat) ∨ (s.pipe.stage = 4#3 ∧ t.pipe.stage = 5#3 ∧ i = .place) ∨
    (s.pipe.stage = 5#3 ∧ t.pipe.stage = 6#3 ∧ ∃ a m, i = .mask a m) ∨
    (s.pipe.stage = 0#3 ∧ t.pipe.stage = 6#3 ∧ ∃ e lo hi a m, i = .encode e lo hi a m)

/-- 46_encode_and_system.md R245: at `STAGE` = 6 no command but `NEWSYM` and `RESET` changes the symbol, or anything of the
PIPE unit. -/
def Obligations.FinishedSymbolIsImmutable : Prop :=
  ∀ (i : Instr) (s t : State), s.pipe.stage = 6#3 → i ≠ .newsym → i ≠ .reset → exec i s = .next t → t.pipe = s.pipe

/-- 10_state.md R35: stored segments are never changed; a command appends or leaves them, `NEWSYM` and `RESET` apart. -/
def Obligations.StoredSegmentsAreImmutable : Prop :=
  ∀ (i : Instr) (s t : State), s.pipe.Inv → i ≠ .newsym → i ≠ .reset → exec i s = .next t →
    ∃ more, t.pipe.segs = s.pipe.segs ++ more

/-- 70_reset_and_hazards.md R292: from the reset state, or after `NEWSYM` from any state that is not halted, the same command
words give the same PIPE state; and the same responses, when no command among them answers from a register that `NEWSYM`
leaves as it was (this reading of "the same responses" is assumption 13). -/
def Obligations.SameCommandsGiveTheSameSymbol : Prop :=
  ∀ (s u : State) (ws : List Word) (k : Nat), s.halt = 0#1 → exec .newsym s = .next u →
    ∃ t1 t2 : State,
      Host.Core.run Sys2Proof.core k { State.reset with ports := { cmds := ws, rsps := [] } } = .next t1 ∧
      Host.Core.run Sys2Proof.core k { u with ports := { u.ports with cmds := ws } } = .next t2 ∧
      t1.pipe = t2.pipe ∧ t1.halt = t2.halt ∧
      ((∀ w ∈ ws, ∀ i, decode w = .ok i → answersAlike i = true) →
        t2.ports.rsps = u.ports.rsps ++ t1.ports.rsps)

/-- 70_reset_and_hazards.md R296: a command of the RS unit and one of the PIPE unit give the same state in either order, the
order of their two responses apart. -/
def Obligations.RsAndPipeCommandsCommute : Prop :=
  ∀ (i j : Instr) (s : State), s.Inv → s.halt = 0#1 → isRsCommand i = true → isPipeCommand j = true →
    ∃ a b c d : State, exec i s = .next a ∧ exec j a = .next b ∧ exec j s = .next c ∧ exec i c = .next d ∧
      b.eflags = d.eflags ∧ b.halt = d.halt ∧ b.res = d.res ∧ b.rs = d.rs ∧ b.pipe = d.pipe

/-! ## GF unit -/

/-- 40_gf_arithmetic.md R100, R103: `GFMUL` stores and answers the product of the two polynomials reduced by 0x11D. -/
def Obligations.GfmulIsTheFieldProduct : Prop :=
  ∀ (s : State) (x y : Byte),
    encode (.gfmul x y) = 0x10000000#32 ||| (x.setWidth 32 <<< 8) ||| y.setWidth 32 ∧
    (s.halt = 0#1 → exec (.gfmul x y) s =
      .next { s with res := fieldProduct x y, ports := portsAfter s (okResponse (fieldProduct x y).toNat) })

/-- 40_gf_arithmetic.md R102: the laws of `gf_mul`. -/
def Obligations.FieldLaws : Prop :=
  (∀ a b : Byte, gfMul a b = gfMul b a) ∧ (∀ a : Byte, gfMul a 0#8 = 0#8 ∧ gfMul 0#8 a = 0#8) ∧
  (∀ a : Byte, gfMul a 1#8 = a ∧ gfMul 1#8 a = a) ∧ (∀ a b c : Byte, gfMul (gfMul a b) c = gfMul a (gfMul b c)) ∧
  (∀ a b c : Byte, gfMul a (b ^^^ c) = gfMul a b ^^^ gfMul a c) ∧
  (∀ a b : Byte, gfMul a b = 0#8 → a = 0#8 ∨ b = 0#8) ∧
  (∀ a : Byte, gfMul a 2#8 = (a <<< 1) ^^^ (if a.getLsbD 7 then 0x1D#8 else 0#8)) ∧
  (∀ a : Byte, a ≠ 0#8 → ∃ i, i < 255 ∧ Nat.iterate (fun p => gfMul p 2#8) i 1#8 = a) ∧
  (∀ i j, i < 255 → j < 255 → Nat.iterate (fun p => gfMul p 2#8) i 1#8 = Nat.iterate (fun p => gfMul p 2#8) j 1#8 → i = j) ∧
  Nat.iterate (fun p => gfMul p 2#8) 255 1#8 = 1#8

/-! ## RS unit -/

/-- 41_reed_solomon.md R110, R114: `RSINIT` holds the coefficients of (x − 2^0)·…·(x − 2^(d−1)) without the leading 1, and
refuses a degree outside 1 to 255. -/
def Obligations.RsinitHoldsTheDivisorPolynomial : Prop :=
  ∀ (s : State) (idx : BitVec 16), encode (.rsinit idx) = 0x20000000#32 ||| idx.setWidth 32 ∧
    (s.halt = 0#1 → 1 ≤ idx.toNat → idx.toNat ≤ 255 →
      ∃ c, divisorPolynomial idx.toNat = 1#8 :: c ∧ c.length = idx.toNat ∧
        exec (.rsinit idx) s =
          .next { s with
            rs := { s.rs with div := c, deg := BitVec.ofNat 8 idx.toNat, gv := 1#1, elen := 0#8, ebuf := [] }
            ports := portsAfter s (okResponse idx.toNat) }) ∧
    (s.halt = 0#1 → (idx.toNat < 1 ∨ 255 < idx.toNat) → exec (.rsinit idx) s = .next (errorState s 1))

/-- 41_reed_solomon.md R110: the roots of the divisor polynomial of degree d are exactly 2^0, …, 2^(d−1). -/
def Obligations.DivisorRootsAreThePowersOfTwo : Prop :=
  ∀ (d : Nat) (x : Byte), 1 ≤ d → d ≤ 255 →
    (polyEval (1#8 :: rsDivisor d) x = 0#8 ↔ ∃ i, i < d ∧ x = powerOfTwo i)

/-- 41_reed_solomon.md R112, R113: the remainder has d bytes, and the data followed by it is a multiple of the divisor: it
evaluates to 0 at each of its roots. -/
def Obligations.DataAndRemainderFormACodeword : Prop :=
  ∀ (d : Nat) (data : List Byte), 1 ≤ d → d ≤ 255 → data ≠ [] →
    (rsRemainder (rsDivisor d) data).length = d ∧
    ∀ i, i < d → polyEval (data ++ rsRemainder (rsDivisor d) data) (powerOfTwo i) = 0#8

/-- 41_reed_solomon.md R115: `RSREM`. -/
def Obligations.RsremStoresTheRemainder : Prop :=
  encode .rsrem = 0x21000000#32 ∧
  ∀ s : State, s.halt = 0#1 → s.rs.Inv →
    (s.rs.gv = 1#1 → s.rs.rlen ≠ 0#16 → exec .rsrem s =
      .next { s with
        rs := { s.rs with ebuf := rsRemainder s.rs.div s.rs.rbuf, elen := s.rs.deg }
        ports := portsAfter s (okResponse s.rs.deg.toNat) }) ∧
    (s.rs.gv = 0#1 ∨ s.rs.rlen = 0#16 → exec .rsrem s = .next (errorState s 1))

/-- 41_reed_solomon.md R116, R117: `PUTR` appends a byte unless the buffer is full; `CLRR` empties it. The capacity is a
parameter (00_scope.md R7): the clauses of `exec` have its default (assumption 6), the last one every legal value. -/
def Obligations.PutrAndClrrFillAndEmptyTheBuffer : Prop :=
  encode .clrr = 0x23000000#32 ∧
  ∀ (s : State) (b : Byte), encode (.putr b) = 0x22000000#32 ||| b.setWidth 32 ∧
    let appended : State := { s with
      rs := { s.rs with rbuf := s.rs.rbuf ++ [b], rlen := BitVec.ofNat 16 (s.rs.rlen.toNat + 1) }
      ports := portsAfter s (okResponse (s.rs.rlen.toNat + 1)) }
    (s.halt = 0#1 → s.rs.Inv → s.rs.rlen.toNat < specCapacities.rbufCap → exec (.putr b) s = .next appended) ∧
    (s.halt = 0#1 → s.rs.rlen.toNat = specCapacities.rbufCap → exec (.putr b) s = .next (errorState s 1)) ∧
    (s.halt = 0#1 → exec .clrr s =
      .next { s with rs := { s.rs with rbuf := [], rlen := 0#16 }, ports := portsAfter s (okResponse 0) }) ∧
    (∀ c : Capacities, c.Legal → s.halt = 0#1 → s.rs.InvFor (specConfig.withCapacities c) →
      execWith (specConfig.withCapacities c) (.putr b) s =
        .next (if s.rs.rlen.toNat = c.rbufCap then errorState s 1 else appended))

/-- 41_reed_solomon.md R118, R119, 60_exceptions.md R262: `GETE` and `GETG` answer the byte at an index below the length
register and refuse every other index. -/
def Obligations.GeteAndGetgReadBelowTheLength : Prop :=
  ∀ (s : State) (idx : BitVec 16), s.halt = 0#1 → s.rs.Inv →
    encode (.gete idx) = 0x24000000#32 ||| idx.setWidth 32 ∧ encode (.getg idx) = 0x25000000#32 ||| idx.setWidth 32 ∧
    (idx.toNat < s.rs.elen.toNat → ∃ b, s.rs.ebuf[idx.toNat]? = some b ∧
      exec (.gete idx) s = .next { s with ports := portsAfter s (okResponse b.toNat) }) ∧
    (s.rs.elen.toNat ≤ idx.toNat → exec (.gete idx) s = .next (errorState s 1)) ∧
    (idx.toNat < s.rs.deg.toNat → ∃ b, s.rs.div[idx.toNat]? = some b ∧
      exec (.getg idx) s = .next { s with ports := portsAfter s (okResponse b.toNat) }) ∧
    (s.rs.deg.toNat ≤ idx.toNat → exec (.getg idx) s = .next (errorState s 1))

/-! ## Segment encoder -/

/-- 42_segment_encoder.md R140: `NEWSYM` sets every register of the PIPE unit to 0 and leaves the rest. -/
def Obligations.NewsymEmptiesThePipeUnit : Prop :=
  encode .newsym = 0x30000000#32 ∧
  ∀ s : State, s.halt = 0#1 → exec .newsym s =
    .next { s with
      pipe := { stage := 0#3, ilen := 0#16, ibuf := [], nseg := 0#8, segs := [], sbits := 0#24, ecl := 0#2, ver := 0#6
                dlen := 0#12, dbuf := [], olen := 0#12, obuf := [], rem := 0#3, size := 0#8, grid := [], func := []
                mask := 0#3 }
      ports := portsAfter s (okResponse 0) }

/-- 42_segment_encoder.md R141, R142: `PUTI` appends a byte, `CLRI` empties the buffer, both at `STAGE` 0 only. The capacity is
a parameter (00_scope.md R7): the clauses of `exec` have its default (assumption 6), the last one every legal value. -/
def Obligations.PutiAndClriFillAndEmptyTheInput : Prop :=
  encode .clri = 0x32000000#32 ∧
  ∀ (s : State) (b : Byte), encode (.puti b) = 0x31000000#32 ||| b.setWidth 32 ∧
    let appended : State := { s with
      pipe := { s.pipe with ibuf := s.pipe.ibuf ++ [b], ilen := BitVec.ofNat 16 (s.pipe.ilen.toNat + 1) }
      ports := portsAfter s (okResponse (s.pipe.ilen.toNat + 1)) }
    (s.halt = 0#1 → s.pipe.stage ≠ 0#3 →
      exec (.puti b) s = .next (errorState s 1) ∧ exec .clri s = .next (errorState s 1)) ∧
    (s.halt = 0#1 → s.pipe.stage = 0#3 → s.pipe.ilen.toNat = specCapacities.ibufCap → exec (.puti b) s = .next (errorState s 2)) ∧
    (s.halt = 0#1 → s.pipe.Inv → s.pipe.stage = 0#3 → s.pipe.ilen.toNat < specCapacities.ibufCap →
      exec (.puti b) s = .next appended) ∧
    (s.halt = 0#1 → s.pipe.stage = 0#3 → exec .clri s =
      .next { s with pipe := { s.pipe with ibuf := [], ilen := 0#16 }, ports := portsAfter s (okResponse 0) }) ∧
    (∀ c : Capacities, c.Legal → s.halt = 0#1 → s.pipe.InvFor (specConfig.withCapacities c) → s.pipe.stage = 0#3 →
      execWith (specConfig.withCapacities c) (.puti b) s =
        .next (if s.pipe.ilen.toNat = c.ibufCap then errorState s 2 else appended))

/-- 42_segment_encoder.md R146: `SEG` appends the segment of the input and empties the input, or refuses. Which bits the payload
holds is `PayloadHoldsTheBitsOfTheInput`. The capacities are parameters (00_scope.md R7): the clauses of `exec` have their
defaults (assumption 6), the last one all legal values. -/
def Obligations.SegAppendsTheSegmentOfTheInput : Prop :=
  ∀ (s : State) (req : ModeRequest), s.halt = 0#1 →
    let payload := (makeSegment specConfig req s.pipe.ibuf).bits
    let appended : State := { s with
      pipe := { s.pipe with
        segs := s.pipe.segs ++ [{ mode := modeIndicator (resolveMode req s.pipe.ibuf), count := s.pipe.ilen,
                                  blen := BitVec.ofNat 24 payload.length, bits := payload }]
        nseg := BitVec.ofNat 8 (s.pipe.nseg.toNat + 1)
        sbits := BitVec.ofNat 24 (s.pipe.sbits.toNat + payload.length), ibuf := [], ilen := 0#16 }
      ports := portsAfter s (okResponse (modeIndicator (resolveMode req s.pipe.ibuf)).toNat) }
    encode (.seg req) = 0x33000000#32 ||| (requestBits req).setWidth 32 ∧
    (s.pipe.Inv →
      (s.pipe.stage ≠ 0#3 ∨ s.pipe.nseg.toNat = specCapacities.nsegMax →
        exec (.seg req) s = .next (errorState s 1)) ∧
      (s.pipe.stage = 0#3 → s.pipe.nseg.toNat ≠ specCapacities.nsegMax →
        specCapacities.sbitCap < s.pipe.sbits.toNat + payload.length → exec (.seg req) s = .next (errorState s 2)) ∧
      (s.pipe.stage = 0#3 → s.pipe.nseg.toNat ≠ specCapacities.nsegMax →
        s.pipe.sbits.toNat + payload.length ≤ specCapacities.sbitCap → exec (.seg req) s = .next appended)) ∧
    (∀ c : Capacities, c.Legal → s.pipe.InvFor (specConfig.withCapacities c) → s.pipe.stage = 0#3 →
      execWith (specConfig.withCapacities c) (.seg req) s =
        .next (if s.pipe.nseg.toNat = c.nsegMax then errorState s 1
          else if c.sbitCap < s.pipe.sbits.toNat + payload.length then errorState s 2 else appended))

/-- 42_segment_encoder.md R136, R137: which mode a segment is made in. -/
def Obligations.ModeFollowsRequestAndInput : Prop :=
  ∀ input : List Byte,
    let digits := ∀ b ∈ input, 0x30 ≤ b.toNat ∧ b.toNat ≤ 0x39
    let alnum := ∀ b ∈ input, b.toNat ∈ alphabet
    (resolveMode .auto input = .numeric ↔ digits) ∧ (resolveMode .auto input = .alphanumeric ↔ alnum ∧ ¬digits) ∧
    (resolveMode .auto input = .byte ↔ ¬alnum) ∧
    (resolveMode .numeric input = .numeric ↔ digits) ∧ (resolveMode .numeric input = .byte ↔ ¬digits) ∧
    (resolveMode .alphanumeric input = .alphanumeric ↔ alnum) ∧ (resolveMode .alphanumeric input = .byte ↔ ¬alnum) ∧
    resolveMode .byte input = .byte

/-- 42_segment_encoder.md R131, R132, R133, R138, R139: the payload of a segment: digits in groups of three as numbers of 10
bits, two left over in 7 and one in 4; alphanumeric characters in pairs worth 45·first + second in 11 bits, one left over in
6; bytes in 8 bits; and nothing else. -/
def Obligations.PayloadHoldsTheBitsOfTheInput : Prop :=
  ∀ (req : ModeRequest) (input : List Byte),
    let mode := resolveMode req input
    let bits := (makeSegment specConfig req input).bits
    let n := input.length
    let digit := digitAt input
    let char := charAt input
    bits.length = payloadLen mode n ∧
    (mode = .numeric → bits.length = 10 * (n / 3) + (if n % 3 = 2 then 7 else if n % 3 = 1 then 4 else 0) ∧
      (∀ i, i < n / 3 →
        HoldsNumber bits (10 * i) 10 (100 * digit (3 * i) + 10 * digit (3 * i + 1) + digit (3 * i + 2))) ∧
      (n % 3 = 2 → HoldsNumber bits (10 * (n / 3)) 7 (10 * digit (n - 2) + digit (n - 1))) ∧
      (n % 3 = 1 → HoldsNumber bits (10 * (n / 3)) 4 (digit (n - 1)))) ∧
    (mode = .alphanumeric → bits.length = 11 * (n / 2) + 6 * (n % 2) ∧
      (∀ i, i < n / 2 → HoldsNumber bits (11 * i) 11 (45 * char (2 * i) + char (2 * i + 1))) ∧
      (n % 2 = 1 → HoldsNumber bits (11 * (n / 2)) 6 (char (n - 1)))) ∧
    (mode = .byte → bits.length = 8 * n ∧
      ∀ (i : Nat) (b : Byte), input[i]? = some b → HoldsNumber bits (8 * i) 8 b.toNat)

/-- 42_segment_encoder.md R131, R132, R133: packing loses nothing: two inputs that make the same segment are the same. -/
def Obligations.SegmentsDetermineTheirInput : Prop :=
  ∀ (r1 r2 : ModeRequest) (a b : List Byte), makeSegment specConfig r1 a = makeSegment specConfig r2 b → a = b

/-- 42_segment_encoder.md R149: `GETSEG`. -/
def Obligations.GetsegReadsAField : Prop :=
  ∀ (s : State) (idx : BitVec 8) (k : BitVec 16), s.halt = 0#1 →
    encode (.getseg idx k) = 0x34000000#32 ||| (idx.setWidth 32 <<< 16) ||| k.setWidth 32 ∧
    (∀ sg, s.pipe.segs[idx.toNat]? = some sg → idx.toNat < s.pipe.nseg.toNat →
      (k = 0#16 → exec (.getseg idx k) s = .next { s with ports := portsAfter s (okResponse sg.mode.toNat) }) ∧
      (k = 1#16 → exec (.getseg idx k) s = .next { s with ports := portsAfter s (okResponse sg.count.toNat) }) ∧
      (k = 2#16 → exec (.getseg idx k) s = .next { s with ports := portsAfter s (okResponse sg.blen.toNat) })) ∧
    (s.pipe.nseg.toNat ≤ idx.toNat ∨ 2 < k.toNat → exec (.getseg idx k) s = .next (errorState s 1))

/-- 42_segment_encoder.md R150: `GETSB` answers the 16 payload bits from bit 16·k on, the first as bit 15, zeros past the
end. -/
def Obligations.GetsbReadsAWindow : Prop :=
  ∀ (s : State) (idx : BitVec 8) (k : BitVec 16), s.halt = 0#1 → s.pipe.Inv →
    encode (.getsb idx k) = 0x35000000#32 ||| (idx.setWidth 32 <<< 16) ||| k.setWidth 32 ∧
    (∀ sg, s.pipe.segs[idx.toNat]? = some sg → 16 * k.toNat < sg.blen.toNat →
      ∃ v, v < 2 ^ 16 ∧ exec (.getsb idx k) s = .next { s with ports := portsAfter s (okResponse v) } ∧
        ∀ j, j < 16 → v.testBit (15 - j) = (sg.bits[16 * k.toNat + j]?).getD false) ∧
    (s.pipe.nseg.toNat ≤ idx.toNat → exec (.getsb idx k) s = .next (errorState s 1)) ∧
    (∀ sg, s.pipe.segs[idx.toNat]? = some sg → sg.blen.toNat ≤ 16 * k.toNat →
      exec (.getsb idx k) s = .next (errorState s 1))

/-! ## Version selector -/

/-- 43_version_selector.md R166: `VSEL` takes the least version in range whose capacity holds the required bits, and answers
DataTooLong when none does. -/
def Obligations.VselTakesTheLeastVersionThatFits : Prop :=
  ∀ (s : State) (ecl : Level) (minv maxv : BitVec 6), s.halt = 0#1 → s.pipe.Inv →
    let fits := fun v => (s.pipe.segs.map fun sg => 4 + ccbits sg.mode v + sg.blen.toNat).sum ≤ 8 * dataCodewords specConfig v ecl
    encode (.vsel ecl minv maxv) = 0x40000000#32 ||| ((levelBits ecl).setWidth 32 <<< 22) |||
      (minv.setWidth 32 <<< 16) ||| (maxv.setWidth 32 <<< 10) ∧
    (s.pipe.stage ≠ 0#3 → exec (.vsel ecl minv maxv) s = .next (errorState s 1)) ∧
    (minv.toNat < 1 ∨ 40 < maxv.toNat ∨ maxv.toNat < minv.toNat →
      exec (.vsel ecl minv maxv) s = .next (errorState s 1)) ∧
    (s.pipe.stage = 0#3 → 1 ≤ minv.toNat → minv.toNat ≤ maxv.toNat → maxv.toNat ≤ 40 →
      (∀ v, minv.toNat ≤ v → v ≤ maxv.toNat → ¬fits v) → exec (.vsel ecl minv maxv) s = .next (errorState s 2)) ∧
    (s.pipe.stage = 0#3 → 1 ≤ minv.toNat → maxv.toNat ≤ 40 →
      ∀ v, minv.toNat ≤ v → v ≤ maxv.toNat → fits v → (∀ u, minv.toNat ≤ u → u < v → ¬fits u) →
        exec (.vsel ecl minv maxv) s =
          .next { s with
            pipe := { s.pipe with ver := BitVec.ofNat 6 v, ecl := levelBits ecl, stage := 1#3 }
            ports := portsAfter s (okResponse v) })

/-- 43_version_selector.md R165: a segment in a list that fits a version has a count that fits its length field there. -/
def Obligations.CountsFitTheirLengthFields : Prop :=
  ∀ (segs : List Segment) (sg : Segment) (v : Nat) (e : Level), 1 ≤ v → v ≤ 40 → SegmentOk specConfig sg → sg ∈ segs →
    requiredBits specConfig segs v ≤ 8 * dataCodewords specConfig v e → sg.count.toNat < 2 ^ ccbits sg.mode v

/-! ## Codeword assembler -/

/-- 44_codeword_assembler.md R181 to R184: `ASM` stores the stream, the terminator, the fill bits and the alternating pad
codewords, as many codewords as the version and level hold. -/
def Obligations.AsmStoresStreamTerminatorAndPads : Prop :=
  encode .asm = 0x50000000#32 ∧
  ∀ s : State, s.halt = 0#1 → s.pipe.Inv →
    let v := s.pipe.ver.toNat
    let n := dataCodewords specConfig v (levelOfBits s.pipe.ecl)
    let stream := s.pipe.segs.flatMap fun sg =>
      bitsOfNat 4 sg.mode.toNat ++ bitsOfNat (ccbits sg.mode v) sg.count.toNat ++ sg.bits
    let used := stream.length + terminatorLen (8 * n) stream.length
    (s.pipe.stage ≠ 1#3 → exec .asm s = .next (errorState s 1)) ∧
    (s.pipe.stage = 1#3 → ∃ d, exec .asm s =
        .next { s with
          pipe := { s.pipe with dbuf := d, dlen := BitVec.ofNat 12 n, stage := 2#3 }
          ports := portsAfter s (okResponse n) } ∧
      d.length = n ∧
      bitsOfBytes d = stream ++ List.replicate (terminatorLen (8 * n) stream.length + fillLen used) false ++
        bitsOfBytes ((List.range (n - (used + fillLen used) / 8)).map fun i => if i % 2 = 0 then 0xEC#8 else 0x11#8))

/-- 44_codeword_assembler.md R185 to R187, R189: `ILV` stores, block by block in round-robin, the data codewords (the short
blocks have one fewer) and then the ECC codewords. -/
def Obligations.IlvInterleavesDataAndEcc : Prop :=
  encode .ilv = 0x51000000#32 ∧
  ∀ s : State, s.halt = 0#1 → s.pipe.Inv →
    let v := s.pipe.ver.toNat
    let e := levelOfBits s.pipe.ecl
    (s.pipe.stage ≠ 2#3 → exec .ilv s = .next (errorState s 1)) ∧
    (s.pipe.stage = 2#3 → ∃ o, exec .ilv s =
        .next { s with
          pipe := { s.pipe with obuf := o, olen := BitVec.ofNat 12 (totalCodewords specConfig v), stage := 3#3 }
          ports := portsAfter s (okResponse (totalCodewords specConfig v)) } ∧
      o.length = totalCodewords specConfig v ∧
      (∀ i j, i < shortDataLen specConfig v e → j < numBlocks e v →
        o[i * numBlocks e v + j]? = s.pipe.dbuf[blockStart v e j + i]?) ∧
      (∀ j, shortBlocks specConfig v e ≤ j → j < numBlocks e v →
        o[shortDataLen specConfig v e * numBlocks e v + (j - shortBlocks specConfig v e)]? = s.pipe.dbuf[blockStart v e j + shortDataLen specConfig v e]?) ∧
      (∀ i j, i < eccPerBlock e v → j < numBlocks e v →
        o[dataCodewords specConfig v e + i * numBlocks e v + j]? =
          (rsRemainder (rsDivisor (eccPerBlock e v))
            ((s.pipe.dbuf.drop (blockStart v e j)).take (blockDataLen specConfig v e j)))[i]?))

/-- 44_codeword_assembler.md R190, R191, 60_exceptions.md R262: `GETD` and `GETO`. -/
def Obligations.GetdAndGetoReadBelowTheLength : Prop :=
  ∀ (s : State) (idx : BitVec 16), s.halt = 0#1 → s.pipe.Inv →
    encode (.getd idx) = 0x52000000#32 ||| idx.setWidth 32 ∧ encode (.geto idx) = 0x53000000#32 ||| idx.setWidth 32 ∧
    (idx.toNat < s.pipe.dlen.toNat → ∃ b, s.pipe.dbuf[idx.toNat]? = some b ∧
      exec (.getd idx) s = .next { s with ports := portsAfter s (okResponse b.toNat) }) ∧
    (s.pipe.dlen.toNat ≤ idx.toNat → exec (.getd idx) s = .next (errorState s 1)) ∧
    (idx.toNat < s.pipe.olen.toNat → ∃ b, s.pipe.obuf[idx.toNat]? = some b ∧
      exec (.geto idx) s = .next { s with ports := portsAfter s (okResponse b.toNat) }) ∧
    (s.pipe.olen.toNat ≤ idx.toNat → exec (.geto idx) s = .next (errorState s 1))

/-! ## Matrix builder -/

/-- 45_matrix_builder.md R210: `FNPAT`. -/
def Obligations.FnpatPlacesTheFunctionPatterns : Prop :=
  encode .fnpat = 0x60000000#32 ∧
  ∀ s : State, s.halt = 0#1 →
    (s.pipe.stage ≠ 3#3 → exec .fnpat s = .next (errorState s 1)) ∧
    (s.pipe.stage = 3#3 → exec .fnpat s =
      .next { s with
        pipe := { s.pipe with
          grid := functionGrid specConfig s.pipe.ver.toNat, func := functionMap specConfig s.pipe.ver.toNat
          size := BitVec.ofNat 8 (4 * s.pipe.ver.toNat + 17), stage := 4#3 }
        ports := portsAfter s (okResponse (4 * s.pipe.ver.toNat + 17)) })

/-- 45_matrix_builder.md R202, R203, R205 to R208: the colours of every kind of function module, and that it is one: timing
between the finders, finders with their separators, alignment, reserved format modules, the dark module, version
information by the spec's list of words; every other module is a light data module. -/
def Obligations.FunctionPatternsHaveTheirColours : Prop :=
  ∀ v, 1 ≤ v → v ≤ 40 →
    let n := 4 * v + 17
    let drawn := fun r c d => moduleAt (functionGrid specConfig v) r c = d ∧ moduleAt (functionMap specConfig v) r c = true
    (∀ i, 8 ≤ i → i < n - 8 → drawn 6 i (i % 2 == 0) ∧ drawn i 6 (i % 2 == 0)) ∧
    (∀ r c, r < 8 → c < 8 →
      let d := max (absDiff r 3) (absDiff c 3)
      drawn r c (d != 2 && d != 4) ∧ drawn r (n - 1 - c) (d != 2 && d != 4) ∧ drawn (n - 1 - r) c (d != 2 && d != 4)) ∧
    (∀ i j a b, (alignPos v)[i]? = some a → (alignPos v)[j]? = some b →
      ¬(i = 0 ∧ j = 0) → ¬(i = 0 ∧ j = (alignPos v).length - 1) → ¬(i = (alignPos v).length - 1 ∧ j = 0) →
      ∀ r c, absDiff r a ≤ 2 → absDiff c b ≤ 2 → drawn r c (max (absDiff r a) (absDiff c b) != 1)) ∧
    (∀ i, i < 15 → drawn (formatCopy1 i).1 (formatCopy1 i).2 false ∧
      drawn (formatCopy2 n i).1 (formatCopy2 n i).2 false) ∧
    drawn (n - 8) 8 true ∧
    (7 ≤ v → ∀ i, i < 18 → drawn (i / 3) (n - 11 + i % 3) ((versionCode v).testBit i) ∧
      drawn (n - 11 + i % 3) (i / 3) ((versionCode v).testBit i)) ∧
    (∀ r c, r < n → c < n → moduleAt (functionMap specConfig v) r c = false → moduleAt (functionGrid specConfig v) r c = false)

/-- 43_version_selector.md R161, 45_matrix_builder.md R208: for every version the data modules number `raw_modules(v)`. -/
def Obligations.DataModulesNumberRawModules : Prop :=
  ∀ v, 1 ≤ v → v ≤ 40 → (dataPositions (4 * v + 17) (functionMap specConfig v)).length = rawModules v

/-- 45_matrix_builder.md R211: the walk visits column pairs from the right, column 6 left out, the first pair upward and
then alternately, the right column of a pair first: the place of every module in it. -/
def Obligations.ZigzagWalksTheColumnPairs : Prop :=
  ∀ v, 1 ≤ v → v ≤ 40 →
    let n := 4 * v + 17
    (zigzag n).length = n * (n - 1) ∧
    ∀ r c, r < n → c < n → c ≠ 6 →
      let fromRight := n - 1 - (if c < 6 then c + 1 else c)
      let pair := fromRight / 2
      (zigzag n)[pair * (2 * n) + 2 * (if pair % 2 = 0 then n - 1 - r else r) + fromRight % 2]? = some (r, c)

/-- 45_matrix_builder.md R205, R225: in every grid of a state of the invariant the three corners hold finder patterns, and for
versions 2 and up the fourth holds the alignment pattern centred at (n − 7, n − 7): dark centre, light ring, dark
outline. -/
def Obligations.FinderPatternsAtThreeCorners : Prop :=
  ∀ s : State, s.Inv → 4 ≤ s.pipe.stage.toNat →
    let n := s.pipe.size.toNat
    (∀ r c, r < 7 → c < 7 →
      let d := max (absDiff r 3) (absDiff c 3)
      moduleAt s.pipe.grid r c = (d != 2) ∧ moduleAt s.pipe.grid r (n - 7 + c) = (d != 2) ∧
        moduleAt s.pipe.grid (n - 7 + r) c = (d != 2)) ∧
    (2 ≤ s.pipe.ver.toNat → ∀ r c, max (absDiff r (n - 7)) (absDiff c (n - 7)) ≤ 2 →
      moduleAt s.pipe.grid r c = (max (absDiff r (n - 7)) (absDiff c (n - 7)) != 1))

/-- 45_matrix_builder.md R212, R213: `PLACE` writes bit t of the codewords at the t-th data position and no other module. -/
def Obligations.PlaceWritesTheCodewordBits : Prop :=
  encode .place = 0x61000000#32 ∧
  ∀ s : State, s.halt = 0#1 → s.pipe.Inv →
    let n := s.pipe.size.toNat
    let pos := dataPositions n s.pipe.func
    let bits := 8 * s.pipe.olen.toNat
    (s.pipe.stage ≠ 4#3 → exec .place s = .next (errorState s 1)) ∧
    (s.pipe.stage = 4#3 → ∃ g, exec .place s =
        .next { s with
          pipe := { s.pipe with grid := g, rem := BitVec.ofNat 3 (pos.length - bits), stage := 5#3 }
          ports := portsAfter s (okResponse (pos.length - bits)) } ∧
      IsSquare n g ∧ bits ≤ pos.length ∧ pos.length ≤ bits + 7 ∧
      (∀ t r c b, t < bits → pos[t]? = some (r, c) → s.pipe.obuf[t / 8]? = some b →
        moduleAt g r c = b.getLsbD (7 - t % 8)) ∧
      (∀ r c, r < n → c < n → (r, c) ∉ pos.take bits → moduleAt g r c = moduleAt s.pipe.grid r c))

/-- 45_matrix_builder.md R206, R214, R215, R223: `MASK` takes the mask of the command, or the one automatic selection must take, inverts
the data modules the spec's table of masks names, writes the format word of the spec's table, and leaves every other
module. -/
def Obligations.MaskInvertsDataAndWritesFormat : Prop :=
  ∀ (s : State) (auto : Bool) (pattern : BitVec 3), s.halt = 0#1 → s.pipe.Inv →
    let n := s.pipe.size.toNat
    encode (.mask auto pattern) = 0x62000000#32 ||| ((BitVec.ofBool auto).setWidth 32 <<< 3) ||| pattern.setWidth 32 ∧
    (s.pipe.stage ≠ 5#3 → exec (.mask auto pattern) s = .next (errorState s 1)) ∧
    (s.pipe.stage = 5#3 → ∃ m g, exec (.mask auto pattern) s =
        .next { s with
          pipe := { s.pipe with grid := g, mask := BitVec.ofNat 3 m, stage := 6#3 }
          ports := portsAfter s (okResponse m) } ∧
      (auto = false → m = pattern.toNat) ∧ (auto = true → IsBestMask (trialPenalty s.pipe) m) ∧ m < 8 ∧ IsSquare n g ∧
      (∀ i, i < 15 →
        moduleAt g (formatCopy1 i).1 (formatCopy1 i).2 = (formatCode (levelOfBits s.pipe.ecl) m).testBit i ∧
        moduleAt g (formatCopy2 n i).1 (formatCopy2 n i).2 = (formatCode (levelOfBits s.pipe.ecl) m).testBit i) ∧
      (∀ r c, r < n → c < n → moduleAt s.pipe.func r c = false →
        moduleAt g r c = (moduleAt s.pipe.grid r c ^^ maskInverts m r c)) ∧
      (∀ r c, r < n → c < n → moduleAt s.pipe.func r c = true →
        (∀ i, i < 15 → (r, c) ≠ formatCopy1 i ∧ (r, c) ≠ formatCopy2 n i) → moduleAt g r c = moduleAt s.pipe.grid r c))

/-- 45_matrix_builder.md R222: `select_mask` takes, of the eight trial grids, the one of least penalty, the lowest number among
equals, on every grid, function map and level, whatever the tables and the penalty function of the configuration. -/
def Obligations.AutomaticMaskHasTheLeastPenalty : Prop :=
  ∀ (cfg : Configuration) (n : Nat) (g f : Grid) (e : Level),
    IsBestMask (fun k => cfg.penalty n (trial cfg n g f e k)) (selectMask cfg n g f e)

/-- 45_matrix_builder.md R218: rule (a) of the penalty on a line made of runs of alternating colour. -/
def Obligations.LongRunsAddToThePenalty : Prop :=
  ∀ (runs : List Nat) (colour : Bool), (∀ len ∈ runs, 1 ≤ len) →
    linePenaltyA (lineOfRuns colour runs) = (runs.map fun len => if 5 ≤ len then 3 + (len - 5) else 0).sum

/-- 45_matrix_builder.md R220: rule (c) on a line whose runs alternate from light (a first or last light run of length 0
where the line begins or ends dark), the border added to its two ends: every dark k, light k, dark 3k, light k, dark k
counts once for each side with at least 4k light, if the other has at least k. -/
def Obligations.FinderLikeRunsAreCounted : Prop :=
  ∀ (first last : Nat) (inner : List Nat), inner.length % 2 = 1 → (∀ len ∈ inner, 1 ≤ len) →
    let line := lineOfRuns false (first :: inner ++ [last])
    linePenaltyC line = finderLikeIn ((first + line.length) :: inner ++ [last + line.length])

/-- 45_matrix_builder.md R221: rule (d) adds 10·k for the least k with (45 − 5k)% ≤ dark/total ≤ (55 + 5k)%. -/
def Obligations.BalancePenaltyIsTheLeastStep : Prop :=
  ∀ dark total : Nat, 1 ≤ total → dark ≤ total →
    let within := fun k : Nat =>
      (45 - 5 * (k : Int)) * total ≤ 100 * dark ∧ (100 * (dark : Int)) ≤ (55 + 5 * k) * total
    ∃ k, penaltyD dark total = 10 * k ∧ within k ∧ ∀ j, within j → k ≤ j

/-- 45_matrix_builder.md R224: `GETM`. -/
def Obligations.GetmReadsOneModule : Prop :=
  ∀ (s : State) (row col : Byte), s.halt = 0#1 →
    encode (.getm row col) = 0x63000000#32 ||| (row.setWidth 32 <<< 8) ||| col.setWidth 32 ∧
    (∀ modules b, row.toNat < s.pipe.size.toNat → col.toNat < s.pipe.size.toNat →
      s.pipe.grid[row.toNat]? = some modules → modules[col.toNat]? = some b →
      exec (.getm row col) s = .next { s with ports := portsAfter s (okResponse b.toNat) }) ∧
    (s.pipe.size.toNat ≤ row.toNat ∨ s.pipe.size.toNat ≤ col.toNat →
      exec (.getm row col) s = .next (errorState s 1))

/-! ## Whole encode -/

/-- 46_encode_and_system.md R241: `ENCODE` commits the symbol of the least version that holds the input as one segment of
automatic mode, or refuses and changes nothing but `EFLAGS`. The functions named are those of R138, R183, R187, R208, R211,
R215 and R222. -/
def Obligations.EncodeFinishesTheSymbol : Prop :=
  ∀ (s : State) (ecl : Level) (minv maxv : BitVec 6) (auto : Bool) (pattern : BitVec 3), s.halt = 0#1 → s.Inv →
    let sg := makeSegment specConfig .auto s.pipe.ibuf
    let fits := fun v => 4 + ccbits sg.mode v + sg.blen.toNat ≤ 8 * dataCodewords specConfig v ecl
    let run := exec (.encode ecl minv maxv auto pattern) s
    encode (.encode ecl minv maxv auto pattern) = 0x70000000#32 ||| ((levelBits ecl).setWidth 32 <<< 22) |||
      (minv.setWidth 32 <<< 16) ||| (maxv.setWidth 32 <<< 10) ||| ((BitVec.ofBool auto).setWidth 32 <<< 3) |||
      pattern.setWidth 32 ∧
    (s.pipe.stage ≠ 0#3 ∨ s.pipe.nseg ≠ 0#8 → run = .next (errorState s 1)) ∧
    (minv.toNat < 1 ∨ 40 < maxv.toNat ∨ maxv.toNat < minv.toNat → run = .next (errorState s 1)) ∧
    (s.pipe.stage = 0#3 → s.pipe.nseg = 0#8 → 1 ≤ minv.toNat → minv.toNat ≤ maxv.toNat → maxv.toNat ≤ 40 →
      (∀ v, minv.toNat ≤ v → v ≤ maxv.toNat → ¬fits v) → run = .next (errorState s 2)) ∧
    (s.pipe.stage = 0#3 → s.pipe.nseg = 0#8 → 1 ≤ minv.toNat → maxv.toNat ≤ 40 →
      ∀ v, minv.toNat ≤ v → v ≤ maxv.toNat → fits v → (∀ u, minv.toNat ≤ u → u < v → ¬fits u) →
        ∃ d, assemble specConfig [sg] v ecl = some d ∧
          let n := 4 * v + 17
          let o := interleave specConfig d v ecl
          let f := functionMap specConfig v
          let pos := dataPositions n f
          let g := placeBits (functionGrid specConfig v) pos (bitsOfBytes o)
          let m := if auto then selectMask specConfig n g f ecl else pattern.toNat
          m < 8 ∧ 8 * o.length ≤ pos.length ∧ pos.length ≤ 8 * o.length + 7 ∧
          run = .next { s with
              pipe := { stage := 6#3, ilen := 0#16, ibuf := [], nseg := 1#8, segs := [sg], sbits := sg.blen
                        ecl := levelBits ecl, ver := BitVec.ofNat 6 v
                        dlen := BitVec.ofNat 12 d.length, dbuf := d, olen := BitVec.ofNat 12 o.length, obuf := o
                        rem := BitVec.ofNat 3 (pos.length - 8 * o.length), size := BitVec.ofNat 8 n
                        grid := trial specConfig n g f ecl m, func := f, mask := BitVec.ofNat 3 m }
              ports := portsAfter s (okResponse (v * 256 + m)) })

/-- 46_encode_and_system.md R242: `ENCODE` leaves the state of the seven commands, all of which succeed; where it fails for
the bounds or with DataTooLong, `VSEL` fails with the same status after `SEG AUTO`. -/
def Obligations.EncodeEqualsTheSevenCommands : Prop :=
  ∀ (s t : State) (ecl : Level) (minv maxv : BitVec 6) (auto : Bool) (pattern : BitVec 3),
    s.Inv → s.halt = 0#1 → s.pipe.stage = 0#3 → s.pipe.nseg = 0#8 → exec (.encode ecl minv maxv auto pattern) s = .next t →
    (t.pipe.stage = 6#3 →
      ∃ u ws, runCommands [.seg .auto, .vsel ecl minv maxv, .asm, .ilv, .fnpat, .place, .mask auto pattern] s = .next u ∧
        u.eflags = t.eflags ∧ u.halt = t.halt ∧ u.res = t.res ∧ u.rs = t.rs ∧ u.pipe = t.pipe ∧
        u.ports = { cmds := s.ports.cmds, rsps := s.ports.rsps ++ ws } ∧ ws.length = 7 ∧ ∀ w ∈ ws, statusOf w = 0) ∧
    (t.pipe.stage ≠ 6#3 →
      ∃ u code, (code = 1 ∨ code = 2) ∧ t = errorState s code ∧ exec (.seg .auto) s = .next u ∧
        u.pipe.nseg = 1#8 ∧ u.pipe.ilen = 0#16 ∧ exec (.vsel ecl minv maxv) u = .next (errorState u code))

/-! ## The whole penalty, and cores of other capacities -/

/-- 45_matrix_builder.md R217, R219: the penalty of a grid is rule (a) over all rows and columns, 3 for every 2 × 2 block of one
colour, 40 for every finder-like run pattern of a row or column, and rule (d) of its dark modules. -/
def Obligations.PenaltyAddsTheFourRules : Prop :=
  ∀ (n : Nat) (g : Grid),
    let row := fun r => (List.range n).map fun c => moduleAt g r c
    let column := fun c => (List.range n).map fun r => moduleAt g r c
    let blocks := (Finset.range (n - 1) ×ˢ Finset.range (n - 1)).filter fun p =>
      moduleAt g p.1 (p.2 + 1) = moduleAt g p.1 p.2 ∧ moduleAt g (p.1 + 1) p.2 = moduleAt g p.1 p.2 ∧
        moduleAt g (p.1 + 1) (p.2 + 1) = moduleAt g p.1 p.2
    let dark := (Finset.range n ×ˢ Finset.range n).filter fun p => moduleAt g p.1 p.2 = true
    specConfig.penalty n g =
      (Finset.range n).sum (fun i => linePenaltyA (row i) + linePenaltyA (column i)) + 3 * blocks.card +
        40 * (Finset.range n).sum (fun i => linePenaltyC (row i) + linePenaltyC (column i)) + penaltyD dark.card (n * n)

/-- 00_scope.md R7, R19, 10_state.md R48: the core of every legal choice of the four capacities keeps the invariant, from reset
on, and never halts itself; and its input buffer and segment store overflow only on what no version holds. -/
def Obligations.LegalCapacitiesKeepTheInvariant : Prop :=
  ∀ c : Capacities, c.Legal →
    let cfg := specConfig.withCapacities c
    State.reset.InvFor cfg ∧
    (∀ s t : State, s.InvFor cfg → stepWith cfg s = .next t → t.InvFor cfg ∧ (s.halt = 0#1 → t.halt = 0#1)) ∧
    (∀ (m : Mode) (count v : Nat) (e : Level), 1 ≤ v → v ≤ 40 → c.ibufCap < count →
      8 * dataCodewords cfg v e < 4 + ccbits (modeIndicator m) v + payloadLen m count) ∧
    (∀ (segs : List Segment) (v : Nat) (e : Level), 1 ≤ v → v ≤ 40 →
      c.sbitCap < (segs.map fun sg => sg.blen.toNat).sum → 8 * dataCodewords cfg v e < requiredBits cfg segs v)
end

