-- ==== Sys2Proof/Laws/Buffers.lean ====
section
/-! SUPPORT. Buffers whose length register is the number of items they hold: their readable part is the whole list, and a
read below the length is the item. Grids given module by module read back as given. -/

namespace Sys2Proof.Machine

/-- A buffer that holds exactly the items its length register counts is read whole. -/
theorem firstItems_exact {α : Type} (f : Nat → α) (b : List α) {n : Nat} (h : b.length = n) : firstItems f b n = b := by
  simp [firstItems, h]

theorem firstItems_length {α : Type} (f : Nat → α) (b : List α) (n : Nat) : (firstItems f b n).length = n := by
  simp [firstItems]
  omega

theorem bytesOf_exact {b : List Byte} {n : Nat} (h : b.length = n) : bytesOf b n = b := firstItems_exact _ b h

theorem byteAt_of_getElem? {b : List Byte} {i : Nat} {x : Byte} (h : b[i]? = some x) : byteAt b i = x := by
  simp [byteAt, List.getD, h]

theorem segmentAt_of_getElem? {p : PipeUnit} {i : Nat} {sg : Segment} (h : p.segs[i]? = some sg) :
    segmentAt p i = sg := by
  simp [segmentAt, List.getD, h]

theorem segmentsOf_exact {p : PipeUnit} (h : p.segs.length = p.nseg.toNat) : segmentsOf p = p.segs :=
  firstItems_exact _ p.segs h

theorem inputOf_exact {p : PipeUnit} (h : p.ibuf.length = p.ilen.toNat) : inputOf p = p.ibuf := bytesOf_exact h

theorem payloadOf_exact {sg : Segment} (h : sg.bits.length = sg.blen.toNat) : payloadOf sg = sg.bits :=
  firstItems_exact _ sg.bits h

theorem payloadBit_of_getElem? {bs : Bits} {i : Nat} {b : Bool} (h : bs[i]? = some b) : payloadBit bs i = b := by
  simp [payloadBit, List.getD, h]

/-- A grid given module by module. -/
theorem moduleAt_gridOf {n : Nat} (f : Nat → Nat → Bool) {r c : Nat} (hr : r < n) (hc : c < n) :
    moduleAt (gridOf n f) r c = f r c := by
  simp [moduleAt, gridOf, hr, hc, List.getD]

theorem gridOf_length (n : Nat) (f : Nat → Nat → Bool) : (gridOf n f).length = n := by simp [gridOf]

theorem gridOf_line_length {n : Nat} {f : Nat → Nat → Bool} {line : List Bool} (h : line ∈ gridOf n f) :
    line.length = n := by
  simp only [gridOf, List.mem_map] at h
  obtain ⟨r, -, rfl⟩ := h
  simp

/-- The n × n part of a grid has its modules. -/
theorem moduleAt_gridPart {n : Nat} (g : Grid) {r c : Nat} (hr : r < n) (hc : c < n) :
    moduleAt (gridPart n g) r c = moduleAt g r c := moduleAt_gridOf _ hr hc

/-- Writing one module leaves every other one. -/
theorem moduleAt_setModule_ne (g : Grid) {r c r' c' : Nat} (b : Bool) (h : ¬(r' = r ∧ c' = c)) :
    moduleAt (setModule g r c b) r' c' = moduleAt g r' c' := by
  unfold moduleAt setModule
  by_cases hr : r' = r
  · subst hr
    have hc : c' ≠ c := fun e => h ⟨rfl, e⟩
    cases hg : g[r']? with
    | none => simp [hg]
    | some line => simp [hg, List.getD, List.getElem?_set_ne (Ne.symm hc)]
  · simp [Ne.symm hr]

/-- Writing one module of a square grid and reading it back. -/
theorem moduleAt_setModule_eq {n : Nat} (f : Grid) {r c : Nat} (b : Bool) (hl : f.length = n)
    (hw : ∀ line ∈ f, line.length = n) (hr : r < n) (hc : c < n) : moduleAt (setModule f r c b) r c = b := by
  have hr' : r < f.length := by omega
  have hc' : c < (f[r]).length := by rw [hw _ (List.getElem_mem hr')]; exact hc
  simp [moduleAt, setModule, List.getElem?_eq_getElem hr', List.getD, List.getElem?_set_self hc']

end Sys2Proof.Machine
end

