-- ==== Sys2Proof/Laws/State.lean ====
section
/-! SUPPORT. What each shared update of the state does to each field, true by rfl. -/

namespace Sys2Proof.Machine

@[simp] theorem putResponse_eflags (w : Word) (s : State) : (putResponse w s).eflags = s.eflags := rfl
@[simp] theorem putResponse_halt (w : Word) (s : State) : (putResponse w s).halt = s.halt := rfl
@[simp] theorem putResponse_res (w : Word) (s : State) : (putResponse w s).res = s.res := rfl
@[simp] theorem putResponse_rs (w : Word) (s : State) : (putResponse w s).rs = s.rs := rfl
@[simp] theorem putResponse_pipe (w : Word) (s : State) : (putResponse w s).pipe = s.pipe := rfl

@[simp] theorem respond_eflags (v : BitVec 24) (s : State) : (respond v s).eflags = s.eflags := rfl
@[simp] theorem respond_halt (v : BitVec 24) (s : State) : (respond v s).halt = s.halt := rfl
@[simp] theorem respond_res (v : BitVec 24) (s : State) : (respond v s).res = s.res := rfl
@[simp] theorem respond_rs (v : BitVec 24) (s : State) : (respond v s).rs = s.rs := rfl
@[simp] theorem respond_pipe (v : BitVec 24) (s : State) : (respond v s).pipe = s.pipe := rfl

@[simp] theorem answerHalted_eflags (s : State) : (answerHalted s).eflags = s.eflags := rfl
@[simp] theorem answerHalted_halt (s : State) : (answerHalted s).halt = s.halt := rfl
@[simp] theorem answerHalted_res (s : State) : (answerHalted s).res = s.res := rfl
@[simp] theorem answerHalted_rs (s : State) : (answerHalted s).rs = s.rs := rfl
@[simp] theorem answerHalted_pipe (s : State) : (answerHalted s).pipe = s.pipe := rfl

@[simp] theorem withCommands_eflags (s : State) (ws : List Word) : (s.withCommands ws).eflags = s.eflags := rfl
@[simp] theorem withCommands_halt (s : State) (ws : List Word) : (s.withCommands ws).halt = s.halt := rfl
@[simp] theorem withCommands_res (s : State) (ws : List Word) : (s.withCommands ws).res = s.res := rfl
@[simp] theorem withCommands_rs (s : State) (ws : List Word) : (s.withCommands ws).rs = s.rs := rfl
@[simp] theorem withCommands_pipe (s : State) (ws : List Word) : (s.withCommands ws).pipe = s.pipe := rfl

@[simp] theorem putResponse_cmds (w : Word) (s : State) : (putResponse w s).ports.cmds = s.ports.cmds := rfl
@[simp] theorem putResponse_rsps (w : Word) (s : State) : (putResponse w s).ports.rsps = s.ports.rsps ++ [w] := rfl
@[simp] theorem respond_cmds (v : BitVec 24) (s : State) : (respond v s).ports.cmds = s.ports.cmds := rfl
@[simp] theorem respond_rsps (v : BitVec 24) (s : State) : (respond v s).ports.rsps = s.ports.rsps ++ [okWord v] := rfl
@[simp] theorem answerHalted_cmds (s : State) : (answerHalted s).ports.cmds = s.ports.cmds := rfl
@[simp] theorem answerHalted_rsps (s : State) : (answerHalted s).ports.rsps = s.ports.rsps ++ [errWord .internalInvariant] := rfl
@[simp] theorem withCommands_cmds (s : State) (ws : List Word) : (s.withCommands ws).ports.cmds = ws := rfl
@[simp] theorem withCommands_rsps (s : State) (ws : List Word) : (s.withCommands ws).ports.rsps = s.ports.rsps := rfl

@[simp] theorem raise_eflags (k : ErrKind) (s : State) : (raise k s).eflags = setFlag k s.eflags := rfl
@[simp] theorem raise_halt (k : ErrKind) (s : State) : (raise k s).halt = haltAfter k s.halt := rfl
@[simp] theorem raise_res (k : ErrKind) (s : State) : (raise k s).res = s.res := rfl
@[simp] theorem raise_rs (k : ErrKind) (s : State) : (raise k s).rs = s.rs := rfl
@[simp] theorem raise_pipe (k : ErrKind) (s : State) : (raise k s).pipe = s.pipe := rfl
@[simp] theorem raise_cmds (k : ErrKind) (s : State) : (raise k s).ports.cmds = s.ports.cmds := rfl
@[simp] theorem raise_rsps (k : ErrKind) (s : State) : (raise k s).ports.rsps = s.ports.rsps ++ [errWord k] := rfl

@[simp] theorem hardReset_eflags (s : State) : (hardReset s).eflags = 0#4 := rfl
@[simp] theorem hardReset_halt (s : State) : (hardReset s).halt = 0#1 := rfl
@[simp] theorem hardReset_res (s : State) : (hardReset s).res = 0#8 := rfl
@[simp] theorem hardReset_rs (s : State) : (hardReset s).rs = RsUnit.reset := rfl
@[simp] theorem hardReset_pipe (s : State) : (hardReset s).pipe = PipeUnit.reset := rfl
@[simp] theorem hardReset_ports (s : State) : (hardReset s).ports = s.ports := rfl

end Sys2Proof.Machine
end

