-- ==== Sys2Proof/Laws/Ops.lean ====
section
/-! SUPPORT. What each shared operation can do, said once: the gate on `HALT`, the outcome of a command, the kinds of error. -/

namespace Sys2Proof.Machine

/-- A running core runs the body. -/
@[simp] theorem whenRunning_running {body : State → State} {s : State} (h : s.halt = 0#1) :
    whenRunning body s = body s := by
  simp [whenRunning, h]

/-- A halted core answers and changes nothing. -/
@[simp] theorem whenRunning_halted {body : State → State} {s : State} (h : s.halt = 1#1) :
    whenRunning body s = answerHalted s := by
  simp [whenRunning, h]

/-- `HALT` is 0 or 1. -/
theorem halt_cases (s : State) : s.halt = 0#1 ∨ s.halt = 1#1 := by
  have h : ∀ b : BitVec 1, b = 0#1 ∨ b = 1#1 := by decide
  exact h s.halt

/-- The gate has two outcomes. -/
theorem whenRunning_cases (body : State → State) (s : State) :
    (s.halt = 0#1 ∧ whenRunning body s = body s) ∨ (s.halt = 1#1 ∧ whenRunning body s = answerHalted s) := by
  rcases halt_cases s with h | h
  · exact .inl ⟨h, whenRunning_running h⟩
  · exact .inr ⟨h, whenRunning_halted h⟩

@[simp] theorem ended_next (s t : State) : ended s = .next t ↔ s = t := by simp [ended]

/-- A word that is no command, on a running core. -/
theorem illegalWord_running {s : State} (h : s.halt = 0#1) : illegalWord s = raise .illegalCommand s :=
  whenRunning_running h

/-- A word that is no command, on a halted core. -/
theorem illegalWord_halted {s : State} (h : s.halt = 1#1) : illegalWord s = answerHalted s :=
  whenRunning_halted h

/-- A flag once set stays set through an error. -/
theorem setFlag_keeps (k : ErrKind) (e : BitVec 4) : e &&& setFlag k e = e := by
  ext i hi
  simp [setFlag]
  intro h
  exact .inl h

/-- `HALT` changes only by InternalInvariant. -/
theorem haltAfter_cases (k : ErrKind) (h : BitVec 1) :
    haltAfter k h = h ∨ (k = .internalInvariant ∧ haltAfter k h = 1#1) := by
  cases k <;> simp [haltAfter]

/-- One step on a waiting core. -/
theorem step_idle {s : State} (h : s.ports.cmds = []) : step s = .next s := by
  unfold step
  split
  · rfl
  · simp_all

/-- One step on a command word. -/
theorem step_command {s : State} {w : Word} {rest : List Word} {i : Instr} (h : s.ports.cmds = w :: rest)
    (hd : decode w = .ok i) : step s = exec i (s.withCommands rest) := by
  simp [step, h, execWord, hd]

/-- One step on a word that is no command. -/
theorem step_illegal {s : State} {w : Word} {rest : List Word} {e : DecodeError} (h : s.ports.cmds = w :: rest)
    (hd : decode w = .error e) : step s = .next (illegalWord (s.withCommands rest)) := by
  simp [step, h, execWord, hd, ended]

end Sys2Proof.Machine
end

