-- ==== Sys2Proof/Laws/Commands.lean ====
section
/-! SUPPORT. What `exec` is of every command on a running core: the body of the command, and nothing added. `RESET` and `GETR`
need no running core. -/

namespace Sys2Proof.Machine

theorem exec_reset (s : State) : exec .reset s = .next (respond 0 (hardReset s)) := rfl

theorem exec_getr (sel : BitVec 16) (s : State) : exec (.getr sel) s = .next (getr sel s) := rfl

theorem exec_gfmul_running (x y : Byte) {s : State} (h : s.halt = 0#1) :
    exec (.gfmul x y) s = .next (gfmul x y s) := by
  show ended (whenRunning (gfmul x y) s) = _
  rw [whenRunning_running h]
  rfl

theorem exec_rsinit_running (idx : BitVec 16) {s : State} (h : s.halt = 0#1) :
    exec (.rsinit idx) s = .next (rsinit idx s) := by
  show ended (whenRunning (rsinit idx) s) = _
  rw [whenRunning_running h]
  rfl

theorem exec_rsrem_running {s : State} (h : s.halt = 0#1) :
    exec .rsrem s = .next (rsrem s) := by
  show ended (whenRunning (rsrem) s) = _
  rw [whenRunning_running h]
  rfl

theorem exec_putr_running (b : Byte) {s : State} (h : s.halt = 0#1) :
    exec (.putr b) s = .next (putr specConfig b s) := by
  show ended (whenRunning (putr specConfig b) s) = _
  rw [whenRunning_running h]
  rfl

theorem exec_clrr_running {s : State} (h : s.halt = 0#1) :
    exec .clrr s = .next (clrr s) := by
  show ended (whenRunning (clrr) s) = _
  rw [whenRunning_running h]
  rfl

theorem exec_gete_running (idx : BitVec 16) {s : State} (h : s.halt = 0#1) :
    exec (.gete idx) s = .next (gete idx s) := by
  show ended (whenRunning (gete idx) s) = _
  rw [whenRunning_running h]
  rfl

theorem exec_getg_running (idx : BitVec 16) {s : State} (h : s.halt = 0#1) :
    exec (.getg idx) s = .next (getg idx s) := by
  show ended (whenRunning (getg idx) s) = _
  rw [whenRunning_running h]
  rfl

theorem exec_newsym_running {s : State} (h : s.halt = 0#1) :
    exec .newsym s = .next (newsym s) := by
  show ended (whenRunning (newsym) s) = _
  rw [whenRunning_running h]
  rfl

theorem exec_puti_running (b : Byte) {s : State} (h : s.halt = 0#1) :
    exec (.puti b) s = .next (puti specConfig b s) := by
  show ended (whenRunning (puti specConfig b) s) = _
  rw [whenRunning_running h]
  rfl

theorem exec_clri_running {s : State} (h : s.halt = 0#1) :
    exec .clri s = .next (clri s) := by
  show ended (whenRunning (clri) s) = _
  rw [whenRunning_running h]
  rfl

theorem exec_seg_running (req : ModeRequest) {s : State} (h : s.halt = 0#1) :
    exec (.seg req) s = .next (seg specConfig req s) := by
  show ended (whenRunning (seg specConfig req) s) = _
  rw [whenRunning_running h]
  rfl

theorem exec_getseg_running (idx : BitVec 8) (k : BitVec 16) {s : State} (h : s.halt = 0#1) :
    exec (.getseg idx k) s = .next (getseg idx k s) := by
  show ended (whenRunning (getseg idx k) s) = _
  rw [whenRunning_running h]
  rfl

theorem exec_getsb_running (idx : BitVec 8) (k : BitVec 16) {s : State} (h : s.halt = 0#1) :
    exec (.getsb idx k) s = .next (getsb idx k s) := by
  show ended (whenRunning (getsb idx k) s) = _
  rw [whenRunning_running h]
  rfl

theorem exec_vsel_running (ecl : Level) (minv maxv : BitVec 6) {s : State} (h : s.halt = 0#1) :
    exec (.vsel ecl minv maxv) s = .next (vsel specConfig ecl minv maxv s) := by
  show ended (whenRunning (vsel specConfig ecl minv maxv) s) = _
  rw [whenRunning_running h]
  rfl

theorem exec_asm_running {s : State} (h : s.halt = 0#1) :
    exec .asm s = .next (asm specConfig s) := by
  show ended (whenRunning (asm specConfig) s) = _
  rw [whenRunning_running h]
  rfl

theorem exec_ilv_running {s : State} (h : s.halt = 0#1) :
    exec .ilv s = .next (ilv specConfig s) := by
  show ended (whenRunning (ilv specConfig) s) = _
  rw [whenRunning_running h]
  rfl

theorem exec_getd_running (idx : BitVec 16) {s : State} (h : s.halt = 0#1) :
    exec (.getd idx) s = .next (getd idx s) := by
  show ended (whenRunning (getd idx) s) = _
  rw [whenRunning_running h]
  rfl

theorem exec_geto_running (idx : BitVec 16) {s : State} (h : s.halt = 0#1) :
    exec (.geto idx) s = .next (geto idx s) := by
  show ended (whenRunning (geto idx) s) = _
  rw [whenRunning_running h]
  rfl

theorem exec_fnpat_running {s : State} (h : s.halt = 0#1) :
    exec .fnpat s = .next (fnpat specConfig s) := by
  show ended (whenRunning (fnpat specConfig) s) = _
  rw [whenRunning_running h]
  rfl

theorem exec_place_running {s : State} (h : s.halt = 0#1) :
    exec .place s = .next (place s) := by
  show ended (whenRunning (place) s) = _
  rw [whenRunning_running h]
  rfl

theorem exec_mask_running (auto : Bool) (pattern : BitVec 3) {s : State} (h : s.halt = 0#1) :
    exec (.mask auto pattern) s = .next (mask specConfig auto pattern s) := by
  show ended (whenRunning (mask specConfig auto pattern) s) = _
  rw [whenRunning_running h]
  rfl

theorem exec_getm_running (row col : Byte) {s : State} (h : s.halt = 0#1) :
    exec (.getm row col) s = .next (getm row col s) := by
  show ended (whenRunning (getm row col) s) = _
  rw [whenRunning_running h]
  rfl

theorem exec_encode_running (ecl : Level) (minv maxv : BitVec 6) (auto : Bool) (pattern : BitVec 3)
    {s : State} (h : s.halt = 0#1) :
    exec (.encode ecl minv maxv auto pattern) s = .next (encodeSymbol specConfig ecl minv maxv auto pattern s) := by
  show ended (whenRunning (encodeSymbol specConfig ecl minv maxv auto pattern) s) = _
  rw [whenRunning_running h]
  rfl

end Sys2Proof.Machine
end

