-- ==== Sys2Proof/Laws/Configured.lean ====
section
/-! SUPPORT. The parameters of the spec's configuration by name, and that `exec` and `step` are `execWith` and `stepWith` at that
configuration. -/

namespace Sys2Proof.Machine

@[simp] theorem specCapacities_rbufCap : specCapacities.rbufCap = 4096 := rfl
@[simp] theorem specCapacities_ibufCap : specCapacities.ibufCap = 8192 := rfl
@[simp] theorem specCapacities_nsegMax : specCapacities.nsegMax = 8 := rfl
@[simp] theorem specCapacities_sbitCap : specCapacities.sbitCap = 65536 := rfl

@[simp] theorem specConfig_capacities : specConfig.capacities = specCapacities := rfl
@[simp] theorem specConfig_modeIndicator : specConfig.modeIndicator = modeIndicator := rfl
@[simp] theorem specConfig_ccbits : specConfig.ccbits = ccbits := rfl
@[simp] theorem specConfig_eccPerBlock : specConfig.eccPerBlock = eccPerBlock := rfl
@[simp] theorem specConfig_numBlocks : specConfig.numBlocks = numBlocks := rfl
@[simp] theorem specConfig_rawModules : specConfig.rawModules = rawModules := rfl
@[simp] theorem specConfig_alignPos : specConfig.alignPos = alignPos := rfl
@[simp] theorem specConfig_formatWord : specConfig.formatWord = formatWord := rfl
@[simp] theorem specConfig_versionWord : specConfig.versionWord = versionWord := rfl
@[simp] theorem specConfig_maskFn : specConfig.maskFn = maskFn := rfl
@[simp] theorem specConfig_penalty : specConfig.penalty = penalty := rfl

@[simp] theorem withCapacities_capacities (cfg : Configuration) (c : Capacities) :
    (cfg.withCapacities c).capacities = c := rfl

/-- The default capacities meet the constraints of 00_scope.md R7. -/
theorem specCapacities_legal : specCapacities.Legal := by
  constructor <;> decide

/-- With its own capacities a configuration is what it was. -/
@[simp] theorem specConfig_withCapacities : specConfig.withCapacities specCapacities = specConfig := rfl

/-- `exec` is the machine of the spec's configuration. -/
theorem execWith_specConfig (i : Instr) (s : State) : execWith specConfig i s = exec i s := by
  cases i <;> rfl

/-- `step` is the step of the spec's configuration. -/
theorem stepWith_specConfig (s : State) : stepWith specConfig s = step s := by
  unfold stepWith step execWord
  cases s.ports.cmds with
  | nil => rfl
  | cons w rest =>
    cases h : decode w with
    | ok i => simp only [h, execWith_specConfig]
    | error _ => simp only [h]

/-- The capacities are no part of the tables: what a core of other capacities reads of a table is what it was. -/
theorem withCapacities_tables (cfg : Configuration) (c : Capacities) :
    requiredBits (cfg.withCapacities c) = requiredBits cfg ∧ capacityBits (cfg.withCapacities c) = capacityBits cfg ∧
    makeSegment (cfg.withCapacities c) = makeSegment cfg ∧ functionMap (cfg.withCapacities c) = functionMap cfg :=
  ⟨rfl, rfl, rfl, rfl⟩

end Sys2Proof.Machine
end

