-- ==== Sys2Proof/Laws/Encoding.lean ====
section
/-! SUPPORT. What the encoding formats of 30_encoding.md R71 hold, said once: the opcode of a word of each format, its
must-be-zero bits, and every field of it. -/

namespace Sys2Proof

theorem opField_encodeF0 (op : BitVec 8) :
    opField (encodeF0 op) = op := by
  apply BitVec.eq_of_getLsbD_eq
  intro i hi
  interval_cases i <;> simp [opField, encodeF0, fieldAt]

theorem maskedBits_encodeF0 (op : BitVec 8) :
    encodeF0 op &&& 0xFFFFFFFF#32 = fieldAt 24 op := by
  apply BitVec.eq_of_getLsbD_eq
  intro i hi
  interval_cases i <;> simp [encodeF0, fieldAt]

theorem opField_encodeFB (op b : BitVec 8) :
    opField (encodeFB op b) = op := by
  apply BitVec.eq_of_getLsbD_eq
  intro i hi
  interval_cases i <;> simp [opField, encodeFB, fieldAt]

theorem maskedBits_encodeFB (op b : BitVec 8) :
    encodeFB op b &&& 0xFFFFFF00#32 = fieldAt 24 op := by
  apply BitVec.eq_of_getLsbD_eq
  intro i hi
  interval_cases i <;> simp [encodeFB, fieldAt]

theorem opField_encodeFXY (op x y : BitVec 8) :
    opField (encodeFXY op x y) = op := by
  apply BitVec.eq_of_getLsbD_eq
  intro i hi
  interval_cases i <;> simp [opField, encodeFXY, fieldAt]

theorem maskedBits_encodeFXY (op x y : BitVec 8) :
    encodeFXY op x y &&& 0xFFFF0000#32 = fieldAt 24 op := by
  apply BitVec.eq_of_getLsbD_eq
  intro i hi
  interval_cases i <;> simp [encodeFXY, fieldAt]

theorem opField_encodeFI (op : BitVec 8) (idx : BitVec 16) :
    opField (encodeFI op idx) = op := by
  apply BitVec.eq_of_getLsbD_eq
  intro i hi
  interval_cases i <;> simp [opField, encodeFI, fieldAt]

theorem maskedBits_encodeFI (op : BitVec 8) (idx : BitVec 16) :
    encodeFI op idx &&& 0xFFFF0000#32 = fieldAt 24 op := by
  apply BitVec.eq_of_getLsbD_eq
  intro i hi
  interval_cases i <;> simp [encodeFI, fieldAt]

theorem opField_encodeFS (op s : BitVec 8) (k : BitVec 16) :
    opField (encodeFS op s k) = op := by
  apply BitVec.eq_of_getLsbD_eq
  intro i hi
  interval_cases i <;> simp [opField, encodeFS, fieldAt]

theorem maskedBits_encodeFS (op s : BitVec 8) (k : BitVec 16) :
    encodeFS op s k &&& 0xFF000000#32 = fieldAt 24 op := by
  apply BitVec.eq_of_getLsbD_eq
  intro i hi
  interval_cases i <;> simp [encodeFS, fieldAt]

theorem opField_encodeFM (op : BitVec 8) (mode : BitVec 2) :
    opField (encodeFM op mode) = op := by
  apply BitVec.eq_of_getLsbD_eq
  intro i hi
  interval_cases i <;> simp [opField, encodeFM, fieldAt]

theorem maskedBits_encodeFM (op : BitVec 8) (mode : BitVec 2) :
    encodeFM op mode &&& 0xFFFFFFFC#32 = fieldAt 24 op := by
  apply BitVec.eq_of_getLsbD_eq
  intro i hi
  interval_cases i <;> simp [encodeFM, fieldAt]

theorem opField_encodeFK (op : BitVec 8) (auto : Bool) (pattern : BitVec 3) :
    opField (encodeFK op auto pattern) = op := by
  apply BitVec.eq_of_getLsbD_eq
  intro i hi
  interval_cases i <;> simp [opField, encodeFK, fieldAt]

theorem maskedBits_encodeFK (op : BitVec 8) (auto : Bool) (pattern : BitVec 3) :
    encodeFK op auto pattern &&& 0xFFFFFFF0#32 = fieldAt 24 op := by
  apply BitVec.eq_of_getLsbD_eq
  intro i hi
  interval_cases i <;> simp [encodeFK, fieldAt]

theorem opField_encodeFV (op : BitVec 8) (ecl : BitVec 2) (minv maxv : BitVec 6) (auto : Bool) (pattern : BitVec 3) :
    opField (encodeFV op ecl minv maxv auto pattern) = op := by
  apply BitVec.eq_of_getLsbD_eq
  intro i hi
  interval_cases i <;> simp [opField, encodeFV, fieldAt]

theorem maskedBits_encodeFV (op : BitVec 8) (ecl : BitVec 2) (minv maxv : BitVec 6) (auto : Bool) (pattern : BitVec 3) :
    encodeFV op ecl minv maxv auto pattern &&& 0xFF0003F0#32 = fieldAt 24 op := by
  apply BitVec.eq_of_getLsbD_eq
  intro i hi
  interval_cases i <;> simp [encodeFV, fieldAt]

theorem byteLow_encodeFB (op b : BitVec 8) :
    byteLow (encodeFB op b) = b := by
  apply BitVec.eq_of_getLsbD_eq
  intro i hi
  interval_cases i <;> simp [byteLow, encodeFB, fieldAt]

theorem byteMid_encodeFXY (op x y : BitVec 8) :
    byteMid (encodeFXY op x y) = x := by
  apply BitVec.eq_of_getLsbD_eq
  intro i hi
  interval_cases i <;> simp [byteMid, encodeFXY, fieldAt]

theorem byteLow_encodeFXY (op x y : BitVec 8) :
    byteLow (encodeFXY op x y) = y := by
  apply BitVec.eq_of_getLsbD_eq
  intro i hi
  interval_cases i <;> simp [byteLow, encodeFXY, fieldAt]

theorem idxField_encodeFI (op : BitVec 8) (idx : BitVec 16) :
    idxField (encodeFI op idx) = idx := by
  apply BitVec.eq_of_getLsbD_eq
  intro i hi
  interval_cases i <;> simp [idxField, encodeFI, fieldAt]

theorem segField_encodeFS (op s : BitVec 8) (k : BitVec 16) :
    segField (encodeFS op s k) = s := by
  apply BitVec.eq_of_getLsbD_eq
  intro i hi
  interval_cases i <;> simp [segField, encodeFS, fieldAt]

theorem idxField_encodeFS (op s : BitVec 8) (k : BitVec 16) :
    idxField (encodeFS op s k) = k := by
  apply BitVec.eq_of_getLsbD_eq
  intro i hi
  interval_cases i <;> simp [idxField, encodeFS, fieldAt]

theorem modeField_encodeFM (op : BitVec 8) (mode : BitVec 2) :
    modeField (encodeFM op mode) = mode := by
  apply BitVec.eq_of_getLsbD_eq
  intro i hi
  interval_cases i <;> simp [modeField, encodeFM, fieldAt]

theorem maskField_encodeFK (op : BitVec 8) (auto : Bool) (pattern : BitVec 3) :
    maskField (encodeFK op auto pattern) = pattern := by
  apply BitVec.eq_of_getLsbD_eq
  intro i hi
  interval_cases i <;> simp [maskField, encodeFK, fieldAt]

theorem eclField_encodeFV (op : BitVec 8) (ecl : BitVec 2) (minv maxv : BitVec 6) (auto : Bool) (pattern : BitVec 3) :
    eclField (encodeFV op ecl minv maxv auto pattern) = ecl := by
  apply BitVec.eq_of_getLsbD_eq
  intro i hi
  interval_cases i <;> simp [eclField, encodeFV, fieldAt]

theorem minvField_encodeFV (op : BitVec 8) (ecl : BitVec 2) (minv maxv : BitVec 6) (auto : Bool) (pattern : BitVec 3) :
    minvField (encodeFV op ecl minv maxv auto pattern) = minv := by
  apply BitVec.eq_of_getLsbD_eq
  intro i hi
  interval_cases i <;> simp [minvField, encodeFV, fieldAt]

theorem maxvField_encodeFV (op : BitVec 8) (ecl : BitVec 2) (minv maxv : BitVec 6) (auto : Bool) (pattern : BitVec 3) :
    maxvField (encodeFV op ecl minv maxv auto pattern) = maxv := by
  apply BitVec.eq_of_getLsbD_eq
  intro i hi
  interval_cases i <;> simp [maxvField, encodeFV, fieldAt]

theorem maskField_encodeFV (op : BitVec 8) (ecl : BitVec 2) (minv maxv : BitVec 6) (auto : Bool) (pattern : BitVec 3) :
    maskField (encodeFV op ecl minv maxv auto pattern) = pattern := by
  apply BitVec.eq_of_getLsbD_eq
  intro i hi
  interval_cases i <;> simp [maskField, encodeFV, fieldAt]

theorem autoField_encodeFK (op : BitVec 8) (auto : Bool) (pattern : BitVec 3) :
    autoField (encodeFK op auto pattern) = auto := by
  simp [autoField, encodeFK, fieldAt]

theorem autoField_encodeFV (op : BitVec 8) (ecl : BitVec 2) (minv maxv : BitVec 6) (auto : Bool) (pattern : BitVec 3) :
    autoField (encodeFV op ecl minv maxv auto pattern) = auto := by
  simp [autoField, encodeFV, fieldAt]

/-- `VSEL` has zeros where `ENCODE` has `auto` and `mask`. -/
theorem maskedBits_encodeFV_vsel (op : BitVec 8) (ecl : BitVec 2) (minv maxv : BitVec 6) :
    encodeFV op ecl minv maxv false 0#3 &&& 0xFF0003FF#32 = fieldAt 24 op := by
  apply BitVec.eq_of_getLsbD_eq
  intro i hi
  interval_cases i <;> simp [encodeFV, fieldAt]

theorem levelOfBits_levelBits (e : Level) : levelOfBits (levelBits e) = e := by cases e <;> decide

theorem levelBits_levelOfBits (b : BitVec 2) : levelBits (levelOfBits b) = b := by
  have h : ∀ b : BitVec 2, levelBits (levelOfBits b) = b := by decide
  exact h b

theorem requestOfBits_requestBits (r : ModeRequest) : requestOfBits (requestBits r) = r := by cases r <;> decide

theorem requestBits_requestOfBits (b : BitVec 2) : requestBits (requestOfBits b) = b := by
  have h : ∀ b : BitVec 2, requestBits (requestOfBits b) = b := by decide
  exact h b

end Sys2Proof
end

