-- ==== Sys2Proof/Laws/Matrix.lean ====
section
/-! SUPPORT. What the shared operations of the matrix builder do, said once: the function grid and map and a trial grid module
by module, and placement at a list of positions. -/

namespace Sys2Proof.Machine

theorem gridOf_square (n : Nat) (f : Nat → Nat → Bool) : IsSquare n (gridOf n f) :=
  ⟨gridOf_length n f, fun _ h => gridOf_line_length h⟩

theorem moduleAt_functionMap (cfg : Configuration) {v r c : Nat} (hr : r < Config.sideLength v)
    (hc : c < Config.sideLength v) :
    moduleAt (functionMap cfg v) r c = (functionAt cfg v r c).isSome := moduleAt_gridOf _ hr hc

theorem moduleAt_functionGrid (cfg : Configuration) {v r c : Nat} (hr : r < Config.sideLength v)
    (hc : c < Config.sideLength v) :
    moduleAt (functionGrid cfg v) r c = (functionAt cfg v r c).getD false := moduleAt_gridOf _ hr hc

/-- `FNPAT` gives every function module its colour, the format modules among them. -/
theorem functionGrid_keepsPatterns (cfg : Configuration) (v : Nat) : KeepsPatterns cfg v (functionGrid cfg v) := by
  intro r c d hr hc hd _
  simp [moduleAt_functionGrid cfg hr hc, hd]

theorem trial_square (cfg : Configuration) (n : Nat) (g f : Grid) (e : Level) (k : Nat) :
    IsSquare n (trial cfg n g f e k) := gridOf_square _ _

theorem moduleAt_trial (cfg : Configuration) {n r c : Nat} (g f : Grid) (e : Level) (k : Nat) (hr : r < n) (hc : c < n) :
    moduleAt (trial cfg n g f e k) r c = trialModule cfg n g f e k r c := moduleAt_gridOf _ hr hc

/-- A format module of a trial grid holds its bit of the format word. -/
theorem moduleAt_trial_format (cfg : Configuration) {n r c i : Nat} (g f : Grid) (e : Level) (k : Nat) (hr : r < n)
    (hc : c < n) (hi : formatBitAt n r c = some i) : moduleAt (trial cfg n g f e k) r c = (cfg.formatWord e k).testBit i := by
  simp [moduleAt_trial cfg g f e k hr hc, trialModule, hi]

/-- A data module of a trial grid is inverted where the mask says. -/
theorem moduleAt_trial_data (cfg : Configuration) {n r c : Nat} {g f : Grid} (e : Level) (k : Nat) (hr : r < n)
    (hc : c < n) (hi : formatBitAt n r c = none) (hf : moduleAt f r c = false) :
    moduleAt (trial cfg n g f e k) r c = (moduleAt g r c ^^ cfg.maskFn k r c) := by
  simp [moduleAt_trial cfg g f e k hr hc, trialModule, hi, hf]

/-- Every other function module of a trial grid is kept. -/
theorem moduleAt_trial_function (cfg : Configuration) {n r c : Nat} {g f : Grid} (e : Level) (k : Nat) (hr : r < n)
    (hc : c < n) (hi : formatBitAt n r c = none) (hf : moduleAt f r c = true) :
    moduleAt (trial cfg n g f e k) r c = moduleAt g r c := by
  simp [moduleAt_trial cfg g f e k hr hc, trialModule, hi, hf]

/-- Writing a module keeps a grid square. -/
theorem setModule_square {n : Nat} {g : Grid} (r c : Nat) (b : Bool) (h : IsSquare n g) :
    IsSquare n (setModule g r c b) := by
  refine ⟨by simpa [setModule] using h.1, fun line hl => ?_⟩
  obtain ⟨i, hi, rfl⟩ := List.mem_iff_getElem.1 hl
  have hi' : i < g.length := by simpa [setModule] using hi
  have := h.2 _ (List.getElem_mem hi')
  simp only [setModule, List.getElem_modify]
  split <;> simp [this]

/-- Placement keeps a grid square. -/
theorem placeBits_square {n : Nat} (pos : List (Nat × Nat)) :
    ∀ {g : Grid} (bits : Bits), IsSquare n g → IsSquare n (placeBits g pos bits) := by
  induction pos with
  | nil => intro g bits h; simpa [placeBits] using h
  | cons p pos ih =>
    intro g bits h
    cases bits with
    | nil => simpa [placeBits] using h
    | cons b bits => exact ih bits (setModule_square p.1 p.2 b h)

/-- Placement writes no module but the positions it has bits for. -/
theorem moduleAt_placeBits_other {r c : Nat} (pos : List (Nat × Nat)) :
    ∀ (g : Grid) (bits : Bits), (r, c) ∉ pos.take bits.length → moduleAt (placeBits g pos bits) r c = moduleAt g r c := by
  induction pos with
  | nil => intro g bits _; simp [placeBits]
  | cons p pos ih =>
    intro g bits h
    cases bits with
    | nil => simp [placeBits]
    | cons b bits =>
      simp only [List.length_cons, List.take_succ_cons, List.mem_cons, not_or] at h
      refine (ih (setModule g p.1 p.2 b) bits h.2).trans (moduleAt_setModule_ne g b ?_)
      rintro ⟨rfl, rfl⟩
      exact h.1 rfl

/-- Placement writes bit t at the t-th position, where the positions are distinct and lie in the grid. -/
theorem moduleAt_placeBits_at {n : Nat} (pos : List (Nat × Nat)) :
    ∀ {g : Grid} (bits : Bits) {t r c : Nat} {b : Bool}, IsSquare n g → pos.Nodup →
      (∀ p ∈ pos, p.1 < n ∧ p.2 < n) → pos[t]? = some (r, c) → bits[t]? = some b →
      moduleAt (placeBits g pos bits) r c = b := by
  induction pos with
  | nil => intro g bits t r c b _ _ _ ht; simp at ht
  | cons p pos ih =>
    intro g bits t r c b hg hn hp ht hb
    cases bits with
    | nil => simp at hb
    | cons b0 bits =>
      obtain ⟨hp0, hn⟩ := List.nodup_cons.1 hn
      have hg' := setModule_square p.1 p.2 b0 hg
      cases t with
      | succ t =>
        exact ih bits hg' hn (fun q hq => hp q (List.mem_cons_of_mem _ hq)) (by simpa using ht) (by simpa using hb)
      | zero =>
        simp only [List.getElem?_cons_zero, Option.some.injEq] at ht hb
        subst ht hb
        refine (moduleAt_placeBits_other pos _ bits fun h => hp0 (List.mem_of_mem_take h)).trans ?_
        obtain ⟨h1, h2⟩ := hp (r, c) List.mem_cons_self
        exact moduleAt_setModule_eq g b0 hg.1 hg.2 h1 h2

end Sys2Proof.Machine
end

