-- ==== Sys2Proof/Laws/PerInstr.lean ====
section
/-! SUPPORT. The family `OpcodeByte`: the top byte of a command's word is its opcode, and the opcode map has a row for it whose
must-be-zero bits the word leaves zero (30_encoding.md R71, R75). One lemma per constructor. -/

namespace Sys2Proof.Laws.OpcodeByte

open Sys2Proof

/-- The word of `i` carries the opcode of `i`, and the row of that opcode has `i`'s word among its words. -/
def Statement (i : Instr) : Prop :=
  opField (encode i) = opcodeOf i ∧ ∃ r, rowOf (opcodeOf i) = some r ∧ encode i &&& r.mask = r.pat

theorem reset : Statement .reset := ⟨by decide, _, rfl, by decide⟩

theorem getr (idx : BitVec 16) : Statement (.getr idx) :=
  ⟨opField_encodeFI _ _, _, rfl,
    (maskedBits_encodeFI _ _).trans (by decide : fieldAt 24 0x02#8 = 0x02000000#32)⟩

theorem gfmul (x : Byte) (y : Byte) : Statement (.gfmul x y) :=
  ⟨opField_encodeFXY _ _ _, _, rfl,
    (maskedBits_encodeFXY _ _ _).trans (by decide : fieldAt 24 0x10#8 = 0x10000000#32)⟩

theorem rsinit (idx : BitVec 16) : Statement (.rsinit idx) :=
  ⟨opField_encodeFI _ _, _, rfl,
    (maskedBits_encodeFI _ _).trans (by decide : fieldAt 24 0x20#8 = 0x20000000#32)⟩

theorem rsrem : Statement .rsrem := ⟨by decide, _, rfl, by decide⟩

theorem putr (b : Byte) : Statement (.putr b) :=
  ⟨opField_encodeFB _ _, _, rfl,
    (maskedBits_encodeFB _ _).trans (by decide : fieldAt 24 0x22#8 = 0x22000000#32)⟩

theorem clrr : Statement .clrr := ⟨by decide, _, rfl, by decide⟩

theorem gete (idx : BitVec 16) : Statement (.gete idx) :=
  ⟨opField_encodeFI _ _, _, rfl,
    (maskedBits_encodeFI _ _).trans (by decide : fieldAt 24 0x24#8 = 0x24000000#32)⟩

theorem getg (idx : BitVec 16) : Statement (.getg idx) :=
  ⟨opField_encodeFI _ _, _, rfl,
    (maskedBits_encodeFI _ _).trans (by decide : fieldAt 24 0x25#8 = 0x25000000#32)⟩

theorem newsym : Statement .newsym := ⟨by decide, _, rfl, by decide⟩

theorem puti (b : Byte) : Statement (.puti b) :=
  ⟨opField_encodeFB _ _, _, rfl,
    (maskedBits_encodeFB _ _).trans (by decide : fieldAt 24 0x31#8 = 0x31000000#32)⟩

theorem clri : Statement .clri := ⟨by decide, _, rfl, by decide⟩

theorem seg (req : ModeRequest) : Statement (.seg req) :=
  ⟨opField_encodeFM _ _, _, rfl,
    (maskedBits_encodeFM _ _).trans (by decide : fieldAt 24 0x33#8 = 0x33000000#32)⟩

theorem getseg (s : BitVec 8) (k : BitVec 16) : Statement (.getseg s k) :=
  ⟨opField_encodeFS _ _ _, _, rfl,
    (maskedBits_encodeFS _ _ _).trans (by decide : fieldAt 24 0x34#8 = 0x34000000#32)⟩

theorem getsb (s : BitVec 8) (k : BitVec 16) : Statement (.getsb s k) :=
  ⟨opField_encodeFS _ _ _, _, rfl,
    (maskedBits_encodeFS _ _ _).trans (by decide : fieldAt 24 0x35#8 = 0x35000000#32)⟩

theorem vsel (ecl : Level) (minv : BitVec 6) (maxv : BitVec 6) : Statement (.vsel ecl minv maxv) :=
  ⟨opField_encodeFV _ _ _ _ _ _, _, rfl,
    (maskedBits_encodeFV_vsel _ _ _ _).trans (by decide : fieldAt 24 0x40#8 = 0x40000000#32)⟩

theorem asm : Statement .asm := ⟨by decide, _, rfl, by decide⟩

theorem ilv : Statement .ilv := ⟨by decide, _, rfl, by decide⟩

theorem getd (idx : BitVec 16) : Statement (.getd idx) :=
  ⟨opField_encodeFI _ _, _, rfl,
    (maskedBits_encodeFI _ _).trans (by decide : fieldAt 24 0x52#8 = 0x52000000#32)⟩

theorem geto (idx : BitVec 16) : Statement (.geto idx) :=
  ⟨opField_encodeFI _ _, _, rfl,
    (maskedBits_encodeFI _ _).trans (by decide : fieldAt 24 0x53#8 = 0x53000000#32)⟩

theorem fnpat : Statement .fnpat := ⟨by decide, _, rfl, by decide⟩

theorem place : Statement .place := ⟨by decide, _, rfl, by decide⟩

theorem mask (auto : Bool) (pattern : BitVec 3) : Statement (.mask auto pattern) :=
  ⟨opField_encodeFK _ _ _, _, rfl,
    (maskedBits_encodeFK _ _ _).trans (by decide : fieldAt 24 0x62#8 = 0x62000000#32)⟩

theorem getm (x : Byte) (y : Byte) : Statement (.getm x y) :=
  ⟨opField_encodeFXY _ _ _, _, rfl,
    (maskedBits_encodeFXY _ _ _).trans (by decide : fieldAt 24 0x63#8 = 0x63000000#32)⟩

theorem encode (ecl : Level) (minv : BitVec 6) (maxv : BitVec 6) (auto : Bool) (pattern : BitVec 3) : Statement (.encode ecl minv maxv auto pattern) :=
  ⟨opField_encodeFV _ _ _ _ _ _, _, rfl,
    (maskedBits_encodeFV _ _ _ _ _ _).trans (by decide : fieldAt 24 0x70#8 = 0x70000000#32)⟩

end Sys2Proof.Laws.OpcodeByte
end

