-- ==== Sys2Proof/Machine/Assembler.lean ====
section
/-! DEFINITION. The assembler syntax and the pseudo-commands (30_encoding.md R79, R80): how the spec writes a command, and
the commands a line of a program stands for. No step uses this file: it is how a host's program becomes command words. -/

namespace Sys2Proof.Machine

/-- How a level is written (30_encoding.md R79). -/
def levelText : Level → String
  | .low => "L"
  | .medium => "M"
  | .quartile => "Q"
  | .high => "H"

/-- How the mode of `SEG` is written (30_encoding.md R79). -/
def requestText : ModeRequest → String
  | .auto => "AUTO"
  | .numeric => "NUM"
  | .alphanumeric => "ALNUM"
  | .byte => "BYTE"

/-- A number, in decimal (30_encoding.md R79). -/
def numberText {k : Nat} (v : BitVec k) : String := Nat.repr v.toNat

/-- How the `auto`, `mask` pair is written (30_encoding.md R79). -/
def maskText (auto : Bool) (pattern : BitVec 3) : String := if auto then "AUTO" else "M" ++ numberText pattern

/-- The mnemonic of a command (30_encoding.md R75). -/
def mnemonicText : Instr → String
  | .reset => "RESET"
  | .getr _ => "GETR"
  | .gfmul _ _ => "GFMUL"
  | .rsinit _ => "RSINIT"
  | .rsrem => "RSREM"
  | .putr _ => "PUTR"
  | .clrr => "CLRR"
  | .gete _ => "GETE"
  | .getg _ => "GETG"
  | .newsym => "NEWSYM"
  | .puti _ => "PUTI"
  | .clri => "CLRI"
  | .seg _ => "SEG"
  | .getseg _ _ => "GETSEG"
  | .getsb _ _ => "GETSB"
  | .vsel _ _ _ => "VSEL"
  | .asm => "ASM"
  | .ilv => "ILV"
  | .getd _ => "GETD"
  | .geto _ => "GETO"
  | .fnpat => "FNPAT"
  | .place => "PLACE"
  | .mask _ _ => "MASK"
  | .getm _ _ => "GETM"
  | .encode _ _ _ _ _ => "ENCODE"

/-- The operands of a command as written, in the order of 30_encoding.md R75. -/
def operandTexts : Instr → List String
  | .reset | .rsrem | .clrr | .newsym | .clri | .asm | .ilv | .fnpat | .place => []
  | .putr b | .puti b => [numberText b]
  | .gfmul x y | .getm x y => [numberText x, numberText y]
  | .getr idx | .rsinit idx | .gete idx | .getg idx | .getd idx | .geto idx => [numberText idx]
  | .getseg s k | .getsb s k => [numberText s, numberText k]
  | .seg req => [requestText req]
  | .vsel ecl minv maxv => [levelText ecl, numberText minv, numberText maxv]
  | .mask auto pattern => [maskText auto pattern]
  | .encode ecl minv maxv auto pattern =>
      [levelText ecl, numberText minv, numberText maxv, maskText auto pattern]

/-- A command as the spec writes it: mnemonic, then the operands separated by commas (30_encoding.md R79). -/
def commandText (i : Instr) : String :=
  match operandTexts i with
  | [] => mnemonicText i
  | o :: os => os.foldl (fun t x => t ++ ", " ++ x) (mnemonicText i ++ " " ++ o)

/-- A line of a program: a command or a pseudo-command (30_encoding.md R79, R80). -/
inductive AsmLine where
  /-- A command. -/
  | command (i : Instr)
  /-- `PUTIS "text"`. -/
  | putis (text : List Char)
  /-- `PUTRS b0, b1, …`. -/
  | putrs (bytes : List Byte)
  /-- `VSEL ecl`. -/
  | vselDefault (ecl : Level)
  /-- `ENCODE ecl`. -/
  | encodeDefault (ecl : Level)
  /-- `ENCODE ecl, minv, maxv`. -/
  | encodeBounds (ecl : Level) (minv maxv : BitVec 6)
  /-- `BUILD`. -/
  | build
  deriving DecidableEq, Repr

/-- A line that may be written: `PUTIS` holds characters 0x20 to 0x7E only, a command is one (30_encoding.md R80). -/
def AsmLine.legal : AsmLine → Bool
  | .command i => i.wellFormed
  | .putis text => text.all fun c => 0x20 ≤ c.toNat && c.toNat ≤ 0x7E
  | .putrs _ | .vselDefault _ | .encodeDefault _ | .encodeBounds _ _ _ | .build => true

/-- The commands a line stands for (30_encoding.md R80). -/
def AsmLine.commands : AsmLine → List Instr
  | .command i => [i]
  | .putis text => text.map fun c => .puti (BitVec.ofNat 8 c.toNat)
  | .putrs bytes => bytes.map .putr
  | .vselDefault ecl => [.vsel ecl 1#6 40#6]
  | .encodeDefault ecl => [.encode ecl 1#6 40#6 true 0#3]
  | .encodeBounds ecl minv maxv => [.encode ecl minv maxv true 0#3]
  | .build => [.asm, .ilv, .fnpat, .place, .mask true 0#3]

/-- The command words of a program, in order (00_scope.md R12). -/
def programWords (lines : List AsmLine) : List Word := (lines.flatMap AsmLine.commands).map encode

end Sys2Proof.Machine
end

