-- ==== Sys2Proof/Tests/Slice0.lean ====
section
/-! SUPPORT. The model's own tests: the checks of WellFormed, the words of the spec, and one or two single steps of every
command; and for every statement with hypotheses a witness that meets them. Every expected value is the spec's: the rule or vector of 95_test_vectors.md is named beside it. -/

namespace Sys2Proof.Tests

open Sys2Proof.Machine Sys2Proof.Reference

-- One theorem after another: many short evaluations at once would take a thread, and its stack, each.
set_option Elab.async false

/-! ## Helpers -/

/-- The state after, where there is one. -/
def after (o : Host.Outcome State Fault Refusal) : Option State :=
  match o with
  | .next t => some t
  | .fault _ => none
  | .refused _ => none

/-- The response a step gave. -/
def answer (o : Host.Outcome State Fault Refusal) : Option Word := (after o).bind fun t => t.ports.rsps.getLast?

/-- The reset state with a changed PIPE unit. -/
def withPipe (p : PipeUnit) : State := { State.reset with pipe := p }

/-- The reset state with a changed RS unit. -/
def withRs (u : RsUnit) : State := { State.reset with rs := u }

/-- The ASCII codes of a text. -/
def ascii (text : List Char) : List Byte := text.map fun c => BitVec.ofNat 8 c.toNat

/-- The reset state with a text in `IBUF`. -/
def withInput (text : List Char) : State :=
  withPipe { PipeUnit.reset with ibuf := ascii text, ilen := BitVec.ofNat 16 text.length }

/-- "HELLO WORLD". -/
def hello : List Char := ['H', 'E', 'L', 'L', 'O', ' ', 'W', 'O', 'R', 'L', 'D']

/-- "01234567". -/
def digits : List Char := ['0', '1', '2', '3', '4', '5', '6', '7']

/-- The PIPE unit with the given segments. -/
def withSegments (segs : List Segment) : PipeUnit :=
  { PipeUnit.reset with
    segs := segs, nseg := BitVec.ofNat 8 segs.length, sbits := BitVec.ofNat 24 (segs.map fun sg => sg.blen.toNat).sum }

/-- The segment of "HELLO WORLD" (V9). -/
def helloSegment : Segment := makeSegment specConfig .auto (ascii hello)

/-- The segment of "01234567" (V9). -/
def digitSegment : Segment := makeSegment specConfig .auto (ascii digits)

/-- Version 1 chosen at a level for the given segments. -/
def chosen (ecl : BitVec 2) (segs : List Segment) : PipeUnit :=
  { withSegments segs with ver := 1, ecl := ecl, stage := 1 }

/-- A row of a grid from the number the vectors write it as. -/
def rowOfNumber (n w : Nat) : List Bool := (List.range n).map fun c => w.testBit (n - 1 - c)

/-- A grid from the numbers of its rows. -/
def gridOfNumbers (n : Nat) (ws : List Nat) : Grid := ws.map (rowOfNumber n)

/-- The data codewords of "HELLO WORLD" at 1-Q (V14). -/
def helloData : List Byte :=
  [0x20, 0x5B, 0x0B, 0x78, 0xD1, 0x72, 0xDC, 0x4D, 0x43, 0x40, 0xEC, 0x11, 0xEC]

/-- The ECC codewords of "HELLO WORLD" at 1-Q (V6, V16). -/
def helloEcc : List Byte :=
  [0xA8, 0x48, 0x16, 0x52, 0xD9, 0x36, 0x9C, 0x00, 0x2E, 0x0F, 0xB4, 0x7A, 0x10]

/-- The PIPE unit of program P2 after `ILV`. -/
def helloCodewords : PipeUnit :=
  { chosen 2 [helloSegment] with
    dbuf := helloData, dlen := 13, obuf := helloData ++ helloEcc, olen := 26, stage := 3 }

/-- The grid of `FNPAT` at version 1 (V18). -/
def grid18 : Grid := gridOfNumbers 21
  ([0x1FC07F, 0x104041, 0x17405D, 0x17405D, 0x17405D, 0x104041, 0x1FD57F, 0x000000, 0x004000, 0x000000, 0x004000] ++
   [0x000000, 0x004000, 0x001000, 0x1FC000, 0x104000, 0x174000, 0x174000, 0x174000, 0x104000, 0x1FC000])

/-- The function map of version 1 (V18). -/
def func18 : Grid := gridOfNumbers 21
  ([0x1FF0FF, 0x1FF0FF, 0x1FF0FF, 0x1FF0FF, 0x1FF0FF, 0x1FF0FF, 0x1FFFFF, 0x1FF0FF, 0x1FF0FF, 0x004000, 0x004000] ++
   [0x004000, 0x004000, 0x1FF000, 0x1FF000, 0x1FF000, 0x1FF000, 0x1FF000, 0x1FF000, 0x1FF000, 0x1FF000])

/-- The grid of "HELLO WORLD" at 1-Q after `PLACE` (V20). -/
def placed20 : Grid := gridOfNumbers 21
  ([0x1FCD7F, 0x104841, 0x17465D, 0x174A5D, 0x17415D, 0x104E41, 0x1FD57F, 0x000A00, 0x004400, 0x02B4BB, 0x13F90D] ++
   [0x070C04, 0x044220, 0x0010EF, 0x1FC179, 0x1041C2, 0x17412A, 0x174008, 0x1747BC, 0x104D21, 0x1FC7B4])

/-- The finished grid of "HELLO WORLD" at 1-Q (V20). -/
def final20 : Grid := gridOfNumbers 21
  ([0x1FD87F, 0x105241, 0x17535D, 0x17505D, 0x17545D, 0x104441, 0x1FD57F, 0x001000, 0x0D615F, 0x081E11, 0x06EC58] ++
   [0x0DA6AE, 0x115775, 0x001A45, 0x1FD42C, 0x104B68, 0x17547F, 0x174AA2, 0x1752E9, 0x10578B, 0x1FC2E1])

/-- The PIPE unit of program P2 after `FNPAT`. -/
def helloPatterns : PipeUnit := { helloCodewords with grid := grid18, func := func18, size := 21, stage := 4 }

/-- The PIPE unit of program P2 after `PLACE`. -/
def helloPlaced : PipeUnit := { helloPatterns with grid := placed20, stage := 5 }

/-- The PIPE unit of program P2 after `MASK`. -/
def helloFinished : PipeUnit := { helloPlaced with grid := final20, stage := 6 }

/-- A halted core with the symbol of P2 (V29). -/
def haltedState : State := { withPipe helloFinished with halt := 1, eflags := 0b0100#4 }

/-- The RS unit of V7 before its second `RSREM`: degree 2, data 12 34 56. -/
def rsLoaded : RsUnit :=
  { RsUnit.reset with gv := 1, deg := 2, div := [0x03, 0x02], rbuf := [0x12, 0x34, 0x56], rlen := 3 }

/-- The RS unit of V7 after its second `RSREM`. -/
def rsDone : RsUnit := { rsLoaded with ebuf := [0x98, 0xE8], elen := 2 }

/-- The word `w` as the next step's command. -/
def stepOn (s : State) (w : Word) : Host.Outcome State Fault Refusal := step (s.withCommands [w])

/-! ## WellFormed: one ill-formed term for each check -/

theorem test_wellFormed_mask_auto_with_mask : (Instr.mask true 3#3).wellFormed = false := by decide
theorem test_wellFormed_encode_auto_with_mask : (Instr.encode .low 1#6 40#6 true 1#3).wellFormed = false := by decide
theorem test_wellFormed_mask_auto : (Instr.mask true 0#3).wellFormed = true := by decide

/-! ## Decoding: words written out from 30_encoding.md R71, R75, op in bits 31:24 -/

theorem test_decode_reset : decode 0b00000001_00000000_00000000_00000000#32 = .ok .reset := by decide
theorem test_decode_getr : decode 0b00000010_00000000_00000000_00001011#32 = .ok (.getr 11#16) := by decide
theorem test_decode_gfmul : decode 0b00010000_00000000_01010011_11001010#32 = .ok (.gfmul 0x53#8 0xCA#8) := by decide
theorem test_decode_rsinit : decode 0b00100000_00000000_00000001_00001010#32 = .ok (.rsinit 266#16) := by decide
theorem test_decode_rsrem : decode 0b00100001_00000000_00000000_00000000#32 = .ok .rsrem := by decide
theorem test_decode_putr : decode 0b00100010_00000000_00000000_11101100#32 = .ok (.putr 0xEC#8) := by decide
theorem test_decode_clrr : decode 0b00100011_00000000_00000000_00000000#32 = .ok .clrr := by decide
theorem test_decode_gete : decode 0b00100100_00000000_00000000_00000001#32 = .ok (.gete 1#16) := by decide
theorem test_decode_getg : decode 0b00100101_00000000_00000000_00001001#32 = .ok (.getg 9#16) := by decide
theorem test_decode_newsym : decode 0b00110000_00000000_00000000_00000000#32 = .ok .newsym := by decide
theorem test_decode_puti : decode 0b00110001_00000000_00000000_01001000#32 = .ok (.puti 0x48#8) := by decide
theorem test_decode_clri : decode 0b00110010_00000000_00000000_00000000#32 = .ok .clri := by decide
theorem test_decode_seg : decode 0b00110011_00000000_00000000_00000010#32 = .ok (.seg .alphanumeric) := by decide
theorem test_decode_getseg : decode 0b00110100_11111111_00000000_00000010#32 = .ok (.getseg 255#8 2#16) := by decide
theorem test_decode_getsb : decode 0b00110101_00000001_00000001_00000000#32 = .ok (.getsb 1#8 256#16) := by decide
theorem test_decode_vsel : decode 0b01000000_10000001_10100000_00000000#32 = .ok (.vsel .quartile 1#6 40#6) := by decide
theorem test_decode_asm : decode 0b01010000_00000000_00000000_00000000#32 = .ok .asm := by decide
theorem test_decode_ilv : decode 0b01010001_00000000_00000000_00000000#32 = .ok .ilv := by decide
theorem test_decode_getd : decode 0b01010010_00000000_00000000_00000001#32 = .ok (.getd 1#16) := by decide
theorem test_decode_geto : decode 0b01010011_00000000_00000000_00001101#32 = .ok (.geto 13#16) := by decide
theorem test_decode_fnpat : decode 0b01100000_00000000_00000000_00000000#32 = .ok .fnpat := by decide
theorem test_decode_place : decode 0b01100001_00000000_00000000_00000000#32 = .ok .place := by decide
theorem test_decode_mask : decode 0b01100010_00000000_00000000_00000011#32 = .ok (.mask false 3#3) := by decide
theorem test_decode_getm : decode 0b01100011_00000000_00010101_00000111#32 = .ok (.getm 21#8 7#8) := by decide
theorem test_decode_encode :
    decode 0b01110000_01000001_10100000_00001000#32 = .ok (.encode .medium 1#6 40#6 true 0#3) := by decide

/-- The illegal words of V28, by the item of 30_encoding.md R76 that refuses each. -/
theorem test_decode_illegal_words :
    decode 0x00000000#32 = .error .unknownOpcode ∧ decode 0xFFFFFFFF#32 = .error .unknownOpcode ∧
    decode 0x03000000#32 = .error .unknownOpcode ∧ decode 0x01000001#32 = .error .reservedBitSet ∧
    decode 0x02010000#32 = .error .reservedBitSet ∧ decode 0x10FF0000#32 = .error .reservedBitSet ∧
    decode 0x22000100#32 = .error .reservedBitSet ∧ decode 0x33000004#32 = .error .reservedBitSet ∧
    decode 0x40FFFFFF#32 = .error .reservedBitSet ∧ decode 0x4081A001#32 = .error .reservedBitSet ∧
    decode 0x62000009#32 = .error .autoWithMask ∧ decode 0x62000010#32 = .error .reservedBitSet ∧
    decode 0x7081A009#32 = .error .autoWithMask ∧ decode 0x7081A108#32 = .error .reservedBitSet := by decide

/-- The table word of `GFMUL` through `decodeTableWord` (V4). -/
theorem test_decodeTableWord : decodeTableWord 32 0x100053CA = some (.gfmul 0x53#8 0xCA#8) := by decide

/-- The rows of the opcode map are disjoint: each has an opcode of its own (30_encoding.md R75). -/
theorem test_rows_disjoint : (opcodeRows.map fun r => opField r.pat).Nodup := by decide

/-- The examples of 30_encoding.md R79 as text and as words. -/
theorem test_assembler :
    programWords [.vselDefault .quartile, .encodeDefault .medium, .build] =
      [0x4081A000#32, 0x7041A008#32, 0x50000000#32, 0x51000000#32, 0x60000000#32, 0x61000000#32, 0x62000008#32] := by
  decide

/-! ## Steps: errors, halting, system commands -/

theorem test_withFetchWord : answer (step (State.reset.withFetchWord 32 0x100053CA)) = some 0x0000008F#32 := by decide

/-- V4, row 4: an illegal word, bit `ILL`. -/
theorem test_illegal : answer (stepOn State.reset 0x100153CA#32) = some 0x40000000#32 ∧
    (after (stepOn State.reset 0x100153CA#32)).map (·.eflags) = some 0b1000#4 := by decide +kernel

/-- V29: an illegal word on a halted core. -/
theorem test_halted_illegal : answer (stepOn haltedState 0x00000000#32) = some 0x30000000#32 ∧
    (after (stepOn haltedState 0x00000000#32)).map (·.eflags) = some 0b0100#4 := by decide +kernel

/-- V29: `GETR 18` is executed on a halted core. -/
theorem test_getr_halted : answer (stepOn haltedState 0x02000012#32) = some 0x10000000#32 ∧
    (after (stepOn haltedState 0x02000012#32)).map (·.eflags) = some 0b0101#4 := by decide +kernel

/-- P2, command 35. -/
theorem test_getr_size : answer (stepOn (withPipe helloFinished) 0x0200000E#32) = some 0x00000015#32 := by decide +kernel

/-- V29: `RESET` leaves the halted state. -/
theorem test_reset : (after (stepOn haltedState 0x01000000#32)).map (fun t => (t.halt, t.eflags, t.pipe.stage)) =
    some (0#1, 0#4, 0#3) := by decide +kernel

/-! ## GF unit and RS unit -/

/-- V4, row 3. -/
theorem test_gfmul_reduces : (after (exec (.gfmul 0x02#8 0x80#8) State.reset)).map (·.res) = some 0x1D#8 := by decide

/-- R114's example and V5. -/
theorem test_rsinit : (after (exec (.rsinit 7#16) State.reset)).map (·.rs.div) =
    some [0x7F#8, 0x7A#8, 0x9A#8, 0xA4#8, 0x0B#8, 0x44#8, 0x75#8] := by decide +kernel

/-- V7: the degree 256 is refused. -/
theorem test_rsinit_256 : answer (exec (.rsinit 256#16) State.reset) = some 0x10000000#32 := by decide

/-- V7: the remainder 98 E8. -/
theorem test_rsrem : (after (exec .rsrem (withRs rsLoaded))).map (·.rs.ebuf) = some [0x98#8, 0xE8#8] := by decide +kernel

/-- V7: no generator. -/
theorem test_rsrem_no_generator : answer (exec .rsrem State.reset) = some 0x10000000#32 := by decide

/-- V7. -/
theorem test_putr : answer (exec (.putr 0x99#8) (withRs rsLoaded)) = some 0x00000004#32 ∧
    (after (exec (.putr 0x99#8) (withRs rsLoaded))).map (·.rs.rbuf) = some [0x12#8, 0x34#8, 0x56#8, 0x99#8] := by
  decide +kernel

/-- V7: `CLRR` keeps the remainder. -/
theorem test_clrr : (after (exec .clrr (withRs rsDone))).map (fun t => (t.rs.rlen, t.rs.ebuf)) =
    some (0#16, [0x98#8, 0xE8#8]) := by decide +kernel

/-- V7. -/
theorem test_gete : answer (exec (.gete 1#16) (withRs rsDone)) = some 0x000000E8#32 ∧
    answer (exec (.gete 2#16) (withRs rsDone)) = some 0x10000000#32 := by decide +kernel

/-- V5: the divisor of degree 2. -/
theorem test_getg : answer (exec (.getg 0#16) (withRs rsDone)) = some 0x00000003#32 ∧
    answer (exec (.getg 2#16) (withRs rsDone)) = some 0x10000000#32 := by decide +kernel

/-! ## Segments and version -/

/-- R140: from stage 6, the RS unit kept. -/
theorem test_newsym : (after (exec .newsym { withPipe helloFinished with rs := rsDone })).map
    (fun t => (t.pipe.stage, t.pipe.size, t.pipe.nseg, t.rs.elen)) = some (0#3, 0#8, 0#8, 2#8) := by decide +kernel

/-- R141's example. -/
theorem test_puti : answer (exec (.puti 0x48#8) State.reset) = some 0x00000001#32 := by decide

/-- P2, command 20: the segments are frozen. -/
theorem test_puti_frozen : answer (exec (.puti 0x21#8) (withPipe (chosen 2 [helloSegment]))) = some 0x10000000#32 := by
  decide +kernel

/-- R142. -/
theorem test_clri : (after (exec .clri (withInput hello))).map (·.pipe.ilen) = some 0#16 := by decide +kernel

/-- R146's example: mode 1, count 8, 27 bits, `IBUF` emptied. -/
theorem test_seg : (after (exec (.seg .auto) (withInput digits))).map
      (fun t => (t.pipe.segs.map fun sg => (sg.mode, sg.count, sg.blen), t.pipe.ilen, t.pipe.sbits)) =
    some ([(1#4, 8#16, 27#24)], 0#16, 27#24) := by decide +kernel

/-- V9: "12A" asked for as Numeric falls to Byte. -/
theorem test_seg_falls_to_byte : answer (exec (.seg .numeric) (withInput ['1', '2', 'A'])) = some 0x00000004#32 := by
  decide +kernel

/-- R149's example. -/
theorem test_getseg : answer (exec (.getseg 0#8 2#16) (withPipe (withSegments [digitSegment]))) = some 0x0000001B#32 ∧
    answer (exec (.getseg 0#8 3#16) (withPipe (withSegments [digitSegment]))) = some 0x10000000#32 := by decide +kernel

/-- R150's example. -/
theorem test_getsb : answer (exec (.getsb 0#8 0#16) (withPipe (withSegments [digitSegment]))) = some 0x00000315#32 ∧
    answer (exec (.getsb 0#8 1#16) (withPipe (withSegments [digitSegment]))) = some 0x00009860#32 := by decide +kernel

/-- V9: the windows of "HELLO WORLD" and of the special characters. -/
theorem test_packing : (List.range 4).map (fun k => payloadWindow helloSegment k) =
      [0x616F#24, 0x1A2E#24, 0x5B89#24, 0xA868#24] ∧
    (List.range 4).map (fun k => payloadWindow (makeSegment specConfig .auto (ascii ['$', '%', '*', '+', '-', '.', '/', ':', ' '])) k) =
      [0xD4FC#24, 0x0FAF#24, 0xFBB9#24, 0x0000#24] := by decide +kernel

/-- R166's example and V13: "HELLO WORLD" at Q, and at H in version 1 only. -/
theorem test_vsel : answer (exec (.vsel .quartile 1#6 40#6) (withPipe (withSegments [helloSegment])))
    = some 0x00000001#32 ∧
    answer (exec (.vsel .high 1#6 1#6) (withPipe (withSegments [helloSegment]))) = some 0x20000000#32 := by decide +kernel

/-- V13: "HELLO WORLD" at H takes version 2. -/
theorem test_vsel_high : answer (exec (.vsel .high 1#6 40#6) (withPipe (withSegments [helloSegment]))) =
    some 0x00000002#32 := by decide +kernel

/-- R168, R163: capacities of some versions, the greatest among them. -/
theorem test_capacity : rawModules 40 = 29648 ∧ totalCodewords specConfig 40 = 3706 ∧ dataCodewords specConfig 40 .low = 2956 ∧
    dataCodewords specConfig 1 .high = 9 ∧ dataCodewords specConfig 7 .quartile = 88 ∧ dataCodewords specConfig 26 .medium = 1062 := by decide

/-! ## Codewords -/

/-- R184's example. -/
theorem test_asm : (after (exec .asm (withPipe (chosen 2 [helloSegment])))).map (·.pipe.dbuf) = some helloData := by
  decide +kernel

/-- V14: two segments at 1-H, a terminator of 2 bits. -/
theorem test_asm_two_segments :
    (after (exec .asm (withPipe (chosen 3 [makeSegment specConfig .auto (ascii ['1']),
        makeSegment specConfig .auto (ascii ['h', 'e', 'l', 'l', 'o'])])))).map
      (·.pipe.dbuf) = some [0x10#8, 0x04#8, 0x50#8, 0x15#8, 0xA1#8, 0x95#8, 0xB1#8, 0xB1#8, 0xBC#8] := by decide +kernel

/-- R189's example. -/
theorem test_ilv : (after (exec .ilv (withPipe { chosen 2 [helloSegment] with
    dbuf := helloData, dlen := 13, stage := 2 }))).map
    (·.pipe.obuf) = some (helloData ++ helloEcc) := by decide +kernel

/-- R192: the layout of version 5 at Q, and the last two data codewords, from the long blocks. -/
theorem test_layout : shortBlocks specConfig 5 .quartile = 2 ∧ shortDataLen specConfig 5 .quartile = 15 ∧
    ((roundRobin 16 (dataBlocks specConfig ((List.range 62).map (BitVec.ofNat 8)) 5 .quartile)).drop 56) =
      [14#8, 29#8, 44#8, 60#8, 45#8, 61#8] := by decide +kernel

/-- R190's example. -/
theorem test_getd : answer (exec (.getd 1#16) (withPipe helloCodewords)) = some 0x0000005B#32 ∧
    answer (exec (.getd 13#16) (withPipe helloCodewords)) = some 0x10000000#32 := by decide +kernel

/-- R191's example. -/
theorem test_geto : answer (exec (.geto 13#16) (withPipe helloCodewords)) = some 0x000000A8#32 ∧
    answer (exec (.geto 26#16) (withPipe helloCodewords)) = some 0x10000000#32 := by decide +kernel

/-! ## Matrix -/

/-- V18: the grid and the map of version 1. -/
theorem test_fnpat : (after (exec .fnpat (withPipe helloCodewords))).map (fun t => (t.pipe.grid, t.pipe.func, t.pipe.size)) =
    some (grid18, func18, 21#8) := by decide +kernel

/-- V17: format words and version words. -/
theorem test_format_and_version_words :
    (List.range 8).map (formatWord .quartile) = [0x355F, 0x3068, 0x3F31, 0x3A06, 0x24B4, 0x2183, 0x2EDA, 0x2BED] ∧
    [Level.low, .medium, .quartile, .high].map (fun e => formatWord e 0) = [0x77C4, 0x5412, 0x355F, 0x1689] ∧
    versionWord 7 = 0x07C94 ∧ versionWord 40 = 0x28C69 := by decide +kernel

/-- V20: the grid of "HELLO WORLD" after `PLACE`. -/
theorem test_place : (after (exec .place (withPipe helloPatterns))).map (fun t => (t.pipe.grid, t.pipe.rem)) =
    some (placed20, 0#3) := by decide +kernel

/-- R213's example: where the walk turns. -/
theorem test_positions : ((dataPositions 21 func18).drop 22).take 8 =
    [(9, 20), (9, 19), (9, 18), (9, 17), (10, 18), (10, 17), (11, 18), (11, 17)] := by decide +kernel

/-- V21: the sixth row of every mask's table. -/
theorem test_mask_functions : (List.range 8).map (fun k => (List.range 6).map (maskFn k 5)) =
    [[false, true, false, true, false, true], [false, false, false, false, false, false],
     [true, false, false, true, false, false], [false, true, false, false, true, false],
     [true, true, true, false, false, false], [true, false, false, false, false, false],
     [true, false, false, false, true, true], [false, true, true, true, false, false]] := by decide

/-- V20: mask 0 on "HELLO WORLD" gives the final grid. -/
theorem test_mask : (after (exec (.mask false 0#3) (withPipe helloPlaced))).map (fun t => (t.pipe.grid, t.pipe.mask)) =
    some (final20, 0#3) := by decide +kernel

/-- The penalties of V25. -/
def scores25 (k : Nat) : Nat := [1683, 1854, 1552, 1632, 1559, 1723, 1736, 1752].getD k 0

/-- The penalties of V26. -/
def scores26 (k : Nat) : Nat := [1294, 1079, 1136, 1161, 1281, 1133, 1088, 1270].getD k 0

/-- V25 and V26: the mask taken for the scores listed there. -/
theorem test_best_mask : bestMask scores25 [1, 2, 3, 4, 5, 6, 7] 0 (scores25 0) = 2 ∧
    bestMask scores26 [1, 2, 3, 4, 5, 6, 7] 0 (scores26 0) = 1 := by decide

/-- V20: the four parts of the penalty of mask 4. -/
theorem test_penalty : (let t := trial specConfig 21 placed20 func18 .quartile 4
    (penaltyA 21 t, penaltyB 21 t, penaltyC 21 t, penaltyD (darkCount 21 t) 441)) = (195, 144, 1000, 0) := by decide +kernel

/-- R224's example. -/
theorem test_getm : answer (exec (.getm 0#8 0#8) (withPipe helloFinished)) = some 0x00000001#32 ∧
    answer (exec (.getm 0#8 7#8) (withPipe helloFinished)) = some 0x00000000#32 := by decide +kernel

/-- R224's example: a row outside the grid. -/
theorem test_getm_outside : answer (exec (.getm 21#8 0#8) (withPipe helloFinished)) = some 0x10000000#32 :=
  by decide +kernel

/-- R241's example, its mask 0 given. -/
theorem test_encode : (after (exec (.encode .quartile 1#6 40#6 false 0#3) (withInput hello))).map
      (fun t => (t.ports.rsps, t.pipe.grid, t.pipe.nseg, t.pipe.ilen, t.pipe.olen)) =
    some ([0x00000100#32], final20, 1#8, 0#16, 26#12) := by decide +kernel

/-- P4, command 11: the data does not fit version 1 at H. -/
theorem test_encode_too_long : answer (exec (.encode .high 1#6 1#6 true 0#3)
    (withInput ['a', 'b', 'c', 'd', 'e', 'f', 'g', 'h'])) = some 0x20000000#32 := by decide +kernel

/-- R116 in a core whose `RBUF` holds two bytes (R7), where the spec's core has room. -/
theorem test_putr_other_capacity :
    let small := specConfig.withCapacities { specCapacities with rbufCap := 2 }
    answer (execWith small (.putr 0x34#8) (withRs { RsUnit.reset with rbuf := [0x12#8], rlen := 1 })) =
      some 0x00000002#32 ∧
    answer (execWith small (.putr 0x56#8) (withRs { RsUnit.reset with rbuf := [0x12#8, 0x34#8], rlen := 2 })) =
      some 0x10000000#32 := by decide +kernel

/-- R223 in a core with another penalty function (R8): a constant one ties, and the lowest mask is taken. -/
theorem test_mask_other_penalty :
    (after (execWith { specConfig with penalty := fun _ _ => 7 } (.mask true 0#3) (withPipe helloPlaced))).map
      (·.pipe.mask) = some 0#3 := by decide +kernel

/-! ## Witnesses: for every statement with hypotheses, states and operands that meet them -/

/-- A PIPE unit at stage `k` ≥ 1 for version `v` and level `e`, without segments: every codeword 0, the grid of `FNPAT`. -/
def stagePipe (k v : Nat) (e : Level) : PipeUnit :=
  { PipeUnit.reset with
    stage := BitVec.ofNat 3 k, ecl := levelBits e, ver := BitVec.ofNat 6 v
    dlen := if 2 ≤ k then BitVec.ofNat 12 (dataCodewords specConfig v e) else 0#12
    dbuf := if 2 ≤ k then List.replicate (dataCodewords specConfig v e) 0#8 else []
    olen := if 3 ≤ k then BitVec.ofNat 12 (totalCodewords specConfig v) else 0#12
    obuf := if 3 ≤ k then List.replicate (totalCodewords specConfig v) 0#8 else []
    rem := if 5 ≤ k then BitVec.ofNat 3 (rawModules v - 8 * totalCodewords specConfig v) else 0#3
    size := if 4 ≤ k then BitVec.ofNat 8 (Config.sideLength v) else 0#8
    grid := if 4 ≤ k then functionGrid specConfig v else []
    func := if 4 ≤ k then functionMap specConfig v else [] }

theorem toNat_ofNat_of_lt {w n : Nat} (h : n < 2 ^ w) : (BitVec.ofNat w n).toNat = n := by
  simp [Nat.mod_eq_of_lt h]

theorem stagePipe_inv (k v : Nat) (e : Level) (hk : 1 ≤ k ∧ k ≤ 6) (hv : 1 ≤ v ∧ v ≤ 40)
    (hd : dataCodewords specConfig v e < 4096) (ht : totalCodewords specConfig v < 4096) (hr : rawModules v - 8 * totalCodewords specConfig v < 8) :
    (stagePipe k v e).Inv := by
  have hst : (stagePipe k v e).stage.toNat = k := toNat_ofNat_of_lt (by omega)
  have hver : (stagePipe k v e).ver.toNat = v := toNat_ofNat_of_lt (by omega)
  have hlev : levelOfBits (stagePipe k v e).ecl = e := by cases e <;> rfl
  have hside : (BitVec.ofNat 8 (Config.sideLength v)).toNat = Config.sideLength v :=
    toNat_ofNat_of_lt (by unfold Config.sideLength; omega)
  constructor <;> (try simp only [hst, hver, hlev])
  · exact hk.2
  · simp [stagePipe, PipeUnit.reset]
  · simp [stagePipe, PipeUnit.reset]
  · simp [stagePipe, PipeUnit.reset]
  · simp [stagePipe, PipeUnit.reset]
  · omega
  · intro _; exact ⟨hv.1, hv.2, by simp [stagePipe, PipeUnit.reset, requiredBits]⟩
  · intro h; simp [stagePipe, show ¬ 2 ≤ k by omega]
  · intro h; simp only [stagePipe, if_pos h]; exact toNat_ofNat_of_lt (by omega)
  · by_cases h : 2 ≤ k
    · simp only [stagePipe, if_pos h, List.length_replicate]; exact (toNat_ofNat_of_lt (by omega)).symm
    · simp [stagePipe, h]
  · intro h; simp [stagePipe, show ¬ 3 ≤ k by omega]
  · intro h; simp only [stagePipe, if_pos h]; exact toNat_ofNat_of_lt (by omega)
  · by_cases h : 3 ≤ k
    · simp only [stagePipe, if_pos h, List.length_replicate]; exact (toNat_ofNat_of_lt (by omega)).symm
    · simp [stagePipe, h]
  · intro h; simp [stagePipe, show ¬ 4 ≤ k by omega]
  · intro h
    simp only [stagePipe, if_pos h, hside]
    exact ⟨trivial, gridOf_length _ _, fun line hl => gridOf_line_length hl⟩
  · intro h
    simp only [stagePipe, if_pos h]
    exact ⟨trivial, functionGrid_keepsPatterns specConfig v⟩
  · intro h; simp [stagePipe, show ¬ 5 ≤ k by omega]
  · intro h
    simp only [stagePipe, if_pos h, if_pos (show 3 ≤ k by omega)]
    rw [toNat_ofNat_of_lt (by omega), toNat_ofNat_of_lt (by omega), specConfig_rawModules]
  · intro _; rfl

/-- The reset state with the PIPE unit of `stagePipe`. -/
def stageState (k v : Nat) (e : Level) : State := withPipe (stagePipe k v e)

theorem rsReset_invFor (c : Capacities) : RsUnit.reset.InvFor (specConfig.withCapacities c) := by
  constructor <;> simp [RsUnit.reset]

theorem rsReset_inv : RsUnit.reset.Inv := rsReset_invFor specCapacities

theorem withPipe_inv {p : PipeUnit} (h : p.Inv) : (withPipe p).Inv := ⟨rsReset_inv, h, by simp [withPipe, State.reset]⟩

theorem stageState_inv_one (k : Nat) (hk : 1 ≤ k ∧ k ≤ 6) : (stageState k 1 .low).Inv :=
  withPipe_inv (stagePipe_inv k 1 .low hk (by decide) (by decide) (by decide) (by decide))

theorem stageState_inv_five (k : Nat) (hk : 1 ≤ k ∧ k ≤ 6) : (stageState k 5 .quartile).Inv :=
  withPipe_inv (stagePipe_inv k 5 .quartile hk (by decide) (by decide) (by decide) (by decide))

/-- The invariant of a PIPE unit at stage 0, in a core of any legal capacities. -/
theorem stageZero_invFor {c : Capacities} (hc : c.Legal) (ibuf : List Byte) (segs : List Segment)
    (hi : ibuf.length ≤ c.ibufCap) (hn : segs.length ≤ c.nsegMax)
    (hb : (segs.map fun sg => sg.blen.toNat).sum ≤ c.sbitCap) (hs : ∀ sg ∈ segs, SegmentOk specConfig sg) :
    ({ withSegments segs with ibuf := ibuf, ilen := BitVec.ofNat 16 ibuf.length } : PipeUnit).InvFor
      (specConfig.withCapacities c) := by
  have h1 : ibuf.length < 2 ^ 16 := by have := hc.ibufCap; omega
  have h2 : segs.length < 2 ^ 8 := by have := hc.nsegMax; omega
  have h3 : (segs.map fun sg => sg.blen.toNat).sum < 2 ^ 24 := by have := hc.sbitCap; omega
  constructor <;> simp only [withSegments, PipeUnit.reset, toNat_ofNat_of_lt h1, toNat_ofNat_of_lt h2, toNat_ofNat_of_lt h3]
  · decide
  · exact ⟨trivial, hi⟩
  · exact ⟨trivial, hn⟩
  · exact ⟨trivial, hb⟩
  · exact hs
  all_goals simp

/-- A byte segment of `n` bytes with a payload of zeros. -/
def zeroSegment (n : Nat) : Segment :=
  { mode := 4#4, count := BitVec.ofNat 16 n, blen := BitVec.ofNat 24 (8 * n), bits := List.replicate (8 * n) false }

theorem zeroSegment_ok (n : Nat) (h : n ≤ 65535) : SegmentOk specConfig (zeroSegment n) := by
  have h1 : n < 2 ^ 16 := by omega
  have h2 : 8 * n < 2 ^ 24 := by omega
  exact ⟨.byte, rfl, by simp only [zeroSegment, toNat_ofNat_of_lt h1, toNat_ofNat_of_lt h2, payloadLen],
    by simp only [zeroSegment, toNat_ofNat_of_lt h2, List.length_replicate]⟩

/-- A core collecting segments: byte segments of the given sizes, a text in `IBUF`. -/
def collecting (ibuf : List Byte) (sizes : List Nat) : State :=
  withPipe { withSegments (sizes.map zeroSegment) with ibuf := ibuf, ilen := BitVec.ofNat 16 ibuf.length }

theorem collecting_invFor {c : Capacities} (hc : c.Legal) (ibuf : List Byte) (sizes : List Nat)
    (hi : ibuf.length ≤ c.ibufCap) (hn : sizes.length ≤ c.nsegMax) (hz : ∀ n ∈ sizes, n ≤ 65535)
    (hb : (sizes.map fun n => 8 * n).sum ≤ c.sbitCap) :
    (collecting ibuf sizes).InvFor (specConfig.withCapacities c) := by
  refine ⟨rsReset_invFor c, stageZero_invFor hc ibuf _ hi (by simpa using hn) ?_ ?_, by
    simp [collecting, withPipe, State.reset]⟩
  · have hm : (sizes.map zeroSegment).map (fun sg => sg.blen.toNat) = sizes.map fun n => 8 * n := by
      rw [List.map_map]
      refine List.map_congr_left fun n hn => ?_
      have := hz n hn
      exact toNat_ofNat_of_lt (by omega)
    rw [hm]
    exact hb
  · intro sg hsg
    obtain ⟨n, hn, rfl⟩ := List.mem_map.1 hsg
    exact zeroSegment_ok n (hz n hn)

theorem collecting_inv (ibuf : List Byte) (sizes : List Nat) (hi : ibuf.length ≤ 8192) (hn : sizes.length ≤ 8)
    (hz : ∀ n ∈ sizes, n ≤ 65535) (hb : (sizes.map fun n => 8 * n).sum ≤ 65536) : (collecting ibuf sizes).Inv :=
  collecting_invFor specCapacities_legal ibuf sizes hi hn hz hb

/-- The RS unit of `rsDone` keeps the invariant. -/
theorem rsDone_inv : rsDone.Inv := by
  constructor <;> simp [rsDone, rsLoaded, RsUnit.reset, specCapacities_rbufCap]
  decide

/-- The RS unit with `n` bytes loaded and no generator. -/
def rsFilled (n : Nat) : RsUnit := { RsUnit.reset with rbuf := List.replicate n 0#8, rlen := BitVec.ofNat 16 n }

theorem rsFilled_invFor {c : Capacities} (hc : c.Legal) (n : Nat) (h : n ≤ c.rbufCap) :
    (rsFilled n).InvFor (specConfig.withCapacities c) := by
  have h1 : (BitVec.ofNat 16 n).toNat = n := toNat_ofNat_of_lt (by have := hc.rbufCap; omega)
  constructor <;> simp only [rsFilled, RsUnit.reset, h1]
  · simp
  · simp
  · simp
  · exact ⟨List.length_replicate, h⟩
  · simp

theorem rsFilled_inv (n : Nat) (h : n ≤ 4096) : (rsFilled n).Inv := rsFilled_invFor specCapacities_legal n h

/-- Capacities at the lower bounds of R7, but for a store of two segments. -/
def smallCapacities : Capacities := { rbufCap := 1, ibufCap := 7090, nsegMax := 2, sbitCap := 56720 }

theorem smallCapacities_legal : smallCapacities.Legal := by
  constructor <;> decide

theorem witness_StepRunsTheCommandAtThePort :
    (State.reset.withCommands [0x100053CA#32]).ports.cmds = [0x100053CA#32] ∧
    decode 0x100053CA#32 = .ok (.gfmul 0x53#8 0xCA#8) ∧ State.reset.ports.cmds = [] := by decide

theorem witness_IllegalWordRaisesIllegalCommand :
    (State.reset.withCommands [0x00000000#32]).ports.cmds = [0x00000000#32] ∧ isCommandWord 0x00000000#32 = false ∧
    isCommandWord 0x62000009#32 = false ∧ (State.reset.withCommands [0#32]).halt = 0#1 ∧
    (haltedState.withCommands [0#32]).halt = 1#1 := by decide

theorem witness_DecodeInvertsEncode : (Instr.mask true 0#3).wellFormed = true := by decide

theorem witness_EveryCommandHasOneWord : decode 0x62000008#32 = .ok (.mask true 0#3) := by decide

/-- A state of every stage, in the invariant, and a step of it. -/
theorem witness_EveryStepKeepsTheInvariant :
    (∃ t, (collecting [0x31#8] []).Inv ∧ step ((collecting [0x31#8] []).withCommands [0x33000000#32]) = .next t) ∧
    ∀ k, 1 ≤ k ∧ k ≤ 6 →
      ((stageState k 1 .low).withCommands [0x61000000#32]).Inv ∧
      ∃ t, step ((stageState k 1 .low).withCommands [0x61000000#32]) = .next t :=
  ⟨⟨_, collecting_inv _ _ (by decide) (by decide) (by simp) (by decide), rfl⟩,
    fun k hk => ⟨⟨rsReset_inv, (stageState_inv_one k hk).pipe, by simp [stageState, withPipe, State.reset]⟩, _, rfl⟩⟩

theorem witness_NoStepHaltsARunningCore : (stageState 4 5 .quartile).Inv ∧ (stageState 4 5 .quartile).halt = 0#1 ∧
    ∃ t, step ((stageState 4 5 .quartile).withCommands [0x61000000#32]) = .next t :=
  ⟨stageState_inv_five 4 (by decide), rfl, _, rfl⟩

theorem witness_HaltedCoreAnswersInternalInvariant : haltedState.halt = 1#1 ∧
    (haltedState.withCommands [0x63000000#32]).ports.cmds = [0x63000000#32] ∧
    (0x63000000#32 : Word) ≠ 0x01000000#32 ∧ (0x63000000#32 : Word) &&& 0xFFFF0000#32 ≠ 0x02000000#32 ∧
    (0x0200FFFF#32 : Word) = 0x02000000#32 ||| (0xFFFF#16).setWidth 32 := by decide

theorem witness_FlagsAndHaltRecordErrors :
    (haltedState.halt = 1#1 → haltedState.eflags.getLsbD 2 = true) ∧
    (∃ t, step (haltedState.withCommands [0x02000012#32]) = .next t) ∧
    (∃ t, step (State.reset.withCommands [0x50000000#32]) = .next t) ∧
    ∃ t, step (State.reset.withCommands [0x01000000#32]) = .next t :=
  ⟨fun _ => rfl, ⟨_, rfl⟩, ⟨_, rfl⟩, _, rfl⟩

theorem witness_FailedInternalChecksHaltTheCore :
    (let s := withPipe { chosen 3 [zeroSegment 12] with stage := 1 }
     s.halt = 0#1 ∧ s.pipe.stage = 1#3 ∧
        8 * dataCodewords specConfig s.pipe.ver.toNat (levelOfBits s.pipe.ecl) < (streamOf specConfig (segmentsOf s.pipe) s.pipe.ver.toNat).length) ∧
    (let s := withPipe { chosen 0 [] with stage := 2 }
     s.pipe.stage = 2#3 ∧ s.pipe.dlen.toNat ≠ dataCodewords specConfig s.pipe.ver.toNat (levelOfBits s.pipe.ecl)) ∧
    (let s := withPipe { helloPatterns with olen := 27 }
     s.pipe.stage = 4#3 ∧ (dataPositions s.pipe.size.toNat s.pipe.func).length < 8 * s.pipe.olen.toNat) ∧
    (let s := withPipe { helloPatterns with olen := 25 }
     s.pipe.stage = 4#3 ∧ 8 * s.pipe.olen.toNat + 7 < (dataPositions s.pipe.size.toNat s.pipe.func).length) := by
  decide +kernel

theorem witness_GetrReadsTheSelectedRegister : (scalarRegisters State.reset)[(17#16).toNat]? = some 0 ∧ 17 < (18#16).toNat := by
  decide

theorem witness_UnitsShareNoState :
    (∃ t, exec (.puti 1#8) State.reset = .next t) ∧ (∃ t, exec (.puti 1#8) (withRs rsDone) = .next t) ∧
    writesGf (.puti 1#8) = false ∧ writesRs (.puti 1#8) = false ∧ isPipeCommand (.puti 1#8) = true ∧
    (withRs rsDone).pipe = State.reset.pipe ∧ (withRs rsDone).halt = State.reset.halt ∧
    writesPipe (.putr 1#8) = false ∧ isRsCommand (.putr 1#8) = true ∧ (withPipe helloFinished).rs = State.reset.rs ∧
    writesGf (.gfmul 1#8 1#8) = true ∧ (withRs rsDone).res = State.reset.res :=
  ⟨⟨_, rfl⟩, ⟨_, rfl⟩, rfl, rfl, rfl, rfl, rfl, rfl, rfl, rfl, rfl, rfl⟩

theorem witness_ReadsHaveNoSideEffects : isRead (.gete 0#16) = true ∧ isRead (.getr 2#16) = true ∧
    ∃ t a b, exec (.gete 0#16) (withRs rsDone) = .next t ∧ exec (.getr 2#16) (withRs rsDone) = .next a ∧
      exec (.getr 2#16) t = .next b ∧ Instr.getr 2#16 ≠ .getr 0#16 ∧ a.ports = portsAfter (withRs rsDone) 0#32 :=
  ⟨rfl, rfl, _, _, _, rfl, rfl, rfl, by decide, by decide⟩

theorem witness_StageAdvancesInOrder : ∃ t, exec .fnpat (stageState 3 1 .low) = .next t := ⟨_, rfl⟩

theorem witness_FinishedSymbolIsImmutable : (stageState 6 1 .low).pipe.stage = 6#3 ∧ Instr.place ≠ .newsym ∧
    Instr.place ≠ .reset ∧ ∃ t, exec .place (stageState 6 1 .low) = .next t :=
  ⟨rfl, by decide, by decide, _, rfl⟩

theorem witness_StoredSegmentsAreImmutable : (collecting [] [1]).pipe.Inv ∧ Instr.seg .auto ≠ .newsym ∧
    Instr.seg .auto ≠ .reset ∧ ∃ t, exec (.seg .auto) (collecting [] [1]) = .next t :=
  ⟨(collecting_inv _ _ (by decide) (by decide) (by decide) (by decide)).pipe, by decide, by decide, _, rfl⟩

theorem witness_SameCommandsGiveTheSameSymbol : (stageState 6 1 .low).halt = 0#1 ∧
    (∃ u, exec .newsym (stageState 6 1 .low) = .next u) ∧
    ∀ w ∈ [0x31000031#32, 0x02000011#32], ∀ i, decode w = .ok i → answersAlike i = true := by
  refine ⟨rfl, ⟨_, rfl⟩, fun w hw i hi => ?_⟩
  have h1 : decode 0x31000031#32 = .ok (.puti 0x31#8) := by decide
  have h2 : decode 0x02000011#32 = .ok (.getr 17#16) := by decide
  simp only [List.mem_cons, List.not_mem_nil, or_false] at hw
  rcases hw with rfl | rfl
  · rw [h1] at hi
    cases hi
    rfl
  · rw [h2] at hi
    cases hi
    rfl

theorem witness_RsAndPipeCommandsCommute : (stageState 4 1 .low).Inv ∧ (stageState 4 1 .low).halt = 0#1 ∧
    isRsCommand (.rsinit 0#16) = true ∧ isPipeCommand .place = true :=
  ⟨stageState_inv_one 4 (by decide), rfl, rfl, rfl⟩

theorem witness_LegalCapacitiesKeepTheInvariant : smallCapacities.Legal ∧
    (stageState 6 1 .low).InvFor (specConfig.withCapacities specCapacities) ∧
    (∃ t, stepWith (specConfig.withCapacities smallCapacities) State.reset = .next t) ∧ State.reset.halt = 0#1 ∧
    smallCapacities.ibufCap < 7091 ∧
    smallCapacities.sbitCap < (([7090, 1].map zeroSegment).map fun sg => sg.blen.toNat).sum :=
  ⟨smallCapacities_legal, stageState_inv_one 6 (by decide), ⟨_, rfl⟩, rfl, by decide, by decide⟩

theorem witness_GfmulIsTheFieldProduct : State.reset.halt = 0#1 := rfl

theorem witness_FieldLaws : gfMul 0#8 7#8 = 0#8 ∧ (1#8 : Byte) ≠ 0#8 ∧ 0 < 255 ∧
    254 < 255 ∧ Nat.iterate (fun p => gfMul p 2#8) 254 1#8 = Nat.iterate (fun p => gfMul p 2#8) 254 1#8 :=
  ⟨by decide, by decide, by decide, by decide, rfl⟩

theorem witness_RsinitHoldsTheDivisorPolynomial : State.reset.halt = 0#1 ∧ 1 ≤ (1#16).toNat ∧ (1#16).toNat ≤ 255 ∧
    1 ≤ (255#16).toNat ∧ (255#16).toNat ≤ 255 ∧ (0#16).toNat < 1 ∧ 255 < (256#16).toNat := by decide

theorem witness_DivisorRootsAreThePowersOfTwo : 1 ≤ 1 ∧ 1 ≤ 255 ∧ 255 ≤ 255 := by decide

theorem witness_DataAndRemainderFormACodeword : 1 ≤ 255 ∧ 255 ≤ 255 ∧ [0x01#8] ≠ [] ∧ 254 < 255 := by decide

theorem witness_RsremStoresTheRemainder :
    ((withRs rsDone).halt = 0#1 ∧ (withRs rsDone).rs.Inv ∧ (withRs rsDone).rs.gv = 1#1 ∧ (withRs rsDone).rs.rlen ≠ 0#16) ∧
    (State.reset.rs.Inv ∧ State.reset.rs.gv = 0#1) ∧ State.reset.rs.rlen = 0#16 :=
  ⟨⟨rfl, rsDone_inv, by decide, by decide⟩, ⟨rsReset_inv, rfl⟩, rfl⟩

theorem witness_PutrAndClrrFillAndEmptyTheBuffer :
    ((withRs (rsFilled 4095)).halt = 0#1 ∧ (withRs (rsFilled 4095)).rs.Inv ∧
      (withRs (rsFilled 4095)).rs.rlen.toNat < specCapacities.rbufCap) ∧
    (withRs (rsFilled 4096)).rs.rlen.toNat = specCapacities.rbufCap ∧
    smallCapacities.Legal ∧
    ((withRs (rsFilled 0)).rs.InvFor (specConfig.withCapacities smallCapacities) ∧
      (withRs (rsFilled 0)).rs.rlen.toNat ≠ smallCapacities.rbufCap) ∧
    (withRs (rsFilled 1)).rs.InvFor (specConfig.withCapacities smallCapacities) ∧
    (withRs (rsFilled 1)).rs.rlen.toNat = smallCapacities.rbufCap :=
  ⟨⟨rfl, rsFilled_inv 4095 (by decide), by decide⟩, by decide, smallCapacities_legal,
    ⟨rsFilled_invFor smallCapacities_legal 0 (by decide), by decide⟩,
    rsFilled_invFor smallCapacities_legal 1 (by decide), by decide⟩

theorem witness_GeteAndGetgReadBelowTheLength : (withRs rsDone).halt = 0#1 ∧ (withRs rsDone).rs.Inv ∧
    (1#16).toNat < (withRs rsDone).rs.elen.toNat ∧ (withRs rsDone).rs.elen.toNat ≤ (2#16).toNat ∧
    (1#16).toNat < (withRs rsDone).rs.deg.toNat ∧ (withRs rsDone).rs.deg.toNat ≤ (2#16).toNat :=
  ⟨rfl, rsDone_inv, by decide, by decide, by decide, by decide⟩

theorem witness_NewsymEmptiesThePipeUnit : (stageState 6 1 .low).halt = 0#1 := rfl

/-- Zeros in `IBUF`. -/
def zeros (n : Nat) : State := collecting (List.replicate n 0#8) []

theorem zeros_ilen (n : Nat) (h : n < 2 ^ 16) : (zeros n).pipe.ilen.toNat = n := by
  simp only [zeros, collecting, withPipe, List.length_replicate]
  exact toNat_ofNat_of_lt h

theorem zeros_invFor {c : Capacities} (hc : c.Legal) (n : Nat) (h : n ≤ c.ibufCap) :
    (zeros n).InvFor (specConfig.withCapacities c) :=
  collecting_invFor hc _ _ (by simpa using h) (by simp) (by simp) (by simp)

theorem witness_PutiAndClriFillAndEmptyTheInput :
    ((stageState 1 1 .low).halt = 0#1 ∧ (stageState 1 1 .low).pipe.stage ≠ 0#3) ∧
    ((zeros 8192).halt = 0#1 ∧ (zeros 8192).pipe.stage = 0#3 ∧ (zeros 8192).pipe.ilen.toNat = specCapacities.ibufCap) ∧
    ((zeros 8191).pipe.Inv ∧ (zeros 8191).pipe.stage = 0#3 ∧ (zeros 8191).pipe.ilen.toNat < specCapacities.ibufCap) ∧
    smallCapacities.Legal ∧
    ((zeros 7089).pipe.InvFor (specConfig.withCapacities smallCapacities) ∧
      (zeros 7089).pipe.ilen.toNat ≠ smallCapacities.ibufCap) ∧
    (zeros 7090).pipe.InvFor (specConfig.withCapacities smallCapacities) ∧
    (zeros 7090).pipe.ilen.toNat = smallCapacities.ibufCap := by
  refine ⟨⟨rfl, by decide⟩, ⟨rfl, rfl, zeros_ilen _ (by decide)⟩,
    ⟨(zeros_invFor specCapacities_legal 8191 (by decide)).pipe, rfl, ?_⟩, smallCapacities_legal,
    ⟨(zeros_invFor smallCapacities_legal 7089 (by decide)).pipe, ?_⟩,
    (zeros_invFor smallCapacities_legal 7090 (by decide)).pipe, zeros_ilen _ (by decide)⟩
  · rw [zeros_ilen _ (by decide)]
    decide
  · rw [zeros_ilen _ (by decide)]
    decide

/-- One bit short of a full store, and the store full: an input that fits nowhere, and one that fills it. -/
theorem witness_SegAppendsTheSegmentOfTheInput :
    ((stageState 1 1 .low).halt = 0#1 ∧ (stageState 1 1 .low).pipe.Inv ∧ (stageState 1 1 .low).pipe.stage ≠ 0#3) ∧
    (let s := collecting [] [0, 0, 0, 0, 0, 0, 0, 0]
     s.pipe.Inv ∧ s.pipe.nseg.toNat = specCapacities.nsegMax) ∧
    (let s := collecting [0x31#8] [8192]
     s.pipe.Inv ∧ s.pipe.stage = 0#3 ∧ s.pipe.nseg.toNat ≠ specCapacities.nsegMax ∧
        specCapacities.sbitCap < s.pipe.sbits.toNat + (makeSegment specConfig .auto s.pipe.ibuf).bits.length) ∧
    (let s := collecting [0xC3#8] [8191]
     s.pipe.Inv ∧ s.pipe.stage = 0#3 ∧ s.pipe.nseg.toNat ≠ specCapacities.nsegMax ∧
        s.pipe.sbits.toNat + (makeSegment specConfig .auto s.pipe.ibuf).bits.length ≤ specCapacities.sbitCap) := by
  refine ⟨⟨rfl, (stageState_inv_one 1 (by decide)).pipe, by decide⟩, ⟨?_, by decide⟩, ⟨?_, rfl, by decide, by decide⟩,
    ⟨?_, rfl, by decide, by decide⟩⟩
  · exact (collecting_inv _ _ (by decide) (by decide) (by decide) (by decide)).pipe
  · exact (collecting_inv _ _ (by decide) (by decide) (by decide) (by decide)).pipe
  · exact (collecting_inv _ _ (by decide) (by decide) (by decide) (by decide)).pipe

/-- The same three cases in a core of other capacities. -/
theorem witness_SegAppendsTheSegmentOfTheInput_capacities : smallCapacities.Legal ∧
    (let s := collecting [] [0, 0]
     s.pipe.InvFor (specConfig.withCapacities smallCapacities) ∧ s.pipe.stage = 0#3 ∧
        s.pipe.nseg.toNat = smallCapacities.nsegMax) ∧
    (let s := collecting [0x31#8] [7090]
     s.pipe.InvFor (specConfig.withCapacities smallCapacities) ∧ s.pipe.stage = 0#3 ∧
        smallCapacities.sbitCap < s.pipe.sbits.toNat + (makeSegment specConfig .auto s.pipe.ibuf).bits.length) ∧
    (let s := collecting [0xC3#8] [7089]
     s.pipe.InvFor (specConfig.withCapacities smallCapacities) ∧ s.pipe.stage = 0#3 ∧
        s.pipe.sbits.toNat + (makeSegment specConfig .auto s.pipe.ibuf).bits.length ≤ smallCapacities.sbitCap) := by
  refine ⟨smallCapacities_legal, ⟨?_, rfl, by decide⟩, ⟨?_, rfl, by decide⟩, ⟨?_, rfl, by decide⟩⟩
  · exact (collecting_invFor smallCapacities_legal _ _ (by decide) (by decide) (by decide) (by decide)).pipe
  · exact (collecting_invFor smallCapacities_legal _ _ (by decide) (by decide) (by decide) (by decide)).pipe
  · exact (collecting_invFor smallCapacities_legal _ _ (by decide) (by decide) (by decide) (by decide)).pipe

/-- Inputs of each mode, with two digits, one digit and one character left over. -/
theorem witness_PayloadHoldsTheBitsOfTheInput :
    (resolveMode .auto (ascii digits) = .numeric ∧ 1 < (ascii digits).length / 3 ∧ (ascii digits).length % 3 = 2) ∧
    (resolveMode .auto (ascii ['7']) = .numeric ∧ (ascii ['7']).length % 3 = 1) ∧
    (resolveMode .auto (ascii hello) = .alphanumeric ∧ 4 < (ascii hello).length / 2 ∧ (ascii hello).length % 2 = 1) ∧
    resolveMode .auto [0xC3#8] = .byte ∧ [0xC3#8][0]? = some 0xC3#8 := by decide

theorem witness_SegmentsDetermineTheirInput :
    makeSegment specConfig .auto [0x31#8, 0x32#8] = makeSegment specConfig .numeric [0x31#8, 0x32#8] := by decide

theorem witness_GetsegReadsAField : (collecting [] [3]).halt = 0#1 ∧
    (collecting [] [3]).pipe.segs[(0#8).toNat]? = some (zeroSegment 3) ∧ (0#8).toNat < (collecting [] [3]).pipe.nseg.toNat ∧
    (collecting [] [3]).pipe.nseg.toNat ≤ (1#8).toNat ∧ 2 < (3#16).toNat := by decide

theorem witness_GetsbReadsAWindow : (collecting [] [3]).halt = 0#1 ∧ (collecting [] [3]).pipe.Inv ∧
    (collecting [] [3]).pipe.segs[(0#8).toNat]? = some (zeroSegment 3) ∧
    16 * (1#16).toNat < (zeroSegment 3).blen.toNat ∧ (zeroSegment 3).blen.toNat ≤ 16 * (2#16).toNat ∧
    (collecting [] [3]).pipe.nseg.toNat ≤ (1#8).toNat :=
  ⟨rfl, (collecting_inv _ _ (by decide) (by decide) (by decide) (by decide)).pipe, rfl, by decide, by decide, by decide⟩

/-- The states of `witness_VselTakesTheLeastVersionThatFits` and of the `ENCODE` witnesses: 8 bytes, which at H need version 2. -/
def eightBytes : State := collecting (ascii ['a', 'b', 'c', 'd', 'e', 'f', 'g', 'h']) []

theorem eightBytes_inv : eightBytes.Inv := collecting_inv _ _ (by decide) (by decide) (by simp) (by decide)

theorem witness_VselTakesTheLeastVersionThatFits :
    ((stageState 1 1 .low).halt = 0#1 ∧ (stageState 1 1 .low).pipe.Inv ∧ (stageState 1 1 .low).pipe.stage ≠ 0#3) ∧
    ((0#6).toNat < 1 ∧ 40 < (41#6).toNat ∧ (3#6).toNat < (5#6).toNat) ∧
    (let s := collecting [] [8]
     let fits := fun v => (s.pipe.segs.map fun sg => 4 + ccbits sg.mode v + sg.blen.toNat).sum ≤ 8 * dataCodewords specConfig v .high
     s.halt = 0#1 ∧ s.pipe.Inv ∧ s.pipe.stage = 0#3 ∧
        (1 ≤ (1#6).toNat ∧ (1#6).toNat ≤ (1#6).toNat ∧ (∀ v, (1#6).toNat ≤ v → v ≤ (1#6).toNat → ¬fits v)) ∧
        (40#6).toNat ≤ 40 ∧ fits 2 ∧ ∀ u, (1#6).toNat ≤ u → u < 2 → ¬fits u) := by
  refine ⟨⟨rfl, (stageState_inv_one 1 (by decide)).pipe, by decide⟩, by decide, rfl,
    (collecting_inv _ _ (by decide) (by decide) (by decide) (by decide)).pipe, rfl, ⟨by decide, by decide, ?_⟩, by decide,
    by decide, ?_⟩
  · intro v h1 h2
    obtain rfl : v = 1 := by simp at h1 h2; omega
    decide
  · intro v h1 h2
    obtain rfl : v = 1 := by simp at h1; omega
    decide

theorem witness_CountsFitTheirLengthFields : SegmentOk specConfig (zeroSegment 17) ∧ zeroSegment 17 ∈ [zeroSegment 17] ∧
    requiredBits specConfig [zeroSegment 17] 1 ≤ 8 * dataCodewords specConfig 1 .low :=
  ⟨zeroSegment_ok 17 (by decide), by simp, by decide⟩

theorem witness_AsmStoresStreamTerminatorAndPads :
    ((stageState 1 1 .low).halt = 0#1 ∧ (stageState 1 1 .low).pipe.Inv ∧ (stageState 1 1 .low).pipe.stage = 1#3) ∧
    (stageState 2 1 .low).pipe.Inv ∧ (stageState 2 1 .low).pipe.stage ≠ 1#3 :=
  ⟨⟨rfl, (stageState_inv_one 1 (by decide)).pipe, rfl⟩, (stageState_inv_one 2 (by decide)).pipe, by decide⟩

/-- Version 5 at Q has two short and two long blocks. -/
theorem witness_IlvInterleavesDataAndEcc :
    ((stageState 2 5 .quartile).halt = 0#1 ∧ (stageState 2 5 .quartile).pipe.Inv ∧ (stageState 2 5 .quartile).pipe.stage = 2#3) ∧
    (14 < shortDataLen specConfig 5 .quartile ∧ 3 < numBlocks .quartile 5 ∧ shortBlocks specConfig 5 .quartile ≤ 2 ∧ 17 < eccPerBlock .quartile 5) ∧
    (stageState 3 5 .quartile).pipe.Inv ∧ (stageState 3 5 .quartile).pipe.stage ≠ 2#3 :=
  ⟨⟨rfl, (stageState_inv_five 2 (by decide)).pipe, rfl⟩, by decide, (stageState_inv_five 3 (by decide)).pipe, by decide⟩

theorem witness_GetdAndGetoReadBelowTheLength : (stageState 6 1 .low).halt = 0#1 ∧ (stageState 6 1 .low).pipe.Inv ∧
    (18#16).toNat < (stageState 6 1 .low).pipe.dlen.toNat ∧ (stageState 6 1 .low).pipe.dlen.toNat ≤ (19#16).toNat ∧
    (25#16).toNat < (stageState 6 1 .low).pipe.olen.toNat ∧ (stageState 6 1 .low).pipe.olen.toNat ≤ (26#16).toNat :=
  ⟨rfl, (stageState_inv_one 6 (by decide)).pipe, by decide, by decide, by decide, by decide⟩

theorem witness_FnpatPlacesTheFunctionPatterns : (stageState 3 1 .low).halt = 0#1 ∧ (stageState 3 1 .low).pipe.stage = 3#3 ∧
    (stageState 4 1 .low).pipe.stage ≠ 3#3 := ⟨rfl, rfl, by decide⟩

theorem witness_FunctionPatternsHaveTheirColours : 1 ≤ 40 ∧ 40 ≤ 40 ∧ (8 ≤ 168 ∧ 168 < 4 * 40 + 17 - 8) ∧
    ((alignPos 40)[6]? = some 170 ∧ ¬(6 = 0 ∧ 6 = 0) ∧ absDiff 168 170 ≤ 2) ∧ 14 < 15 ∧ 7 ≤ 40 ∧ 17 < 18 ∧
    moduleAt func18 20 20 = false := by decide +kernel

theorem witness_DataModulesNumberRawModules : 1 ≤ 1 ∧ 1 ≤ 40 ∧ 40 ≤ 40 := by decide

theorem witness_ZigzagWalksTheColumnPairs : 1 ≤ 40 ∧ 40 ≤ 40 ∧ 176 < 4 * 40 + 17 ∧ 5 ≠ 6 ∧ 5 < 4 * 40 + 17 := by decide

theorem witness_FinderPatternsAtThreeCorners : (stageState 4 5 .quartile).Inv ∧
    4 ≤ (stageState 4 5 .quartile).pipe.stage.toNat ∧ 2 ≤ (stageState 4 5 .quartile).pipe.ver.toNat ∧
    max (absDiff 29 30) (absDiff 32 30) ≤ 2 := ⟨stageState_inv_five 4 (by decide), by decide, by decide, by decide⟩

theorem witness_PlaceWritesTheCodewordBits :
    ((stageState 4 1 .low).halt = 0#1 ∧ (stageState 4 1 .low).pipe.Inv ∧ (stageState 4 1 .low).pipe.stage = 4#3) ∧
    (207 < 8 * (stageState 4 1 .low).pipe.olen.toNat ∧ (dataPositions 21 func18)[207]? = some (12, 0) ∧
      (stageState 4 1 .low).pipe.obuf[207 / 8]? = some 0#8 ∧ (0, 0) ∉ (dataPositions 21 func18).take 208) ∧
    (stageState 5 1 .low).pipe.Inv ∧ (stageState 5 1 .low).pipe.stage ≠ 4#3 :=
  ⟨⟨rfl, (stageState_inv_one 4 (by decide)).pipe, rfl⟩, by decide +kernel, (stageState_inv_one 5 (by decide)).pipe,
    by decide⟩

theorem witness_MaskInvertsDataAndWritesFormat :
    ((stageState 5 1 .low).halt = 0#1 ∧ (stageState 5 1 .low).pipe.Inv ∧ (stageState 5 1 .low).pipe.stage = 5#3) ∧
    (moduleAt func18 20 20 = false ∧ moduleAt func18 6 6 = true ∧ 14 < 15 ∧
      ∀ i, i < 15 → (6, 6) ≠ formatCopy1 i ∧ (6, 6) ≠ formatCopy2 21 i) ∧
    (stageState 6 1 .low).pipe.Inv ∧ (stageState 6 1 .low).pipe.stage ≠ 5#3 :=
  ⟨⟨rfl, (stageState_inv_one 5 (by decide)).pipe, rfl⟩, by decide +kernel, (stageState_inv_one 6 (by decide)).pipe,
    by decide⟩

theorem witness_LongRunsAddToThePenalty : ∀ len ∈ [1, 5, 6], 1 ≤ len := by decide

theorem witness_FinderLikeRunsAreCounted : [1, 1, 3, 1, 1].length % 2 = 1 ∧ ∀ len ∈ [1, 1, 3, 1, 1], 1 ≤ len := by decide

theorem witness_BalancePenaltyIsTheLeastStep : 1 ≤ 441 ∧ 441 ≤ 441 := by decide

theorem witness_GetmReadsOneModule : (withPipe helloFinished).halt = 0#1 ∧
    (20#8).toNat < (withPipe helloFinished).pipe.size.toNat ∧
    (withPipe helloFinished).pipe.grid[(20#8).toNat]? = some (rowOfNumber 21 0x1FC2E1) ∧
    (rowOfNumber 21 0x1FC2E1)[(20#8).toNat]? = some true ∧
    (withPipe helloFinished).pipe.size.toNat ≤ (21#8).toNat := by decide +kernel

theorem witness_EncodeFinishesTheSymbol :
    ((stageState 6 1 .low).halt = 0#1 ∧ (stageState 6 1 .low).Inv ∧ (stageState 6 1 .low).pipe.stage ≠ 0#3) ∧
    ((collecting [] [1]).Inv ∧ (collecting [] [1]).pipe.nseg ≠ 0#8) ∧
    ((0#6).toNat < 1 ∧ 40 < (41#6).toNat ∧ (3#6).toNat < (5#6).toNat) ∧
    (let sg := makeSegment specConfig .auto eightBytes.pipe.ibuf
     let fits := fun v => 4 + ccbits sg.mode v + sg.blen.toNat ≤ 8 * dataCodewords specConfig v .high
     eightBytes.Inv ∧ eightBytes.halt = 0#1 ∧ eightBytes.pipe.stage = 0#3 ∧ eightBytes.pipe.nseg = 0#8 ∧
        (1 ≤ (1#6).toNat ∧ (1#6).toNat ≤ (1#6).toNat ∧ (∀ v, (1#6).toNat ≤ v → v ≤ (1#6).toNat → ¬fits v)) ∧
        (40#6).toNat ≤ 40 ∧ fits 2 ∧ ∀ u, (1#6).toNat ≤ u → u < 2 → ¬fits u) := by
  refine ⟨⟨rfl, stageState_inv_one 6 (by decide), by decide⟩,
    ⟨collecting_inv _ _ (by decide) (by decide) (by decide) (by decide), by decide⟩, by decide, eightBytes_inv, rfl, rfl, rfl,
    ⟨by decide, by decide, ?_⟩, by decide, by decide, ?_⟩
  · intro v h1 h2
    obtain rfl : v = 1 := by simp at h1 h2; omega
    decide
  · intro v h1 h2
    obtain rfl : v = 1 := by simp at h1; omega
    decide

/-- Both outcomes: the input fits versions 1 to 40 at H, and not version 1 alone. -/
theorem witness_EncodeEqualsTheSevenCommands : eightBytes.Inv ∧ eightBytes.halt = 0#1 ∧ eightBytes.pipe.stage = 0#3 ∧
    eightBytes.pipe.nseg = 0#8 ∧
    (after (exec (.encode .high 1#6 40#6 false 3#3) eightBytes)).map (·.pipe.stage) = some 6#3 ∧
    (after (exec (.encode .high 1#6 1#6 true 0#3) eightBytes)).map (·.pipe.stage) = some 0#3 :=
  ⟨eightBytes_inv, rfl, rfl, rfl, by decide +kernel, by decide +kernel⟩

end Sys2Proof.Tests
end

section
/-! PROOFS. How long the outputs of the encoder's functions are: packed payloads, the stream, the data codewords, divisors and
remainders, and the interleaved codewords. -/

namespace Sys2Proof.Machine

/-! ### Payloads and segments -/

@[simp] theorem bitsOfNat_length (n v : Nat) : (bitsOfNat n v).length = n := by simp [bitsOfNat]

@[simp] theorem zeroBits_length (n : Nat) : (zeroBits n).length = n := List.length_replicate

@[simp] theorem payloadOf_length (sg : Segment) : (payloadOf sg).length = sg.blen.toNat := firstItems_length _ _ _

@[simp] theorem bytesOf_length (b : List Byte) (n : Nat) : (bytesOf b n).length = n := firstItems_length _ _ _

@[simp] theorem inputOf_length (p : PipeUnit) : (inputOf p).length = p.ilen.toNat := bytesOf_length _ _

theorem payloadLen_numeric_add_three (n : Nat) : payloadLen .numeric (n + 3) = payloadLen .numeric n + 10 := by
  simp only [payloadLen, Nat.add_mod_right]
  omega

/-- 42_segment_encoder.md R131 by groups of three digits. -/
theorem packNumeric_length (input : List Byte) : (packNumeric input).length = payloadLen .numeric input.length := by
  induction input using packNumeric.induct with
  | case1 a b c rest ih =>
    rw [packNumeric, List.length_append, bitsOfNat_length, ih, Nat.add_comm]
    exact (payloadLen_numeric_add_three rest.length).symm
  | case2 a b => simp [packNumeric, payloadLen]
  | case3 a => simp [packNumeric, payloadLen]
  | case4 => simp [packNumeric, payloadLen]

/-- 42_segment_encoder.md R132 by pairs of characters. -/
theorem packAlnum_length (input : List Byte) : (packAlnum input).length = payloadLen .alphanumeric input.length := by
  induction input using packAlnum.induct with
  | case1 a b rest ih =>
    simp only [packAlnum, List.length_append, bitsOfNat_length, ih, payloadLen, List.length_cons]
    omega
  | case2 a => simp [packAlnum, payloadLen]
  | case3 => simp [packAlnum, payloadLen]

theorem bitsOfBytes_length (bs : List Byte) : (bitsOfBytes bs).length = 8 * bs.length := by
  simp [bitsOfBytes, bitsOfByte, List.length_flatMap, Nat.mul_comm]

/-- 42_segment_encoder.md R139: a packing is as long as `payload_len` says. -/
theorem packAs_length (m : Mode) (input : List Byte) : (packAs m input).length = payloadLen m input.length := by
  cases m with
  | numeric => exact packNumeric_length input
  | alphanumeric => exact packAlnum_length input
  | byte => exact bitsOfBytes_length input

theorem payloadFor_length (req : ModeRequest) (input : List Byte) :
    (payloadFor req input).length = payloadLen (resolveMode req input) input.length := packAs_length _ _

/-- No mode needs more than 8 bits a byte. -/
theorem payloadLen_le (m : Mode) (n : Nat) : payloadLen m n ≤ 8 * n := by
  cases m with
  | numeric =>
    simp only [payloadLen]
    split_ifs <;> omega
  | alphanumeric =>
    simp only [payloadLen]
    omega
  | byte => exact le_rfl

/-- The payload length of a segment is not cut off by the width of `blen`. -/
theorem makeSegment_blen (cfg : Configuration) (req : ModeRequest) {input : List Byte} (h : input.length < 2 ^ 16) :
    (makeSegment cfg req input).blen.toNat = payloadLen (resolveMode req input) input.length := by
  have hle := payloadLen_le (resolveMode req input) input.length
  simp only [makeSegment, payloadFor_length, BitVec.toNat_ofNat]
  exact Nat.mod_eq_of_lt (by omega)

/-- `make_segment` makes segments as 10_state.md R48 has them. -/
theorem makeSegment_ok (cfg : Configuration) (req : ModeRequest) {input : List Byte} (h : input.length < 2 ^ 16) :
    SegmentOk cfg (makeSegment cfg req input) := by
  have hblen := makeSegment_blen cfg req h
  refine ⟨resolveMode req input, rfl, ?_, (payloadFor_length req input).trans hblen.symm⟩
  rw [hblen, makeSegment, BitVec.toNat_ofNat, Nat.mod_eq_of_lt h]

/-! ### The stream and the data codewords -/

theorem segBits_length (cfg : Configuration) (sg : Segment) (v : Nat) : (segBits cfg sg v).length = segmentCost cfg v sg := by
  simp [segBits, segmentCost]
  omega

/-- The stream has as many bits as the version selector counts. -/
theorem streamOf_length (cfg : Configuration) (segs : List Segment) (v : Nat) :
    (streamOf cfg segs v).length = requiredBits cfg segs v := by
  simp [streamOf, requiredBits, List.length_flatMap, segBits_length]

theorem codewordsOf_length (bs : Bits) : (codewordsOf bs).length = bs.length / 8 := by
  induction bs using codewordsOf.induct with
  | case1 b7 b6 b5 b4 b3 b2 b1 b0 rest ih => simp [codewordsOf, ih]; omega
  | case2 bs hshort =>
    rw [codewordsOf.eq_2 bs hshort]
    rcases bs with _ | ⟨b7, _ | ⟨b6, _ | ⟨b5, _ | ⟨b4, _ | ⟨b3, _ | ⟨b2, _ | ⟨b1, _ | ⟨b0, rest⟩⟩⟩⟩⟩⟩⟩⟩
    iterate 8 · simp
    · exact absurd rfl (hshort b7 b6 b5 b4 b3 b2 b1 b0 rest)

theorem padCodewords_length (n : Nat) : (padCodewords n).length = n := by simp [padCodewords]

/-- The stream with terminator and fill bits is no longer than a capacity of whole codewords that holds the stream. -/
theorem padToByte_withTerminator_length_le {n : Nat} {bb : Bits} (h : bb.length ≤ 8 * n) :
    (padToByte (withTerminator (8 * n) bb)).length ≤ 8 * n := by
  simp only [padToByte, withTerminator, List.length_append, zeroBits_length, Config.terminatorBits]
  omega

/-- A stream that fits is assembled into all the data codewords of the version and level. -/
theorem assemble_of_fits {cfg : Configuration} {segs : List Segment} {v : Nat} {e : Level}
    (h : requiredBits cfg segs v ≤ capacityBits cfg v e) :
    ∃ d, assemble cfg segs v e = some d ∧ d.length = dataCodewords cfg v e := by
  have hlen : (streamOf cfg segs v).length ≤ 8 * dataCodewords cfg v e := (streamOf_length cfg segs v).trans_le h
  have hpad := padToByte_withTerminator_length_le hlen
  refine ⟨_, if_neg (Nat.not_lt.2 hlen), ?_⟩
  simp only [List.length_append, padCodewords_length, codewordsOf_length, capacityBits]
  omega

/-! ### Divisors and remainders -/

theorem shiftIn_length {c : List Byte} (h : c ≠ []) : (shiftIn c).length = c.length := by
  have := List.length_pos_iff.2 h
  simp [shiftIn]
  omega

theorem divisorRound_length {c : List Byte} (h : c ≠ []) (root : Byte) : (divisorRound c root).length = c.length := by
  simp [divisorRound, shiftIn_length h]

theorem divisorRounds_length (i : Nat) :
    ∀ {c : List Byte} (root : Byte), c ≠ [] → (divisorRounds i c root).length = c.length := by
  induction i with
  | zero => intro c root _; rfl
  | succ i ih =>
    intro c root hc
    have hround := divisorRound_length hc root
    have hne : divisorRound c root ≠ [] := List.ne_nil_of_length_pos (hround ▸ List.length_pos_iff.2 hc)
    exact (ih _ hne).trans hround

/-- The divisor of degree d has d coefficients beside the leading 1 (41_reed_solomon.md R110). -/
theorem rsDivisor_length {d : Nat} (h : 1 ≤ d) : (rsDivisor d).length = d := by
  rw [rsDivisor, divisorRounds_length d _ (by simp)]
  simp
  omega

theorem remainderRound_length (c : List Byte) {rem : List Byte} (hc : c ≠ []) (h : rem.length = c.length) (b : Byte) :
    (remainderRound c rem b).length = c.length := by
  have hne : rem ≠ [] := List.ne_nil_of_length_pos (h ▸ List.length_pos_iff.2 hc)
  simp [remainderRound, shiftIn_length hne, h]

/-- A remainder has as many bytes as the divisor (41_reed_solomon.md R112). -/
theorem rsRemainder_length {c : List Byte} (hc : c ≠ []) (data : List Byte) : (rsRemainder c data).length = c.length := by
  have hfold : ∀ rem : List Byte, rem.length = c.length → (data.foldl (remainderRound c) rem).length = c.length := by
    induction data with
    | nil => exact fun _ h => h
    | cons b data ih => exact fun rem h => ih _ (remainderRound_length c hc h b)
  exact hfold _ List.length_replicate

/-! ### Blocks and interleaving -/

/-- Cutting gives every block its length where the data suffices. -/
theorem cutInto_lengths (ks : List Nat) :
    ∀ {data : List Byte}, ks.sum ≤ data.length → (cutInto ks data).map List.length = ks := by
  induction ks with
  | nil => intro data _; rfl
  | cons k ks ih =>
    intro data h
    simp only [List.sum_cons] at h
    have hrest : ks.sum ≤ (data.drop k).length := by rw [List.length_drop]; omega
    simp only [cutInto, List.map_cons, ih hrest, List.length_take, List.cons.injEq, and_true]
    omega

/-- Round R takes an item of every block longer than R. -/
theorem round_length (R : Nat) (blocks : List (List Byte)) :
    (blocks.map fun b => min R b.length).sum + (blocks.filterMap fun b => b[R]?).length =
      (blocks.map fun b => min (R + 1) b.length).sum := by
  induction blocks with
  | nil => rfl
  | cons b blocks ih =>
    by_cases h : R < b.length
    · simp [h] at ih ⊢; omega
    · simp [h, Nat.le_of_not_lt h] at ih ⊢; omega

/-- R rounds take the first R items of every block. -/
theorem roundRobin_length (R : Nat) (blocks : List (List Byte)) :
    (roundRobin R blocks).length = (blocks.map fun b => min R b.length).sum := by
  induction R with
  | zero => simp [roundRobin]
  | succ R ih =>
    rw [← round_length, ← ih]
    simp [roundRobin, List.range_succ]

/-- Enough rounds take every item. -/
theorem roundRobin_length_all {R : Nat} {blocks : List (List Byte)} (h : ∀ b ∈ blocks, b.length ≤ R) :
    (roundRobin R blocks).length = (blocks.map List.length).sum := by
  rw [roundRobin_length]
  exact congrArg List.sum (List.map_congr_left fun b hb => Nat.min_eq_right (h b hb))

/-- The table entries of version `v` and level `e` give a layout (44_codeword_assembler.md R185): blocks, each with ECC
codewords that leave room for data. -/
structure LayoutOk (cfg : Configuration) (v : Nat) (e : Level) : Prop where
  blocks : 0 < cfg.numBlocks e v
  ecc : 1 ≤ cfg.eccPerBlock e v
  room : cfg.eccPerBlock e v ≤ totalCodewords cfg v / cfg.numBlocks e v

section Layout
variable {cfg : Configuration} {v : Nat} {e : Level}

/-- The ECC codewords of all blocks are among the codewords of the version. -/
theorem LayoutOk.ecc_le_total (h : LayoutOk cfg v e) : cfg.eccPerBlock e v * cfg.numBlocks e v ≤ totalCodewords cfg v :=
  (Nat.le_div_iff_mul_le h.blocks).1 h.room

/-- Blocks of `a` items, one more from block `k` on. -/
theorem sum_range_lt_split {f : Nat → Nat} {k a : Nat} (hf : ∀ j, f j = if j < k then a else a + 1) (B : Nat) :
    ((List.range B).map f).sum = B * a + (B - k) := by
  induction B with
  | zero => simp
  | succ B ih =>
    rw [List.range_succ, List.map_append, List.sum_append, ih, List.map_singleton, List.sum_singleton, hf, Nat.succ_mul]
    split_ifs <;> omega

/-- The block lengths add up to the data codewords. -/
theorem LayoutOk.sum_blockDataLen (h : LayoutOk cfg v e) :
    ((List.range (cfg.numBlocks e v)).map (blockDataLen cfg v e)).sum = dataCodewords cfg v e := by
  obtain ⟨hB, _, hroom⟩ := h
  have hmod := Nat.mod_lt (totalCodewords cfg v) hB
  have hdiv := Nat.div_add_mod (totalCodewords cfg v) (cfg.numBlocks e v)
  have hle := Nat.mul_le_mul_left (cfg.numBlocks e v) hroom
  rw [sum_range_lt_split (f := blockDataLen cfg v e) (fun _ => rfl), shortBlocks, shortDataLen, Nat.mul_sub, dataCodewords,
    Nat.mul_comm (cfg.eccPerBlock e v)]
  omega

theorem blockDataLen_le (cfg : Configuration) (v : Nat) (e : Level) (j : Nat) :
    blockDataLen cfg v e j ≤ shortDataLen cfg v e + 1 := by
  unfold blockDataLen
  split <;> omega

/-- The data blocks have the lengths of the layout. -/
theorem LayoutOk.dataBlocks_lengths (h : LayoutOk cfg v e) {data : List Byte} (hd : data.length = dataCodewords cfg v e) :
    (dataBlocks cfg data v e).map List.length = (List.range (cfg.numBlocks e v)).map (blockDataLen cfg v e) :=
  cutInto_lengths _ (by rw [h.sum_blockDataLen, hd])

/-- `interleave` gives all the codewords of the version. -/
theorem LayoutOk.interleave_length (h : LayoutOk cfg v e) {data : List Byte} (hd : data.length = dataCodewords cfg v e) :
    (interleave cfg data v e).length = totalCodewords cfg v := by
  have hlens := h.dataBlocks_lengths hd
  have hdata : (roundRobin (shortDataLen cfg v e + 1) (dataBlocks cfg data v e)).length = dataCodewords cfg v e := by
    rw [roundRobin_length_all, hlens, h.sum_blockDataLen]
    intro b hb
    obtain ⟨j, -, hj⟩ := List.mem_map.1 (hlens ▸ List.mem_map_of_mem (f := List.length) hb)
    exact hj ▸ blockDataLen_le cfg v e j
  have hdiv : (rsDivisor (cfg.eccPerBlock e v)).length = cfg.eccPerBlock e v := rsDivisor_length h.ecc
  have hne : rsDivisor (cfg.eccPerBlock e v) ≠ [] := by
    rw [← List.length_pos_iff, hdiv]
    exact h.ecc
  have hecc : (roundRobin (cfg.eccPerBlock e v) (eccBlocks cfg data v e)).length = cfg.numBlocks e v * cfg.eccPerBlock e v := by
    have hrem : ∀ b ∈ eccBlocks cfg data v e, b.length = cfg.eccPerBlock e v := by
      intro b hb
      obtain ⟨block, -, rfl⟩ := List.mem_map.1 hb
      exact (rsRemainder_length hne block).trans hdiv
    have hcount : (eccBlocks cfg data v e).length = cfg.numBlocks e v := by
      simpa [eccBlocks] using congrArg List.length hlens
    rw [roundRobin_length_all fun b hb => (hrem b hb).le, List.map_congr_left hrem, List.map_const', List.sum_replicate,
      hcount, smul_eq_mul]
  have hle := h.ecc_le_total
  rw [interleave, List.length_append, hdata, hecc, dataCodewords, Nat.mul_comm (cfg.numBlocks e v)]
  omega

end Layout

end Sys2Proof.Machine
end

section
/-! PROOFS. The data modules of every version number `raw_modules(v)` (43_version_selector.md R161, 45_matrix_builder.md R208).
The walk is summed column by column. Outside the timing lines every module is exactly one of: a data module, a module of one of
three corners, a module of a version block, or a module of one alignment pattern; so a square of side n − 1 is the sum of their
rectangles. -/

namespace Sys2Proof.Machine

open Finset (range Ico Icc)

/-! ### The walk, column by column -/

/-- The modules of column `c` that meet `p`, among the first `n` rows. -/
def columnCount (n : Nat) (p : Nat × Nat → Bool) (c : Nat) : Nat := ∑ r ∈ range n, (p (r, c)).toNat

theorem countP_columnPair (n right : Nat) (p : Nat × Nat → Bool) :
    (columnPair n right).countP p = columnCount n p right + columnCount n p (right - 1) := by
  have hlist : ∀ g : Nat → Nat, ((List.range n).map g).sum = ∑ i ∈ range n, g i := fun _ => rfl
  have hpair : ∀ row : Nat, [(row, right), (row, right - 1)].countP p = (p (row, right)).toNat + (p (row, right - 1)).toNat := by
    intro row
    cases h1 : p (row, right) <;> cases h2 : p (row, right - 1) <;> simp [h1, h2]
  simp only [columnPair, List.countP_flatMap, Function.comp_def, hpair, hlist, columnCount, ← Finset.sum_add_distrib]
  split
  · exact Finset.sum_range_reflect (fun r => (p (r, right)).toNat + (p (r, right - 1)).toNat) n
  · rfl

/-- One column pair of the walk, column 6 apart. -/
theorem countP_zigzagFrom_succ (n fuel : Nat) {right : Nat} (p : Nat × Nat → Bool) (h1 : 1 ≤ right) (h6 : right ≠ 6) :
    (zigzagFrom n (fuel + 1) right).countP p =
      columnCount n p right + columnCount n p (right - 1) + (zigzagFrom n fuel (right - 2)).countP p := by
  rw [zigzagFrom, if_neg (by omega), if_neg h6, List.countP_append, countP_columnPair]

/-- At column 6 the walk goes on with column 5. -/
theorem zigzagFrom_six (n : Nat) : ∀ fuel, zigzagFrom n fuel 6 = zigzagFrom n fuel 5
  | 0 => rfl
  | _ + 1 => rfl

/-- From an odd column the walk visits every column from there on. -/
theorem countP_zigzagFrom_odd (n : Nat) (p : Nat × Nat → Bool) {m : Nat} :
    ∀ {fuel : Nat}, m < fuel → (zigzagFrom n fuel (2 * m + 1)).countP p = ∑ c ∈ range (2 * m + 2), columnCount n p c := by
  induction m with
  | zero =>
    intro fuel hf
    obtain ⟨fuel, rfl⟩ : ∃ k, fuel = k + 1 := ⟨fuel - 1, by omega⟩
    have hstop : zigzagFrom n fuel 0 = [] := by cases fuel <;> simp [zigzagFrom]
    rw [countP_zigzagFrom_succ n fuel p (by omega) (by omega), hstop, Finset.sum_range_succ, Finset.sum_range_one,
      List.countP_nil, Nat.add_comm (columnCount n p 0)]
    rfl
  | succ m ih =>
    intro fuel hf
    obtain ⟨fuel, rfl⟩ : ∃ k, fuel = k + 1 := ⟨fuel - 1, by omega⟩
    rw [countP_zigzagFrom_succ n fuel p (by omega) (by omega), show 2 * (m + 1) + 1 - 2 = 2 * m + 1 by omega, ih (by omega),
      show 2 * (m + 1) + 2 = 2 * m + 2 + 1 + 1 by omega, Finset.sum_range_succ _ (2 * m + 2 + 1),
      Finset.sum_range_succ _ (2 * m + 2), show 2 * (m + 1) + 1 = 2 * m + 2 + 1 by omega, Nat.add_sub_cancel]
    omega

/-- From an even column right of column 6 the walk visits every column from there on but column 6. -/
theorem countP_zigzagFrom_even (n : Nat) (p : Nat × Nat → Bool) {m : Nat} :
    ∀ {fuel : Nat}, m + 3 ≤ fuel →
      (zigzagFrom n fuel (2 * m + 6)).countP p = ∑ c ∈ (range (2 * m + 7)).erase 6, columnCount n p c := by
  induction m with
  | zero =>
    intro fuel hf
    rw [Nat.mul_zero, Nat.zero_add, zigzagFrom_six, countP_zigzagFrom_odd n p (m := 2) (by omega)]
    exact Finset.sum_congr (by decide) fun _ _ => rfl
  | succ m ih =>
    intro fuel hf
    obtain ⟨fuel, rfl⟩ : ∃ k, fuel = k + 1 := ⟨fuel - 1, by omega⟩
    have hsplit : (range (2 * (m + 1) + 7)).erase 6 =
        insert (2 * m + 8) (insert (2 * m + 7) ((range (2 * m + 7)).erase 6)) := by
      ext c
      simp
      omega
    rw [countP_zigzagFrom_succ n fuel p (by omega) (by omega), show 2 * (m + 1) + 6 - 2 = 2 * m + 6 by omega, ih (by omega),
      hsplit, Finset.sum_insert (by simp), Finset.sum_insert (by simp), Nat.add_assoc]
    rfl

/-- The coordinates off the timing line. -/
def offTiming (n : Nat) : Finset Nat := (range n).erase 6

/-- The data positions, counted column by column. -/
theorem dataPositions_length_columns (v : Nat) (f : Grid) :
    (dataPositions (Config.sideLength v) f).length =
      ∑ c ∈ offTiming (Config.sideLength v), ∑ r ∈ range (Config.sideLength v), (!moduleAt f r c).toNat := by
  have h := countP_zigzagFrom_even (Config.sideLength v) (fun p => !moduleAt f p.1 p.2) (m := 2 * v + 5)
    (fuel := Config.sideLength v) (by unfold Config.sideLength; omega)
  rw [dataPositions, ← List.countP_eq_length_filter, zigzag]
  have hn : Config.sideLength v = 2 * (2 * v + 5) + 7 := by unfold Config.sideLength; omega
  rw [show Config.sideLength v - 1 = 2 * (2 * v + 5) + 6 by omega, h, offTiming, ← hn]
  rfl

/-! ### Which modules the patterns draw -/

/-- A finder pattern draws the modules within 4 of its centre. -/
theorem finderShape_isSome (d : Nat) : (finderShape d).isSome ↔ d ≤ 4 := by
  unfold finderShape
  split <;> simp_all

/-- The finder patterns draw the three 8 × 8 corners (45_matrix_builder.md R203). -/
theorem finderAt_isSome {n r c : Nat} (hn : 21 ≤ n) (hr : r < n) (hc : c < n) :
    (finderAt n r c).isSome ↔ (r < 8 ∧ c < 8) ∨ (r < 8 ∧ n - 8 ≤ c) ∨ (n - 8 ≤ r ∧ c < 8) := by
  simp only [finderAt, finderCentres, List.findSome?_isSome_iff, List.mem_cons, List.not_mem_nil, or_false, exists_eq_or_imp,
    exists_eq_left, finderShape_isSome, distFrom, absDiff]
  omega

/-- The format modules and the dark module lie along row 8 and column 8 at the corners (45_matrix_builder.md R206, R208). -/
theorem formatAreaAt_isSome {n r c : Nat} (hn : 21 ≤ n) (hr : r < n) (hc : c < n) :
    (formatAreaAt n r c).isSome ↔
      (c = 8 ∧ (r < 9 ∧ r ≠ 6 ∨ n - 8 ≤ r)) ∨ (r = 8 ∧ (c < 9 ∧ c ≠ 6 ∨ n - 8 ≤ c)) := by
  unfold formatAreaAt formatBitAt
  split_ifs <;> simp <;> omega

/-- A row or column of one of the blocks of the version information (45_matrix_builder.md R207). -/
def versionSpan (n : Nat) : Finset Nat := Ico (n - 11) (n - 8)

/-- The version information draws two blocks of 6 × 3 modules (45_matrix_builder.md R207). -/
theorem versionAt_isSome (cfg : Configuration) (v r c : Nat) :
    (versionAt cfg v r c).isSome ↔ 7 ≤ v ∧
      ((r ∈ range 6 ∧ c ∈ versionSpan (Config.sideLength v)) ∨ (r ∈ versionSpan (Config.sideLength v) ∧ c ∈ range 6)) := by
  simp only [versionAt, versionBitAt, versionSpan, Finset.mem_range, Finset.mem_Ico]
  split_ifs <;> simp <;> omega

/-- Alignment position `i` of a list. -/
def alignPosition (ps : List Nat) (i : Nat) : Nat := ps.getD i 0

/-- The pairs of alignment positions that draw a pattern, for `k` positions (45_matrix_builder.md R205). -/
def alignPairs (k : Nat) : Finset (Nat × Nat) := (range k ×ˢ range k).filter fun ij => alignSkipped k ij.1 ij.2 = false

/-- The rows or columns an alignment pattern at `p` draws. -/
def alignSpan (p : Nat) : Finset Nat := Icc (p - 2) (p + 2)

theorem mem_alignNear (ps : List Nat) (x i : Nat) :
    i ∈ alignNear ps x ↔ i < ps.length ∧ x ∈ alignSpan (alignPosition ps i) := by
  rw [alignNear, List.mem_filter, List.mem_reverse, List.mem_range, decide_eq_true_iff, alignSpan, Finset.mem_Icc, alignPosition,
    absDiff]
  omega

/-- An alignment pattern draws a module where one of its pairs reaches it (45_matrix_builder.md R205). -/
theorem alignAt_isSome (cfg : Configuration) (v r c : Nat) :
    (alignAt cfg v r c).isSome ↔ ∃ ij ∈ alignPairs (cfg.alignPos v).length,
      r ∈ alignSpan (alignPosition (cfg.alignPos v) ij.1) ∧ c ∈ alignSpan (alignPosition (cfg.alignPos v) ij.2) := by
  simp only [alignAt, List.findSome?_isSome_iff, mem_alignNear, alignPairs, Finset.mem_filter, Finset.mem_product,
    Finset.mem_range, Prod.exists]
  constructor
  · rintro ⟨i, ⟨hi, hr⟩, j, ⟨hj, hc⟩, h⟩
    refine ⟨i, j, ⟨⟨hi, hj⟩, ?_⟩, hr, hc⟩
    by_contra hskip
    simp [hskip] at h
  · rintro ⟨i, j, ⟨⟨hi, hj⟩, hskip⟩, hr, hc⟩
    exact ⟨i, ⟨hi, hr⟩, j, ⟨hj, hc⟩, by simp [hskip]⟩

/-- What the alignment positions of a version keep: the first in line with the timing pattern, the last opposite the finder
patterns, every other one clear of the corners and the version information, and no two within reach of each other
(45_matrix_builder.md R204). -/
def AlignSpaced (n : Nat) (ps : List Nat) : Prop :=
  ∀ i < ps.length,
    (i = 0 → alignPosition ps i = 6) ∧ (i ≠ 0 → 16 ≤ alignPosition ps i) ∧
    (i = ps.length - 1 → alignPosition ps i + 7 = n) ∧ (i ≠ ps.length - 1 → alignPosition ps i + 14 ≤ n) ∧
    ∀ j < ps.length, i < j → alignPosition ps i + 5 ≤ alignPosition ps j

/-- The alignment positions of the versions, and how many there are (45_matrix_builder.md R204). -/
theorem alignPos_spaced : ∀ v ∈ Icc 1 40, AlignSpaced (Config.sideLength v) (alignPos v) ∧
    (alignPos v).length = if 2 ≤ v then v / 7 + 2 else 0 := by
  unfold AlignSpaced
  decide +kernel

/-! ### Every module off the timing lines, counted once -/

/-- The rows or columns of a corner at the origin, the timing line left out. -/
def nearSpan : Finset Nat := (range 9).erase 6

/-- The rows or columns of a corner at the far side. -/
def farSpan (n : Nat) : Finset Nat := Ico (n - 8) n

/-- 1 for a module of the rectangle of rows `A` and columns `B`, 0 for every other. -/
def inRect (A B : Finset Nat) (r c : Nat) : Nat := if r ∈ A ∧ c ∈ B then 1 else 0

/-- The rows or columns of alignment position `i`, the timing line left out. -/
def alignRows (ps : List Nat) (i : Nat) : Finset Nat := (alignSpan (alignPosition ps i)).erase 6

theorem sideLength_ge {v : Nat} (hv : 1 ≤ v) : 21 ≤ Config.sideLength v := by
  unfold Config.sideLength
  omega

/-- Off the timing lines the function modules are those of the corners, the version information and the alignment patterns. -/
theorem functionAt_isSome (cfg : Configuration) {v r c : Nat} (hv : 1 ≤ v) (hr : r ∈ offTiming (Config.sideLength v))
    (hc : c ∈ offTiming (Config.sideLength v)) :
    (functionAt cfg v r c).isSome ↔
      ((r < 9 ∧ c < 9) ∨ (r < 9 ∧ Config.sideLength v - 8 ≤ c) ∨ (Config.sideLength v - 8 ≤ r ∧ c < 9)) ∨
      (versionAt cfg v r c).isSome ∨ (alignAt cfg v r c).isSome := by
  obtain ⟨hr6, hr⟩ := Finset.mem_erase.1 hr
  obtain ⟨hc6, hc⟩ := Finset.mem_erase.1 hc
  rw [Finset.mem_range] at hr hc
  have hn := sideLength_ge hv
  have htiming : timingAt r c = none := by simp [timingAt, hr6, hc6]
  simp only [functionAt, Option.isSome_or, Bool.or_eq_true, htiming, Option.isSome_none, Bool.false_eq_true, or_false,
    finderAt_isSome hn hr hc, formatAreaAt_isSome hn hr hc]
  by_cases hversion : (versionAt cfg v r c).isSome <;> by_cases halign : (alignAt cfg v r c).isSome <;> simp [hversion, halign]
  omega

/-- Of the alignment patterns at most one draws a module. -/
theorem sum_alignRects {n : Nat} {ps : List Nat} (h : AlignSpaced n ps) {r c : Nat} (hr : r ≠ 6) (hc : c ≠ 6) :
    ∑ ij ∈ alignPairs ps.length, inRect (alignRows ps ij.1) (alignRows ps ij.2) r c =
      if ∃ ij ∈ alignPairs ps.length, r ∈ alignSpan (alignPosition ps ij.1) ∧ c ∈ alignSpan (alignPosition ps ij.2)
      then 1 else 0 := by
  have hunique : ∀ {x i j : Nat}, i < ps.length → j < ps.length → x ∈ alignSpan (alignPosition ps i) →
      x ∈ alignSpan (alignPosition ps j) → i = j := by
    intro x i j hi hj hxi hxj
    simp only [alignSpan, Finset.mem_Icc] at hxi hxj
    have hij := (h i hi).2.2.2.2 j hj
    have hji := (h j hj).2.2.2.2 i hi
    omega
  simp only [inRect, alignRows, Finset.mem_erase, hr, hc, ne_eq, not_false_eq_true, true_and, Finset.sum_boole, Nat.cast_id]
  split
  case isTrue hex =>
    obtain ⟨ij, hij, hspan⟩ := hex
    refine Finset.card_eq_one.2 ⟨ij, Finset.eq_singleton_iff_unique_mem.2 ⟨Finset.mem_filter.2 ⟨hij, hspan⟩, fun kl hkl => ?_⟩⟩
    obtain ⟨hkl, hspan'⟩ := Finset.mem_filter.1 hkl
    simp only [alignPairs, Finset.mem_filter, Finset.mem_product, Finset.mem_range] at hij hkl
    exact Prod.ext (hunique hkl.1.1 hij.1.1 hspan'.1 hspan.1) (hunique hkl.1.2 hij.1.2 hspan'.2 hspan.2)
  case isFalse hno =>
    exact Finset.card_eq_zero.2 (Finset.filter_eq_empty_iff.2 fun ij hij hspan => hno ⟨ij, hij, hspan⟩)

/-- An alignment pattern keeps clear of the corners and of the version information. -/
theorem alignRect_clear {n : Nat} {ps : List Nat} (h : AlignSpaced n ps) (hn : 21 ≤ n) {ij : Nat × Nat}
    (hij : ij ∈ alignPairs ps.length) {r c : Nat} (hr : r ∈ alignSpan (alignPosition ps ij.1))
    (hc : c ∈ alignSpan (alignPosition ps ij.2)) :
    ¬(r < 9 ∧ c < 9) ∧ ¬(r < 9 ∧ n - 11 ≤ c) ∧ ¬(n - 11 ≤ r ∧ c < 9) := by
  simp only [alignPairs, Finset.mem_filter, Finset.mem_product, Finset.mem_range, alignSkipped, Bool.or_eq_false_iff,
    Bool.and_eq_false_iff, beq_eq_false_iff_ne] at hij
  simp only [alignSpan, Finset.mem_Icc] at hr hc
  obtain ⟨⟨hi, hj⟩, hskip⟩ := hij
  obtain ⟨-, hi2, hi3, hi4, -⟩ := h ij.1 hi
  obtain ⟨-, hj2, hj3, hj4, -⟩ := h ij.2 hj
  omega

/-- Every module off the timing lines is a data module, or lies in one of the rectangles, and never both or in two. -/
theorem module_counted_once {cfg : Configuration} {v r c : Nat} (hv : 1 ≤ v)
    (hps : AlignSpaced (Config.sideLength v) (cfg.alignPos v)) (hr : r ∈ offTiming (Config.sideLength v))
    (hc : c ∈ offTiming (Config.sideLength v)) :
    (!(functionAt cfg v r c).isSome).toNat +
      (inRect nearSpan nearSpan r c + inRect nearSpan (farSpan (Config.sideLength v)) r c +
        inRect (farSpan (Config.sideLength v)) nearSpan r c) +
      (if 7 ≤ v then inRect (range 6) (versionSpan (Config.sideLength v)) r c +
        inRect (versionSpan (Config.sideLength v)) (range 6) r c else 0) +
      ∑ ij ∈ alignPairs (cfg.alignPos v).length, inRect (alignRows (cfg.alignPos v) ij.1) (alignRows (cfg.alignPos v) ij.2) r c
    = 1 := by
  have hn := sideLength_ge hv
  have hdrawn := functionAt_isSome cfg hv hr hc
  obtain ⟨hr6, hr⟩ := Finset.mem_erase.1 hr
  obtain ⟨hc6, hc⟩ := Finset.mem_erase.1 hc
  rw [sum_alignRects hps hr6 hc6]
  simp only [← alignAt_isSome]
  rw [versionAt_isSome] at hdrawn
  simp only [inRect, nearSpan, farSpan, versionSpan, Finset.mem_erase, Finset.mem_range, Finset.mem_Ico] at hdrawn hr hc ⊢
  by_cases halign : (alignAt cfg v r c).isSome
  · obtain ⟨ij, hij, hrow, hcol⟩ := (alignAt_isSome cfg v r c).1 halign
    obtain ⟨hnear, hright, hbelow⟩ := alignRect_clear hps hn hij hrow hcol
    rw [if_pos halign, hdrawn.2 (.inr (.inr halign)), Bool.not_true, Bool.toNat_false]
    split_ifs <;> omega
  · rw [or_iff_left halign] at hdrawn
    by_cases hd : (functionAt cfg v r c).isSome
    · have hplace := hdrawn.1 hd
      rw [if_neg halign, hd, Bool.not_true, Bool.toNat_false]
      split_ifs <;> omega
    · have hplace := mt hdrawn.2 hd
      rw [if_neg halign, Bool.eq_false_iff.2 hd, Bool.not_false, Bool.toNat_true]
      split_ifs <;> omega

/-! ### The sum of the rectangles -/

/-- The modules of a rectangle within a square. -/
theorem sum_inRect {M A B : Finset Nat} (hA : A ⊆ M) (hB : B ⊆ M) :
    ∑ c ∈ M, ∑ r ∈ M, inRect A B r c = A.card * B.card := by
  have hrow : ∀ c, ∑ r ∈ M, inRect A B r c = if c ∈ B then A.card else 0 := by
    intro c
    by_cases hc : c ∈ B
    · simp [inRect, hc, Finset.inter_eq_right.2 hA]
    · simp [inRect, hc]
  simp [hrow, Finset.sum_ite_mem, Finset.inter_eq_right.2 hB, Nat.mul_comm]

/-- The rectangle of an alignment position has five rows, or the four beside the timing line. -/
theorem alignRows_card {n : Nat} {ps : List Nat} (h : AlignSpaced n ps) {i : Nat} (hi : i < ps.length) :
    (alignRows ps i).card = if i = 0 then 4 else 5 := by
  obtain ⟨hfirst, hlater, -⟩ := h i hi
  have hfive : (alignSpan (alignPosition ps i)).card = 5 := by
    rw [alignSpan, Nat.card_Icc]
    omega
  split
  case isTrue h0 =>
    rw [alignRows, Finset.card_erase_of_mem, hfive]
    simp [alignSpan, hfirst h0]
  case isFalse h0 =>
    rw [alignRows, Finset.erase_eq_of_notMem, hfive]
    have := hlater h0
    simp [alignSpan]
    omega

/-- The modules of the alignment patterns of `k` positions, those on the timing lines left out, by the formula of `raw_modules`
(43_version_selector.md R161). -/
theorem sum_alignRows_card : ∀ k ∈ Icc 2 7,
    ∑ ij ∈ alignPairs k, (if ij.1 = 0 then 4 else 5) * (if ij.2 = 0 then 4 else 5) = (25 * k - 10) * k - 55 := by
  decide

theorem subset_offTiming {n : Nat} {A : Finset Nat} (h : ∀ x ∈ A, x ≠ 6 ∧ x < n) : A ⊆ offTiming n :=
  fun x hx => Finset.mem_erase.2 ((h x hx).imp_right Finset.mem_range.2)

theorem alignRows_subset {n : Nat} {ps : List Nat} (h : AlignSpaced n ps) (hn : 21 ≤ n) {i : Nat} (hi : i < ps.length) :
    alignRows ps i ⊆ offTiming n := by
  refine subset_offTiming fun x hx => ?_
  obtain ⟨-, -, hlast, hbefore, -⟩ := h i hi
  simp only [alignRows, alignSpan, Finset.mem_erase, Finset.mem_Icc] at hx
  omega

/-- The alignment patterns of version `v` outside the timing lines (43_version_selector.md R161). -/
theorem sum_alignRects_total {v : Nat} (hv : v ∈ Icc 1 40) :
    (∑ c ∈ offTiming (Config.sideLength v), ∑ r ∈ offTiming (Config.sideLength v), ∑ ij ∈ alignPairs (alignPos v).length,
      inRect (alignRows (alignPos v) ij.1) (alignRows (alignPos v) ij.2) r c) =
      if 2 ≤ v then (25 * (v / 7 + 2) - 10) * (v / 7 + 2) - 55 else 0 := by
  obtain ⟨hps, hk⟩ := alignPos_spaced v hv
  have hv' := Finset.mem_Icc.1 hv
  have hn := sideLength_ge hv'.1
  have hrect : ∀ ij ∈ alignPairs (alignPos v).length,
      ∑ c ∈ offTiming (Config.sideLength v), ∑ r ∈ offTiming (Config.sideLength v),
        inRect (alignRows (alignPos v) ij.1) (alignRows (alignPos v) ij.2) r c =
      (if ij.1 = 0 then 4 else 5) * (if ij.2 = 0 then 4 else 5) := by
    intro ij hij
    simp only [alignPairs, Finset.mem_filter, Finset.mem_product, Finset.mem_range] at hij
    obtain ⟨⟨hi, hj⟩, -⟩ := hij
    rw [sum_inRect (alignRows_subset hps hn hi) (alignRows_subset hps hn hj), alignRows_card hps hi, alignRows_card hps hj]
  calc
    _ = ∑ ij ∈ alignPairs (alignPos v).length, ∑ c ∈ offTiming (Config.sideLength v), ∑ r ∈ offTiming (Config.sideLength v),
          inRect (alignRows (alignPos v) ij.1) (alignRows (alignPos v) ij.2) r c := by
      exact (Finset.sum_congr rfl fun _ _ => Finset.sum_comm).trans Finset.sum_comm
    _ = ∑ ij ∈ alignPairs (alignPos v).length, (if ij.1 = 0 then 4 else 5) * (if ij.2 = 0 then 4 else 5) :=
      Finset.sum_congr rfl hrect
    _ = _ := by
      rw [hk]
      split
      · exact sum_alignRows_card _ (Finset.mem_Icc.2 (by omega))
      · rfl

/-- The square off the timing lines is the data modules and the rectangles. -/
theorem square_eq_data_add_rects {v : Nat} (hv : v ∈ Icc 1 40) :
    (Config.sideLength v - 1) * (Config.sideLength v - 1) =
      (∑ c ∈ offTiming (Config.sideLength v), ∑ r ∈ offTiming (Config.sideLength v),
        (!(functionAt specConfig v r c).isSome).toNat) +
      192 + (if 7 ≤ v then 36 else 0) + (if 2 ≤ v then (25 * (v / 7 + 2) - 10) * (v / 7 + 2) - 55 else 0) := by
  have hv' := Finset.mem_Icc.1 hv
  have hn := sideLength_ge hv'.1
  have hcard : (offTiming (Config.sideLength v)).card = Config.sideLength v - 1 := by
    rw [offTiming, Finset.card_erase_of_mem (Finset.mem_range.2 (by omega)), Finset.card_range]
  have hnear : nearSpan ⊆ offTiming (Config.sideLength v) := subset_offTiming fun x hx => by
    simp only [nearSpan, Finset.mem_erase, Finset.mem_range] at hx
    omega
  have hsix : range 6 ⊆ offTiming (Config.sideLength v) := subset_offTiming fun x hx => by
    rw [Finset.mem_range] at hx
    omega
  have hfar : farSpan (Config.sideLength v) ⊆ offTiming (Config.sideLength v) := subset_offTiming fun x hx => by
    rw [farSpan, Finset.mem_Ico] at hx
    omega
  have hversion : versionSpan (Config.sideLength v) ⊆ offTiming (Config.sideLength v) := subset_offTiming fun x hx => by
    rw [versionSpan, Finset.mem_Ico] at hx
    omega
  have hfarCard : (farSpan (Config.sideLength v)).card = 8 := by
    rw [farSpan, Nat.card_Ico]
    omega
  have hversionCard : (versionSpan (Config.sideLength v)).card = 3 := by
    rw [versionSpan, Nat.card_Ico]
    omega
  have hnearCard : nearSpan.card = 8 := rfl
  have hone : ∑ c ∈ offTiming (Config.sideLength v), ∑ r ∈ offTiming (Config.sideLength v), 1 =
      (Config.sideLength v - 1) * (Config.sideLength v - 1) := by
    simp [hcard]
  rw [← hone, ← sum_alignRects_total hv, ← Finset.sum_congr rfl fun c hc => Finset.sum_congr rfl fun r hr =>
    module_counted_once (cfg := specConfig) hv'.1 (alignPos_spaced v hv).1 hr hc]
  simp only [Finset.sum_add_distrib, sum_inRect hnear hnear, sum_inRect hnear hfar, sum_inRect hfar hnear, hnearCard, hfarCard,
    specConfig_alignPos]
  split
  · simp only [Finset.sum_add_distrib, sum_inRect hsix hversion, sum_inRect hversion hsix, hversionCard, Finset.card_range]
  · simp

/-- Every module of the horizontal timing line is a function module (45_matrix_builder.md R202). -/
theorem functionAt_timing_row (cfg : Configuration) (v c : Nat) : (functionAt cfg v 6 c).isSome = true := by
  simp [functionAt, timingAt]

/-- For every version the data modules number `raw_modules(v)` (43_version_selector.md R161, 45_matrix_builder.md R208). -/
theorem dataPositions_length {v : Nat} (hv : v ∈ Icc 1 40) :
    (dataPositions (Config.sideLength v) (functionMap specConfig v)).length = rawModules v := by
  have hsquare := square_eq_data_add_rects hv
  have hcolumns := dataPositions_length_columns v (functionMap specConfig v)
  have hrows : ∀ c ∈ offTiming (Config.sideLength v),
      ∑ r ∈ range (Config.sideLength v), (!moduleAt (functionMap specConfig v) r c).toNat =
      ∑ r ∈ offTiming (Config.sideLength v), (!(functionAt specConfig v r c).isSome).toNat := by
    intro c hc
    have hc := Finset.mem_range.1 (Finset.mem_erase.1 hc).2
    rw [offTiming, Finset.sum_erase _ (by rw [functionAt_timing_row]; rfl)]
    exact Finset.sum_congr rfl fun r hr => by rw [moduleAt_functionMap specConfig (Finset.mem_range.1 hr) hc]
  rw [hcolumns, Finset.sum_congr rfl hrows]
  have hroot : (Config.sideLength v - 1) * (Config.sideLength v - 1) = (16 * v + 128) * v + 64 + 192 := by
    rw [Config.sideLength, Nat.add_sub_assoc (by decide)]
    ring
  rw [hroot] at hsquare
  simp only [rawModules]
  split_ifs at hsquare ⊢ <;> omega

end Sys2Proof.Machine
end

section
/-! PROOFS. What the spec's tables keep at the versions 1 to 40 (43_version_selector.md R161 to R163), and what no version
holds. -/

namespace Sys2Proof.Machine

/-- The tables of a configuration agree with each other at every version (what 60_exceptions.md R264 needs of them): a layout for
every level, and as many data modules as `raw_modules` says, with registers wide enough for the codewords. -/
structure TablesAgree (cfg : Configuration) : Prop where
  layout : ∀ v e, 1 ≤ v → v ≤ 40 → LayoutOk cfg v e
  total : ∀ v, 1 ≤ v → v ≤ 40 → totalCodewords cfg v < 2 ^ 12
  positions : ∀ v, 1 ≤ v → v ≤ 40 →
    (dataPositions (Config.sideLength v) (functionMap cfg v)).length = cfg.rawModules v

/-- A property of every version and level, checked version by version. -/
theorem forall_version_level {P : Nat → Level → Prop}
    (h : ∀ v ∈ Finset.Icc 1 40, P v .low ∧ P v .medium ∧ P v .quartile ∧ P v .high)
    (v : Nat) (e : Level) (h1 : 1 ≤ v) (h40 : v ≤ 40) : P v e := by
  obtain ⟨hl, hm, hq, hh⟩ := h v (Finset.mem_Icc.2 ⟨h1, h40⟩)
  cases e
  · exact hl
  · exact hm
  · exact hq
  · exact hh

theorem specConfig_layout : ∀ v e, 1 ≤ v → v ≤ 40 → 0 < numBlocks e v ∧ 1 ≤ eccPerBlock e v ∧
    eccPerBlock e v ≤ totalCodewords specConfig v / numBlocks e v :=
  forall_version_level (by decide +kernel)

theorem specConfig_total : ∀ v ∈ Finset.Icc 1 40, totalCodewords specConfig v < 2 ^ 12 := by decide +kernel

/-- The spec's tables agree, whatever the capacities. -/
theorem specTables_agree (c : Capacities) : TablesAgree (specConfig.withCapacities c) where
  layout v e h1 h40 := by
    obtain ⟨hblocks, hecc, hroom⟩ := specConfig_layout v e h1 h40
    exact ⟨hblocks, hecc, hroom⟩
  total v h1 h40 := specConfig_total v (Finset.mem_Icc.2 ⟨h1, h40⟩)
  positions v h1 h40 := dataPositions_length (Finset.mem_Icc.2 ⟨h1, h40⟩)

/-- No version at any level holds more than version 40 at Low (43_version_selector.md R163), and no version at any level holds
7091 digits with a mode indicator and length field. -/
theorem dataCodewords_bounds : ∀ v e, 1 ≤ v → v ≤ 40 → dataCodewords specConfig v e ≤ 2956 ∧
    ∀ m ∈ [Mode.numeric, .alphanumeric, .byte], 8 * dataCodewords specConfig v e < 4 + ccbits (modeIndicator m) v + 23637 :=
  forall_version_level (by decide +kernel)

/-- No mode packs 7091 bytes in fewer bits than digits. -/
theorem payloadLen_ge {m : Mode} {count : Nat} (h : 7090 < count) : 23637 ≤ payloadLen m count := by
  cases m with
  | numeric =>
    simp only [payloadLen]
    split_ifs <;> omega
  | alphanumeric =>
    simp only [payloadLen]
    omega
  | byte =>
    simp only [payloadLen]
    omega

/-- More bytes than the least `IBUF_CAP` fit no version, in any mode (00_scope.md R7). -/
theorem overlong_input_fits_no_version {m : Mode} {count v : Nat} {e : Level} (h1 : 1 ≤ v) (h40 : v ≤ 40) (h : 7090 < count) :
    8 * dataCodewords specConfig v e < 4 + ccbits (modeIndicator m) v + payloadLen m count := by
  have hdigits := (dataCodewords_bounds v e h1 h40).2 m (by cases m <;> decide)
  have hpayload := payloadLen_ge (m := m) h
  omega

theorem payload_le_requiredBits (cfg : Configuration) (segs : List Segment) (v : Nat) :
    (segs.map fun sg => sg.blen.toNat).sum ≤ requiredBits cfg segs v :=
  List.sum_le_sum fun _ _ => Nat.le_add_left _ _

/-- More payload than the least `SBIT_CAP` fits no version (00_scope.md R7). -/
theorem overlong_store_fits_no_version {segs : List Segment} {v : Nat} {e : Level} (h1 : 1 ≤ v) (h40 : v ≤ 40)
    (h : 23648 < (segs.map fun sg => sg.blen.toNat).sum) :
    8 * dataCodewords specConfig v e < requiredBits specConfig segs v := by
  have hmost := (dataCodewords_bounds v e h1 h40).1
  have hpayload := payload_le_requiredBits specConfig segs v
  omega

end Sys2Proof.Machine
end

section
/-! PROOFS. The invariant of the PIPE unit along the stages (10_state.md R33, R48): what collecting segments and each of the six
stage commands keeps, one lemma per stage. `ENCODE` commits the unit that the six give one after another. -/

namespace Sys2Proof.Machine

variable {cfg : Configuration} {p : PipeUnit}

/-! ### Stage 0 and the six stages after it -/

theorem PipeUnit.reset_invFor (cfg : Configuration) : PipeUnit.reset.InvFor cfg := by
  constructor <;> simp [PipeUnit.reset]

/-- Collecting input and segments. -/
theorem PipeUnit.InvFor.collect (h : p.InvFor cfg) (hst : p.stage = 0#3) {ibuf : List Byte} {ilen : BitVec 16}
    {segs : List Segment} {nseg : BitVec 8} {sbits : BitVec 24}
    (hinput : ibuf.length = ilen.toNat ∧ ilen.toNat ≤ cfg.capacities.ibufCap)
    (hstore : segs.length = nseg.toNat ∧ nseg.toNat ≤ cfg.capacities.nsegMax)
    (hbits : sbits.toNat = (segs.map fun sg => sg.blen.toNat).sum ∧ sbits.toNat ≤ cfg.capacities.sbitCap)
    (hsegs : ∀ sg ∈ segs, SegmentOk cfg sg) :
    { p with ibuf := ibuf, ilen := ilen, segs := segs, nseg := nseg, sbits := sbits : PipeUnit }.InvFor cfg :=
  { h with
    inputSize := hinput
    storeSize := hstore
    storeBits := hbits
    segments := hsegs
    version := by simp [hst] }

/-- Stage 0 to 1: a version and level whose capacity holds the segments. -/
theorem PipeUnit.InvFor.selectVersion (h : p.InvFor cfg) (hst : p.stage = 0#3) {ver : BitVec 6} {ecl : BitVec 2}
    (hver : 1 ≤ ver.toNat ∧ ver.toNat ≤ 40 ∧ requiredBits cfg p.segs ver.toNat ≤ capacityBits cfg ver.toNat (levelOfBits ecl)) :
    { p with ver := ver, ecl := ecl, stage := 1 : PipeUnit }.InvFor cfg :=
  have hst : p.stage.toNat = 0 := congrArg BitVec.toNat hst
  { h with
    stageLegal := by simp
    noVersion := by simp
    version := fun _ => hver
    noData := fun _ => h.noData (by omega)
    data := by simp
    noCodewords := fun _ => h.noCodewords (by omega)
    codewords := by simp
    noGrid := fun _ => h.noGrid (by omega)
    gridSize := by simp
    gridPatterns := by simp
    noRemainder := fun _ => h.noRemainder (by omega)
    remainder := by simp
    noMask := fun _ => h.noMask (by omega) }

/-- Stage 1 to 2: the data codewords. -/
theorem PipeUnit.InvFor.storeData (h : p.InvFor cfg) (hst : p.stage = 1#3) {dbuf : List Byte} {dlen : BitVec 12}
    (hsize : dbuf.length = dlen.toNat) (hlen : dlen.toNat = dataCodewords cfg p.ver.toNat (levelOfBits p.ecl)) :
    { p with dbuf := dbuf, dlen := dlen, stage := 2 : PipeUnit }.InvFor cfg :=
  have hst : p.stage.toNat = 1 := congrArg BitVec.toNat hst
  { h with
    stageLegal := by simp
    noVersion := by simp
    version := fun _ => h.version (by omega)
    noData := by simp
    data := fun _ => hlen
    dataSize := hsize
    noCodewords := fun _ => h.noCodewords (by omega)
    codewords := by simp
    noGrid := fun _ => h.noGrid (by omega)
    gridSize := by simp
    gridPatterns := by simp
    noRemainder := fun _ => h.noRemainder (by omega)
    remainder := by simp
    noMask := fun _ => h.noMask (by omega) }

/-- Stage 2 to 3: the final codeword sequence. -/
theorem PipeUnit.InvFor.storeCodewords (h : p.InvFor cfg) (hst : p.stage = 2#3) {obuf : List Byte} {olen : BitVec 12}
    (hsize : obuf.length = olen.toNat) (hlen : olen.toNat = totalCodewords cfg p.ver.toNat) :
    { p with obuf := obuf, olen := olen, stage := 3 : PipeUnit }.InvFor cfg :=
  have hst : p.stage.toNat = 2 := congrArg BitVec.toNat hst
  { h with
    stageLegal := by simp
    noVersion := by simp
    version := fun _ => h.version (by omega)
    noData := by simp
    data := fun _ => h.data (by omega)
    noCodewords := by simp
    codewords := fun _ => hlen
    codewordsSize := hsize
    noGrid := fun _ => h.noGrid (by omega)
    gridSize := by simp
    gridPatterns := by simp
    noRemainder := fun _ => h.noRemainder (by omega)
    remainder := by simp
    noMask := fun _ => h.noMask (by omega) }

/-- Stage 3 to 4: the function patterns of the version. -/
theorem PipeUnit.InvFor.drawPatterns (h : p.InvFor cfg) (hst : p.stage = 3#3) {size : BitVec 8}
    (hsize : size.toNat = Config.sideLength p.ver.toNat) :
    { p with
      grid := functionGrid cfg p.ver.toNat, func := functionMap cfg p.ver.toNat, size := size
      stage := 4 : PipeUnit }.InvFor cfg :=
  have hst : p.stage.toNat = 3 := congrArg BitVec.toNat hst
  { h with
    stageLegal := by simp
    noVersion := by simp
    version := fun _ => h.version (by omega)
    noData := by simp
    data := fun _ => h.data (by omega)
    noCodewords := by simp
    codewords := fun _ => h.codewords (by omega)
    noGrid := by simp
    gridSize := fun _ => ⟨hsize, hsize ▸ gridOf_square _ _⟩
    gridPatterns := fun _ => ⟨rfl, functionGrid_keepsPatterns cfg _⟩
    noRemainder := fun _ => h.noRemainder (by omega)
    remainder := by simp
    noMask := fun _ => h.noMask (by omega) }

/-- Stage 4 to 5: a grid that holds the codewords, the function patterns as they were. -/
theorem PipeUnit.InvFor.placeCodewords (h : p.InvFor cfg) (hst : p.stage = 4#3) {grid : Grid} {rem : BitVec 3}
    (hsquare : IsSquare p.size.toNat grid) (hkeeps : KeepsPatterns cfg p.ver.toNat grid)
    (hrem : rem.toNat = cfg.rawModules p.ver.toNat - 8 * p.olen.toNat) :
    { p with grid := grid, rem := rem, stage := 5 : PipeUnit }.InvFor cfg :=
  have hst : p.stage.toNat = 4 := congrArg BitVec.toNat hst
  { h with
    stageLegal := by simp
    noVersion := by simp
    version := fun _ => h.version (by omega)
    noData := by simp
    data := fun _ => h.data (by omega)
    noCodewords := by simp
    codewords := fun _ => h.codewords (by omega)
    noGrid := by simp
    gridSize := fun _ => ⟨(h.gridSize (by omega)).1, hsquare⟩
    gridPatterns := fun _ => ⟨(h.gridPatterns (by omega)).1, hkeeps⟩
    noRemainder := by simp
    remainder := fun _ => hrem
    noMask := fun _ => h.noMask (by omega) }

/-- Stage 5 to 6: the masked grid, the function patterns but the format modules as they were. -/
theorem PipeUnit.InvFor.applyMask (h : p.InvFor cfg) (hst : p.stage = 5#3) {grid : Grid} (mask : BitVec 3)
    (hsquare : IsSquare p.size.toNat grid) (hkeeps : KeepsPatterns cfg p.ver.toNat grid) :
    { p with grid := grid, mask := mask, stage := 6 : PipeUnit }.InvFor cfg :=
  have hst : p.stage.toNat = 5 := congrArg BitVec.toNat hst
  { h with
    stageLegal := by simp
    noVersion := by simp
    version := fun _ => h.version (by omega)
    noData := by simp
    data := fun _ => h.data (by omega)
    noCodewords := by simp
    codewords := fun _ => h.codewords (by omega)
    noGrid := by simp
    gridSize := fun _ => ⟨(h.gridSize (by omega)).1, hsquare⟩
    gridPatterns := fun _ => ⟨(h.gridPatterns (by omega)).1, hkeeps⟩
    noRemainder := by simp
    remainder := fun _ => h.remainder (by omega)
    noMask := by simp }

/-! ### Grids that keep the function patterns (45_matrix_builder.md R225) -/

/-- No data position is a function module. -/
theorem moduleAt_of_mem_dataPositions {n r c : Nat} {f : Grid} (h : (r, c) ∈ dataPositions n f) : moduleAt f r c = false := by
  simpa using (List.mem_filter.1 h).2

theorem KeepsPatterns.gridPart {v : Nat} {g : Grid} (h : KeepsPatterns cfg v g) :
    KeepsPatterns cfg v (gridPart (Config.sideLength v) g) := by
  intro r c d hr hc hd hformat
  rw [moduleAt_gridPart g hr hc]
  exact h r c d hr hc hd hformat

/-- Placement writes data modules only. -/
theorem KeepsPatterns.placeBits {v : Nat} {g : Grid} (h : KeepsPatterns cfg v g) (bits : Bits) :
    KeepsPatterns cfg v (placeBits g (dataPositions (Config.sideLength v) (functionMap cfg v)) bits) := by
  intro r c d hr hc hd hformat
  rw [moduleAt_placeBits_other]
  · exact h r c d hr hc hd hformat
  · intro hmem
    have hlight := moduleAt_of_mem_dataPositions (List.mem_of_mem_take hmem)
    rw [moduleAt_functionMap cfg hr hc, hd] at hlight
    cases hlight

/-- A trial changes data modules and format modules only. -/
theorem KeepsPatterns.trial {v : Nat} {g : Grid} (h : KeepsPatterns cfg v g) (e : Level) (k : Nat) :
    KeepsPatterns cfg v (trial cfg (Config.sideLength v) g (functionMap cfg v) e k) := by
  intro r c d hr hc hd hformat
  rw [moduleAt_trial_function cfg e k hr hc hformat (by rw [moduleAt_functionMap cfg hr hc, hd]; rfl)]
  exact h r c d hr hc hd hformat

/-! ### The internal checks (60_exceptions.md R264) -/

/-- With a codeword for every eight data modules the check of `PLACE` passes. -/
theorem placementMismatch_div_eight (m : Nat) : placementMismatch m (m / 8) = false := by
  simp only [placementMismatch, Bool.or_eq_false_iff, decide_eq_false_iff_not]
  omega

theorem sideLength_lt {v : Nat} (h : v ≤ 40) : Config.sideLength v < 2 ^ 8 := by
  unfold Config.sideLength
  omega

theorem toNat_ofNat_eq {w n : Nat} (h : n < 2 ^ w) : (BitVec.ofNat w n).toNat = n := by
  rw [BitVec.toNat_ofNat, Nat.mod_eq_of_lt h]

theorem levelOfBits_levelBits (e : Level) : levelOfBits (levelBits e) = e := by cases e <;> rfl

end Sys2Proof.Machine
end

section
/-! PROOFS. Every command, in every core of legal capacities whose tables agree, keeps the invariant and halts no running core
(10_state.md R31, R48, 60_exceptions.md R264). -/

namespace Sys2Proof.Machine

/-- `t` meets the invariant, and is not halted if `s` is not. -/
def KeepsFrom (cfg : Configuration) (s t : State) : Prop := t.InvFor cfg ∧ (s.halt = 0#1 → t.halt = 0#1)

section Outcomes
variable {cfg : Configuration} {s : State}

theorem keepsFrom_respond (hs : s.InvFor cfg) (v : BitVec 24) : KeepsFrom cfg s (respond v s) :=
  ⟨⟨hs.rs, hs.pipe, hs.haltFlag⟩, id⟩

theorem keepsFrom_respond_rs (hs : s.InvFor cfg) (v : BitVec 24) {u : RsUnit} (hu : u.InvFor cfg) :
    KeepsFrom cfg s (respond v { s with rs := u }) := ⟨⟨hu, hs.pipe, hs.haltFlag⟩, id⟩

theorem keepsFrom_respond_pipe (hs : s.InvFor cfg) (v : BitVec 24) {p : PipeUnit} (hp : p.InvFor cfg) :
    KeepsFrom cfg s (respond v { s with pipe := p }) := ⟨⟨hs.rs, hp, hs.haltFlag⟩, id⟩

/-- An error that is no failed internal check sets a flag and nothing else. -/
theorem keepsFrom_raise (hs : s.InvFor cfg) {k : ErrKind} (hk : k ≠ .internalInvariant) : KeepsFrom cfg s (raise k s) := by
  have hhalt : (raise k s).halt = s.halt := (haltAfter_cases k s.halt).resolve_right fun h => hk h.1
  refine ⟨⟨hs.rs, hs.pipe, fun h => ?_⟩, fun h => hhalt.trans h⟩
  have hflag := hs.haltFlag (hhalt ▸ h)
  simp [setFlag, hflag]

/-- A check that fails with such an error, or lets the command go on. -/
theorem keepsFrom_unless (hs : s.InvFor cfg) {k : ErrKind} (hk : k ≠ .internalInvariant) {c : Prop} [Decidable c] {t : State}
    (h : ¬c → KeepsFrom cfg s t) : KeepsFrom cfg s (if c then raise k s else t) := by
  split
  case isTrue => exact keepsFrom_raise hs hk
  case isFalse hc => exact h hc

theorem keepsFrom_whenRunning (hs : s.InvFor cfg) {body : State → State} (h : KeepsFrom cfg s (body s)) :
    KeepsFrom cfg s (whenRunning body s) := by
  rcases whenRunning_cases body s with ⟨_, heq⟩ | ⟨_, heq⟩
  · exact heq ▸ h
  · exact heq ▸ ⟨⟨hs.rs, hs.pipe, hs.haltFlag⟩, id⟩

/-- `RESET` and `NEWSYM` leave units as after reset. -/
theorem RsUnit.reset_invFor (cfg : Configuration) : RsUnit.reset.InvFor cfg := by
  constructor <;> simp [RsUnit.reset]

theorem State.reset_invFor (cfg : Configuration) : State.reset.InvFor cfg :=
  ⟨RsUnit.reset_invFor cfg, PipeUnit.reset_invFor cfg, by simp [State.reset]⟩

theorem hardReset_keepsFrom (cfg : Configuration) (s : State) : KeepsFrom cfg s (respond 0 (hardReset s)) :=
  ⟨⟨RsUnit.reset_invFor cfg, PipeUnit.reset_invFor cfg, by simp⟩, fun _ => rfl⟩

/-! ### Reads -/

theorem getr_keepsFrom (hs : s.InvFor cfg) (sel : BitVec 16) : KeepsFrom cfg s (getr sel s) := by
  unfold getr
  split
  · exact keepsFrom_respond hs _
  · exact keepsFrom_raise hs (by decide)

theorem gete_keepsFrom (hs : s.InvFor cfg) (idx : BitVec 16) : KeepsFrom cfg s (gete idx s) :=
  keepsFrom_unless hs (by decide) fun _ => keepsFrom_respond hs _

theorem getg_keepsFrom (hs : s.InvFor cfg) (idx : BitVec 16) : KeepsFrom cfg s (getg idx s) :=
  keepsFrom_unless hs (by decide) fun _ => keepsFrom_respond hs _

theorem getseg_keepsFrom (hs : s.InvFor cfg) (idx : BitVec 8) (k : BitVec 16) : KeepsFrom cfg s (getseg idx k s) := by
  refine keepsFrom_unless hs (by decide) fun _ => ?_
  split
  · exact keepsFrom_respond hs _
  · exact keepsFrom_raise hs (by decide)

theorem getsb_keepsFrom (hs : s.InvFor cfg) (idx : BitVec 8) (k : BitVec 16) : KeepsFrom cfg s (getsb idx k s) :=
  keepsFrom_unless hs (by decide) fun _ => keepsFrom_unless hs (by decide) fun _ => keepsFrom_respond hs _

theorem getd_keepsFrom (hs : s.InvFor cfg) (idx : BitVec 16) : KeepsFrom cfg s (getd idx s) :=
  keepsFrom_unless hs (by decide) fun _ => keepsFrom_respond hs _

theorem geto_keepsFrom (hs : s.InvFor cfg) (idx : BitVec 16) : KeepsFrom cfg s (geto idx s) :=
  keepsFrom_unless hs (by decide) fun _ => keepsFrom_respond hs _

theorem getm_keepsFrom (hs : s.InvFor cfg) (row col : Byte) : KeepsFrom cfg s (getm row col s) :=
  keepsFrom_unless hs (by decide) fun _ => keepsFrom_respond hs _

/-! ### The GF and RS units -/

theorem gfmul_keepsFrom (hs : s.InvFor cfg) (x y : Byte) : KeepsFrom cfg s (gfmul x y s) :=
  ⟨⟨hs.rs, hs.pipe, hs.haltFlag⟩, id⟩

theorem rsinit_keepsFrom (hs : s.InvFor cfg) (idx : BitVec 16) : KeepsFrom cfg s (rsinit idx s) := by
  refine keepsFrom_unless hs (by decide) fun hidx => keepsFrom_respond_rs hs _ ?_
  have hdeg : (idx.setWidth 8).toNat = idx.toNat := by
    rw [BitVec.toNat_setWidth, Nat.mod_eq_of_lt (by omega)]
  have hne : idx.setWidth 8 ≠ 0#8 := fun h0 => by
    have := congrArg BitVec.toNat h0
    rw [hdeg, BitVec.toNat_ofNat] at this
    omega
  exact { hs.rs with
    noGenerator := by simp
    generator := fun _ => ⟨hne, .inl rfl, congrArg rsDivisor hdeg.symm⟩
    divSize := (rsDivisor_length (by omega)).trans hdeg.symm
    ebufSize := rfl }

theorem rsrem_keepsFrom (hs : s.InvFor cfg) : KeepsFrom cfg s (rsrem s) := by
  refine keepsFrom_unless hs (by decide) fun hgv => keepsFrom_unless hs (by decide) fun _ => keepsFrom_respond_rs hs _ ?_
  have hgv : s.rs.gv = 1#1 := by
    have : ∀ b : BitVec 1, b ≠ 0#1 → b = 1#1 := by decide
    exact this _ hgv
  obtain ⟨hdeg, -, hdiv⟩ := hs.rs.generator hgv
  have hne : s.rs.div ≠ [] := by
    rw [← List.length_pos_iff, hs.rs.divSize, Nat.pos_iff_ne_zero]
    exact fun h0 => hdeg (BitVec.eq_of_toNat_eq h0)
  exact { hs.rs with
    noGenerator := by simp [hgv]
    generator := fun _ => ⟨hdeg, .inr rfl, hdiv⟩
    ebufSize := by rw [bytesOf_exact hs.rs.divSize, rsRemainder_length hne, hs.rs.divSize] }

/-- Counting one more item below a capacity the register is wide enough for. -/
theorem toNat_add_one_le {w cap : Nat} {len : BitVec w} (hcap : cap < 2 ^ w) (hle : len.toNat ≤ cap) (hne : len.toNat ≠ cap) :
    (len + 1).toNat = len.toNat + 1 ∧ (len + 1).toNat ≤ cap := by
  have hlt : len.toNat + 1 < 2 ^ w := by omega
  have h1 : 1 % 2 ^ w = 1 := Nat.mod_eq_of_lt (by omega)
  have hadd : (len + 1).toNat = len.toNat + 1 := by
    rw [BitVec.toNat_add, BitVec.ofNat_eq_ofNat, BitVec.toNat_ofNat, h1, Nat.mod_eq_of_lt hlt]
  omega

theorem putr_keepsFrom (hcap : cfg.capacities.Legal) (hs : s.InvFor cfg) (b : Byte) : KeepsFrom cfg s (putr cfg b s) := by
  refine keepsFrom_unless hs (by decide) fun hroom => keepsFrom_respond_rs hs _ ?_
  obtain ⟨hadd, hle⟩ := toNat_add_one_le (Nat.lt_succ_of_le hcap.rbufCap.2) hs.rs.rbufSize.2 hroom
  exact { hs.rs with rbufSize := ⟨by rw [hadd, List.length_append, bytesOf_length, List.length_singleton], hle⟩ }

theorem clrr_keepsFrom (hs : s.InvFor cfg) : KeepsFrom cfg s (clrr s) :=
  keepsFrom_respond_rs hs _ { hs.rs with rbufSize := ⟨rfl, Nat.zero_le _⟩ }

/-! ### The PIPE unit, command by command -/

theorem newsym_keepsFrom (hs : s.InvFor cfg) : KeepsFrom cfg s (newsym s) :=
  keepsFrom_respond_pipe hs _ (PipeUnit.reset_invFor cfg)

theorem puti_keepsFrom (hcap : cfg.capacities.Legal) (hs : s.InvFor cfg) (b : Byte) : KeepsFrom cfg s (puti cfg b s) := by
  refine keepsFrom_unless hs (by decide) fun hst => keepsFrom_unless hs (by decide) fun hroom => keepsFrom_respond_pipe hs _ ?_
  obtain ⟨hadd, hle⟩ := toNat_add_one_le (Nat.lt_succ_of_le hcap.ibufCap.2) hs.pipe.inputSize.2 hroom
  have hlen : (inputOf s.pipe ++ [b]).length = (s.pipe.ilen + 1).toNat := by
    rw [hadd, List.length_append, inputOf_length, List.length_singleton]
  exact hs.pipe.collect (not_not.1 hst) ⟨hlen, hle⟩ hs.pipe.storeSize hs.pipe.storeBits hs.pipe.segments

theorem clri_keepsFrom (hs : s.InvFor cfg) : KeepsFrom cfg s (clri s) :=
  keepsFrom_unless hs (by decide) fun hst => keepsFrom_respond_pipe hs _ <|
    hs.pipe.collect (not_not.1 hst) ⟨rfl, Nat.zero_le _⟩ hs.pipe.storeSize hs.pipe.storeBits hs.pipe.segments

theorem inputOf_length_lt (p : PipeUnit) : (inputOf p).length < 2 ^ 16 := by
  rw [inputOf_length]
  exact p.ilen.isLt

theorem seg_keepsFrom (hcap : cfg.capacities.Legal) (hs : s.InvFor cfg) (req : ModeRequest) :
    KeepsFrom cfg s (seg cfg req s) := by
  refine keepsFrom_unless hs (by decide) fun hst => keepsFrom_unless hs (by decide) fun hroom =>
    keepsFrom_unless hs (by decide) fun hbits => keepsFrom_respond_pipe hs _ ?_
  rw [segmentsOf_exact hs.pipe.storeSize.1]
  obtain ⟨hadd, hle⟩ := toNat_add_one_le (Nat.lt_succ_of_le hcap.nsegMax.2) hs.pipe.storeSize.2 hroom
  have hsum : (s.pipe.sbits + (makeSegment cfg req (inputOf s.pipe)).blen).toNat =
      s.pipe.sbits.toNat + (makeSegment cfg req (inputOf s.pipe)).blen.toNat := by
    have := hcap.sbitCap.2.1
    rw [BitVec.toNat_add, Nat.mod_eq_of_lt (by omega)]
  refine hs.pipe.collect (not_not.1 hst) ⟨rfl, Nat.zero_le _⟩ ⟨?_, hle⟩ ⟨?_, ?_⟩ fun sg hsg => ?_
  · rw [hadd, List.length_append, hs.pipe.storeSize.1, List.length_singleton]
  · simp [hsum, hs.pipe.storeBits.1]
  · omega
  · rcases List.mem_append.1 hsg with hold | hnew
    · exact hs.pipe.segments sg hold
    · exact List.mem_singleton.1 hnew ▸ makeSegment_ok cfg req (inputOf_length_lt s.pipe)

theorem boundsIllegal_iff (minv maxv : BitVec 6) :
    boundsIllegal minv maxv = true ↔ minv.toNat < 1 ∨ 40 < maxv.toNat ∨ maxv.toNat < minv.toNat := by
  rw [boundsIllegal, Bool.or_eq_true, Bool.or_eq_true, decide_eq_true_iff, decide_eq_true_iff, decide_eq_true_iff, or_assoc]
  rfl

/-- The version that is chosen lies in the range and holds the segments (43_version_selector.md R166). -/
theorem leastVersion_some {segs : List Segment} {e : Level} {minv maxv : BitVec 6} {v : Nat}
    (hbounds : ¬boundsIllegal minv maxv = true) (h : leastVersion cfg segs e minv.toNat maxv.toNat = some v) :
    1 ≤ v ∧ v ≤ 40 ∧ requiredBits cfg segs v ≤ capacityBits cfg v e := by
  have hfits : requiredBits cfg segs v ≤ capacityBits cfg v e := by simpa [fitsVersion] using List.find?_some h
  have hmem := List.mem_of_find?_eq_some h
  rw [versionRange, List.mem_range'_1] at hmem
  rw [boundsIllegal_iff] at hbounds
  omega

theorem vsel_keepsFrom (hs : s.InvFor cfg) (ecl : Level) (minv maxv : BitVec 6) :
    KeepsFrom cfg s (vsel cfg ecl minv maxv s) := by
  refine keepsFrom_unless hs (by decide) fun hst => keepsFrom_unless hs (by decide) fun hbounds => ?_
  rw [segmentsOf_exact hs.pipe.storeSize.1]
  split
  · exact keepsFrom_raise hs (by decide)
  · rename_i v hv
    obtain ⟨h1, h40, hfits⟩ := leastVersion_some hbounds hv
    have hver : (BitVec.ofNat 6 v).toNat = v := toNat_ofNat_eq (by omega)
    refine keepsFrom_respond_pipe hs _ (hs.pipe.selectVersion (not_not.1 hst) ?_)
    rw [hver, levelOfBits_levelBits]
    exact ⟨h1, h40, hfits⟩

section Tables
variable (htab : TablesAgree cfg)
include htab

/-- The data codewords are among the codewords, so `DLEN` is wide enough for their number. -/
theorem TablesAgree.dataCodewords_lt {v : Nat} (h1 : 1 ≤ v) (h40 : v ≤ 40) (e : Level) : dataCodewords cfg v e < 2 ^ 12 :=
  (Nat.sub_le _ _).trans_lt (htab.total v h1 h40)

theorem asm_keepsFrom (hs : s.InvFor cfg) : KeepsFrom cfg s (asm cfg s) := by
  refine keepsFrom_unless hs (by decide) fun hst => ?_
  have hst : s.pipe.stage = 1#3 := not_not.1 hst
  obtain ⟨h1, h40, hfits⟩ := hs.pipe.version (by simp [hst])
  obtain ⟨d, hd, hlen⟩ := assemble_of_fits hfits
  rw [segmentsOf_exact hs.pipe.storeSize.1, hd]
  have hdlen := toNat_ofNat_eq (htab.dataCodewords_lt h1 h40 (levelOfBits s.pipe.ecl))
  exact keepsFrom_respond_pipe hs _ (hs.pipe.storeData hst (hlen.trans hdlen.symm) hdlen)

theorem ilv_keepsFrom (hs : s.InvFor cfg) : KeepsFrom cfg s (ilv cfg s) := by
  refine keepsFrom_unless hs (by decide) fun hst => ?_
  have hst : s.pipe.stage = 2#3 := not_not.1 hst
  obtain ⟨h1, h40, -⟩ := hs.pipe.version (by simp [hst])
  have hdata := hs.pipe.data (by simp [hst])
  have holen := toNat_ofNat_eq (htab.total _ h1 h40)
  rw [if_neg (not_not.2 hdata), bytesOf_exact hs.pipe.dataSize]
  refine keepsFrom_respond_pipe hs _ (hs.pipe.storeCodewords hst ?_ holen)
  rw [(htab.layout _ _ h1 h40).interleave_length (hs.pipe.dataSize.trans hdata), holen]

omit htab in
theorem fnpat_keepsFrom (hs : s.InvFor cfg) : KeepsFrom cfg s (fnpat cfg s) := by
  refine keepsFrom_unless hs (by decide) fun hst => ?_
  have hst : s.pipe.stage = 3#3 := not_not.1 hst
  obtain ⟨-, h40, -⟩ := hs.pipe.version (by simp [hst])
  exact keepsFrom_respond_pipe hs _ (hs.pipe.drawPatterns hst (toNat_ofNat_eq (sideLength_lt h40)))

/-- What is left of the data modules when the codewords are placed (45_matrix_builder.md R213). -/
theorem TablesAgree.remainder {v : Nat} (h1 : 1 ≤ v) (h40 : v ≤ 40) :
    let modules := (dataPositions (Config.sideLength v) (functionMap cfg v)).length
    placementMismatch modules (totalCodewords cfg v) = false ∧
      (BitVec.ofNat 3 (modules - 8 * totalCodewords cfg v)).toNat = cfg.rawModules v - 8 * totalCodewords cfg v := by
  simp only [htab.positions v h1 h40]
  refine ⟨placementMismatch_div_eight _, toNat_ofNat_eq ?_⟩
  unfold totalCodewords
  omega

theorem place_keepsFrom (hs : s.InvFor cfg) : KeepsFrom cfg s (place s) := by
  refine keepsFrom_unless hs (by decide) fun hst => ?_
  have hst : s.pipe.stage = 4#3 := not_not.1 hst
  obtain ⟨h1, h40, -⟩ := hs.pipe.version (by simp [hst])
  obtain ⟨hsize, -⟩ := hs.pipe.gridSize (by simp [hst])
  obtain ⟨hfunc, hkeeps⟩ := hs.pipe.gridPatterns (by simp [hst])
  have holen := hs.pipe.codewords (by simp [hst])
  obtain ⟨hcheck, hrem⟩ := htab.remainder h1 h40
  rw [← hsize, ← hfunc, ← holen] at hcheck hrem
  simp only [hcheck, Bool.false_eq_true, if_false]
  refine keepsFrom_respond_pipe hs _ (hs.pipe.placeCodewords hst (placeBits_square _ _ (gridOf_square _ _)) ?_ hrem)
  rw [hsize, hfunc]
  exact hkeeps.gridPart.placeBits _

omit htab in
theorem mask_keepsFrom (hs : s.InvFor cfg) (auto : Bool) (pattern : BitVec 3) : KeepsFrom cfg s (mask cfg auto pattern s) := by
  refine keepsFrom_unless hs (by decide) fun hst => ?_
  have hst : s.pipe.stage = 5#3 := not_not.1 hst
  obtain ⟨hsize, -⟩ := hs.pipe.gridSize (by simp [hst])
  obtain ⟨hfunc, hkeeps⟩ := hs.pipe.gridPatterns (by simp [hst])
  refine keepsFrom_respond_pipe hs _ (hs.pipe.applyMask hst _ (trial_square _ _ _ _ _ _) ?_)
  rw [hsize, hfunc]
  exact hkeeps.trial _ _

/-- The symbol `ENCODE` commits meets the invariant of stage 6 (46_encode_and_system.md R241). -/
theorem encodeCommit_keepsFrom (hcap : cfg.capacities.Legal) (hs : s.InvFor cfg) (ecl : Level) (auto : Bool)
    (pattern : BitVec 3) {sg : Segment} {v : Nat} {d : List Byte} (hsg : SegmentOk cfg sg)
    (hblen : sg.blen.toNat ≤ cfg.capacities.sbitCap) (h1 : 1 ≤ v) (h40 : v ≤ 40)
    (hfits : requiredBits cfg [sg] v ≤ capacityBits cfg v ecl) (hd : d.length = dataCodewords cfg v ecl) :
    KeepsFrom cfg s
      (encodeCommit cfg ecl auto pattern sg v d (dataPositions (Config.sideLength v) (functionMap cfg v)) s) := by
  have hver : (BitVec.ofNat 6 v).toNat = v := toNat_ofNat_eq (by omega)
  have hlevel := levelOfBits_levelBits ecl
  have hsize := toNat_ofNat_eq (sideLength_lt h40)
  have ho := (htab.layout v ecl h1 h40).interleave_length hd
  have hdlen := toNat_ofNat_eq (htab.dataCodewords_lt h1 h40 ecl)
  have holen := toNat_ofNat_eq (htab.total v h1 h40)
  have hgrid := (functionGrid_keepsPatterns cfg v).placeBits (bitsOfBytes (interleave cfg d v ecl))
  have hrem := (htab.remainder h1 h40).2
  simp only [encodeCommit, hd, ho]
  exact keepsFrom_respond_pipe hs _
    { stageLegal := by simp
      inputSize := ⟨rfl, Nat.zero_le _⟩
      storeSize := ⟨rfl, hcap.nsegMax.1⟩
      storeBits := ⟨by simp, hblen⟩
      segments := by simpa using hsg
      noVersion := by simp
      version := fun _ => by rw [hver, hlevel]; exact ⟨h1, h40, hfits⟩
      noData := by simp
      data := fun _ => by rw [hver, hlevel]; exact hdlen
      dataSize := hd.trans hdlen.symm
      noCodewords := by simp
      codewords := fun _ => by rw [hver]; exact holen
      codewordsSize := ho.trans holen.symm
      noGrid := by simp
      gridSize := fun _ => by rw [hver, hsize]; exact ⟨rfl, trial_square _ _ _ _ _ _⟩
      gridPatterns := fun _ => by rw [hver]; exact ⟨rfl, hgrid.trial _ _⟩
      noRemainder := by simp
      remainder := fun _ => by rw [hver, holen]; exact hrem
      noMask := by simp }

theorem encodeSymbol_keepsFrom (hcap : cfg.capacities.Legal) (hs : s.InvFor cfg) (ecl : Level) (minv maxv : BitVec 6)
    (auto : Bool) (pattern : BitVec 3) : KeepsFrom cfg s (encodeSymbol cfg ecl minv maxv auto pattern s) := by
  refine keepsFrom_unless hs (by decide) fun _ => keepsFrom_unless hs (by decide) fun hbounds => ?_
  simp only
  split
  · exact keepsFrom_raise hs (by decide)
  · rename_i v hv
    obtain ⟨h1, h40, hfits⟩ := leastVersion_some hbounds hv
    obtain ⟨d, hd, hlen⟩ := assemble_of_fits hfits
    have ho := (htab.layout v ecl h1 h40).interleave_length hlen
    have hinput := inputOf_length_lt s.pipe
    have hblen : (makeSegment cfg .auto (inputOf s.pipe)).blen.toNat ≤ cfg.capacities.sbitCap := by
      have hbytes := payloadLen_le (resolveMode .auto (inputOf s.pipe)) (inputOf s.pipe).length
      have hilen := hs.pipe.inputSize.2
      have hstore := hcap.sbitCap.2.2
      rw [makeSegment_blen cfg .auto hinput]
      rw [inputOf_length] at hbytes ⊢
      omega
    simp only [hd, ho, (htab.remainder h1 h40).1, Bool.false_eq_true, if_false]
    exact encodeCommit_keepsFrom htab hcap hs ecl auto pattern (makeSegment_ok cfg .auto hinput) hblen h1 h40 hfits hlen

end Tables

end Outcomes

/-! ### Steps -/

/-- Every command keeps the invariant and halts no running core. -/
theorem execWith_keepsFrom {cfg : Configuration} (hcap : cfg.capacities.Legal) (htab : TablesAgree cfg) {s : State}
    (hs : s.InvFor cfg) (i : Instr) : ∃ t, execWith cfg i s = .next t ∧ KeepsFrom cfg s t := by
  cases i with
  | reset => exact ⟨_, rfl, hardReset_keepsFrom cfg s⟩
  | getr sel => exact ⟨_, rfl, getr_keepsFrom hs sel⟩
  | gfmul x y => exact ⟨_, rfl, keepsFrom_whenRunning hs (gfmul_keepsFrom hs x y)⟩
  | rsinit idx => exact ⟨_, rfl, keepsFrom_whenRunning hs (rsinit_keepsFrom hs idx)⟩
  | rsrem => exact ⟨_, rfl, keepsFrom_whenRunning hs (rsrem_keepsFrom hs)⟩
  | putr b => exact ⟨_, rfl, keepsFrom_whenRunning hs (putr_keepsFrom hcap hs b)⟩
  | clrr => exact ⟨_, rfl, keepsFrom_whenRunning hs (clrr_keepsFrom hs)⟩
  | gete idx => exact ⟨_, rfl, keepsFrom_whenRunning hs (gete_keepsFrom hs idx)⟩
  | getg idx => exact ⟨_, rfl, keepsFrom_whenRunning hs (getg_keepsFrom hs idx)⟩
  | newsym => exact ⟨_, rfl, keepsFrom_whenRunning hs (newsym_keepsFrom hs)⟩
  | puti b => exact ⟨_, rfl, keepsFrom_whenRunning hs (puti_keepsFrom hcap hs b)⟩
  | clri => exact ⟨_, rfl, keepsFrom_whenRunning hs (clri_keepsFrom hs)⟩
  | seg req => exact ⟨_, rfl, keepsFrom_whenRunning hs (seg_keepsFrom hcap hs req)⟩
  | getseg idx k => exact ⟨_, rfl, keepsFrom_whenRunning hs (getseg_keepsFrom hs idx k)⟩
  | getsb idx k => exact ⟨_, rfl, keepsFrom_whenRunning hs (getsb_keepsFrom hs idx k)⟩
  | vsel ecl minv maxv => exact ⟨_, rfl, keepsFrom_whenRunning hs (vsel_keepsFrom hs ecl minv maxv)⟩
  | asm => exact ⟨_, rfl, keepsFrom_whenRunning hs (asm_keepsFrom htab hs)⟩
  | ilv => exact ⟨_, rfl, keepsFrom_whenRunning hs (ilv_keepsFrom htab hs)⟩
  | getd idx => exact ⟨_, rfl, keepsFrom_whenRunning hs (getd_keepsFrom hs idx)⟩
  | geto idx => exact ⟨_, rfl, keepsFrom_whenRunning hs (geto_keepsFrom hs idx)⟩
  | fnpat => exact ⟨_, rfl, keepsFrom_whenRunning hs (fnpat_keepsFrom hs)⟩
  | place => exact ⟨_, rfl, keepsFrom_whenRunning hs (place_keepsFrom htab hs)⟩
  | mask auto pattern => exact ⟨_, rfl, keepsFrom_whenRunning hs (mask_keepsFrom hs auto pattern)⟩
  | getm row col => exact ⟨_, rfl, keepsFrom_whenRunning hs (getm_keepsFrom hs row col)⟩
  | encode ecl minv maxv auto pattern =>
    exact ⟨_, rfl, keepsFrom_whenRunning hs (encodeSymbol_keepsFrom htab hcap hs ecl minv maxv auto pattern)⟩

/-- Every step keeps the invariant and halts no running core. -/
theorem stepWith_keepsFrom {cfg : Configuration} (hcap : cfg.capacities.Legal) (htab : TablesAgree cfg) {s t : State}
    (hs : s.InvFor cfg) (h : stepWith cfg s = .next t) : KeepsFrom cfg s t := by
  unfold stepWith at h
  split at h
  · cases h
    exact ⟨hs, id⟩
  · rename_i w rest _
    have hs' : (s.withCommands rest).InvFor cfg := ⟨hs.rs, hs.pipe, hs.haltFlag⟩
    split at h
    · rename_i i _
      obtain ⟨u, hu, hkeeps⟩ := execWith_keepsFrom hcap htab hs' i
      cases hu.symm.trans h
      exact hkeeps
    · cases h
      exact keepsFrom_whenRunning hs' (keepsFrom_raise hs' (by decide))

/-- Settles O60: the invariant is kept command by command (`stepWith_keepsFrom`), no internal check fails because the data
modules of every version number `raw_modules` (`dataPositions_length`), and an overflow is more than version 40 holds at Low. -/
theorem legalCapacitiesKeepTheInvariant : Obligations.LegalCapacitiesKeepTheInvariant := by
  intro c hc
  refine ⟨State.reset_invFor _, fun s t hs h => stepWith_keepsFrom hc (specTables_agree c) hs h, fun m count v e h1 h40 h => ?_,
    fun segs v e h1 h40 h => ?_⟩
  · exact overlong_input_fits_no_version h1 h40 (hc.ibufCap.1.trans_lt h)
  · exact overlong_store_fits_no_version h1 h40 (hc.sbitCap.1.trans_lt h)

end Sys2Proof.Machine
end

section
/-! PROOFS. What a command can do to a state, said once: it answers, writes its own unit and answers, fails, is refused by a
halted core, or resets; and it does the same in any two states that agree on what it reads (10_state.md R20). -/

namespace Sys2Proof.Machine

open Sys2Proof.Reference

/-- What a command does: the value it answers and the unit it leaves, the error it raises, the refusal of a halted core, or
`RESET`. -/
inductive Effect where
  | answer (v : BitVec 24)
  | gf (v : BitVec 24) (res : Byte)
  | rs (v : BitVec 24) (u : RsUnit)
  | pipe (v : BitVec 24) (q : PipeUnit)
  | fail (k : ErrKind)
  | halted
  | reset

namespace Effect

/-- The next state. -/
def apply : Effect → State → State
  | answer v, s => respond v s
  | gf v a, s => respond v { s with res := a }
  | rs v u, s => respond v { s with rs := u }
  | pipe v q, s => respond v { s with pipe := q }
  | fail k, s => raise k s
  | halted, s => answerHalted s
  | reset, s => respond 0 (hardReset s)

/-- The response word. -/
def response : Effect → Word
  | answer v | gf v _ | rs v _ | pipe v _ => okWord v
  | fail k => errWord k
  | halted => errWord .internalInvariant
  | reset => okWord 0

theorem apply_ports (e : Effect) (s : State) : (e.apply s).ports = portsAfter s e.response := by cases e <;> rfl

/-! What an effect leaves in a unit depends on that unit alone. -/

section
variable {s s' : State}

theorem apply_halt_congr (e : Effect) (h : s'.halt = s.halt) : (e.apply s').halt = (e.apply s).halt := by
  cases e <;> simp [apply, h]

theorem apply_res_congr (e : Effect) (h : s'.res = s.res) : (e.apply s').res = (e.apply s).res := by
  cases e <;> simp [apply, h]

theorem apply_rs_congr (e : Effect) (h : s'.rs = s.rs) : (e.apply s').rs = (e.apply s).rs := by
  cases e <;> simp [apply, h]

theorem apply_pipe_congr (e : Effect) (h : s'.pipe = s.pipe) : (e.apply s').pipe = (e.apply s).pipe := by
  cases e <;> simp [apply, h]

end

end Effect

/-- The moves of `STAGE` (10_state.md R33). -/
inductive StageMove : Instr → BitVec 3 → BitVec 3 → Prop
  | stay (i : Instr) (k : BitVec 3) : StageMove i k k
  | newsym (k : BitVec 3) : StageMove .newsym k 0#3
  | vsel (e : Level) (lo hi : BitVec 6) : StageMove (.vsel e lo hi) 0#3 1#3
  | asm : StageMove .asm 1#3 2#3
  | ilv : StageMove .ilv 2#3 3#3
  | fnpat : StageMove .fnpat 3#3 4#3
  | place : StageMove .place 4#3 5#3
  | mask (a : Bool) (m : BitVec 3) : StageMove (.mask a m) 5#3 6#3
  | encode (e : Level) (lo hi : BitVec 6) (a : Bool) (m : BitVec 3) : StageMove (.encode e lo hi a m) 0#3 6#3

/-- What a command that writes the PIPE unit may make of it: `STAGE` makes one of its moves, and the readable segments stay
the first ones of the store (10_state.md R33, R35). -/
structure PipeWrite (i : Instr) (p q : PipeUnit) : Prop where
  writes : writesPipe i = true
  stage : StageMove i p.stage q.stage
  segs : i ≠ .newsym → q.segs = p.segs ∨ ∃ more, q.segs = segmentsOf p ++ more

/-- The effect is one that `i` may have in state `s`. -/
def Effect.Allowed (i : Instr) (s : State) : Effect → Prop
  | answer _ | fail _ => True
  | gf _ _ => writesGf i = true
  | rs _ _ => writesRs i = true
  | pipe _ q => PipeWrite i s.pipe q
  | halted => s.halt = 1#1
  | reset => i = .reset

/-- `t` and `t'` come from `s` and `s'` by one effect that `i` may have. -/
def SameEffect (i : Instr) (s s' t t' : State) : Prop := ∃ e : Effect, e.Allowed i s ∧ e.apply s = t ∧ e.apply s' = t'

section Commands
variable {i : Instr} {s s' : State}

theorem sameEffect_raise (k : ErrKind) : SameEffect i s s' (raise k s) (raise k s') := ⟨.fail k, trivial, rfl, rfl⟩

theorem sameEffect_respond (v : BitVec 24) : SameEffect i s s' (respond v s) (respond v s') :=
  ⟨.answer v, trivial, rfl, rfl⟩

theorem sameEffect_rs (hi : writesRs i = true) (v : BitVec 24) (u : RsUnit) :
    SameEffect i s s' (respond v { s with rs := u }) (respond v { s' with rs := u }) := ⟨.rs v u, hi, rfl, rfl⟩

theorem sameEffect_pipe (v : BitVec 24) {q : PipeUnit} (hq : PipeWrite i s.pipe q) :
    SameEffect i s s' (respond v { s with pipe := q }) (respond v { s' with pipe := q }) := ⟨.pipe v q, hq, rfl, rfl⟩

/-- A check that both states fail, or both pass. -/
theorem sameEffect_unless {k : ErrKind} {c : Prop} [Decidable c] {t t' : State} (h : ¬c → SameEffect i s s' t t') :
    SameEffect i s s' (if c then raise k s else t) (if c then raise k s' else t') := by
  by_cases hc : c
  · simpa only [if_pos hc] using sameEffect_raise k
  · simpa only [if_neg hc] using h hc

theorem sameEffect_whenRunning (hh : s'.halt = s.halt) {body : State → State} (h : SameEffect i s s' (body s) (body s')) :
    SameEffect i s s' (whenRunning body s) (whenRunning body s') := by
  rcases halt_cases s with hs | hs
  · rwa [whenRunning_running hs, whenRunning_running (hh.trans hs)]
  · rw [whenRunning_halted hs, whenRunning_halted (hh.trans hs)]
    exact ⟨.halted, hs, rfl, rfl⟩

/-! ### The system commands, the GF unit and the RS unit -/

theorem getr_sameEffect (sel : BitVec 16) : SameEffect i s s (getr sel s) (getr sel s) := by
  unfold getr
  split
  · exact sameEffect_respond _
  · exact sameEffect_raise _

theorem rsinit_sameEffect (hu : s'.rs = s.rs) (idx : BitVec 16) :
    SameEffect (.rsinit idx) s s' (rsinit idx s) (rsinit idx s') := by
  unfold rsinit
  rw [hu]
  exact sameEffect_unless fun _ => sameEffect_rs rfl _ _

theorem rsrem_sameEffect (hu : s'.rs = s.rs) : SameEffect .rsrem s s' (rsrem s) (rsrem s') := by
  unfold rsrem
  rw [hu]
  exact sameEffect_unless fun _ => sameEffect_unless fun _ => sameEffect_rs rfl _ _

theorem putr_sameEffect (hu : s'.rs = s.rs) (cfg : Configuration) (b : Byte) :
    SameEffect (.putr b) s s' (putr cfg b s) (putr cfg b s') := by
  unfold putr
  rw [hu]
  exact sameEffect_unless fun _ => sameEffect_rs rfl _ _

theorem clrr_sameEffect (hu : s'.rs = s.rs) : SameEffect .clrr s s' (clrr s) (clrr s') := by
  unfold clrr
  rw [hu]
  exact sameEffect_rs rfl _ _

theorem gete_sameEffect (hu : s'.rs = s.rs) (idx : BitVec 16) : SameEffect i s s' (gete idx s) (gete idx s') := by
  unfold gete
  rw [hu]
  exact sameEffect_unless fun _ => sameEffect_respond _

theorem getg_sameEffect (hu : s'.rs = s.rs) (idx : BitVec 16) : SameEffect i s s' (getg idx s) (getg idx s') := by
  unfold getg
  rw [hu]
  exact sameEffect_unless fun _ => sameEffect_respond _

/-! ### The PIPE unit -/

/-- A command that leaves the segment store alone. -/
theorem PipeWrite.of_segs_eq {p q : PipeUnit} (hi : writesPipe i = true) (hst : StageMove i p.stage q.stage)
    (hsegs : q.segs = p.segs) : PipeWrite i p q := ⟨hi, hst, fun _ => .inl hsegs⟩

theorem newsym_sameEffect : SameEffect .newsym s s' (newsym s) (newsym s') :=
  sameEffect_pipe _ ⟨rfl, .newsym _, fun h => absurd rfl h⟩

theorem puti_sameEffect (hp : s'.pipe = s.pipe) (cfg : Configuration) (b : Byte) :
    SameEffect (.puti b) s s' (puti cfg b s) (puti cfg b s') := by
  unfold puti
  rw [hp]
  exact sameEffect_unless fun _ => sameEffect_unless fun _ => sameEffect_pipe _ (.of_segs_eq rfl (.stay _ _) rfl)

theorem clri_sameEffect (hp : s'.pipe = s.pipe) : SameEffect .clri s s' (clri s) (clri s') := by
  unfold clri
  rw [hp]
  exact sameEffect_unless fun _ => sameEffect_pipe _ (.of_segs_eq rfl (.stay _ _) rfl)

theorem seg_sameEffect (hp : s'.pipe = s.pipe) (cfg : Configuration) (req : ModeRequest) :
    SameEffect (.seg req) s s' (seg cfg req s) (seg cfg req s') := by
  unfold seg
  rw [hp]
  exact sameEffect_unless fun _ => sameEffect_unless fun _ => sameEffect_unless fun _ =>
    sameEffect_pipe _ ⟨rfl, .stay _ _, fun _ => .inr ⟨_, rfl⟩⟩

theorem getseg_sameEffect (hp : s'.pipe = s.pipe) (idx : BitVec 8) (k : BitVec 16) :
    SameEffect i s s' (getseg idx k s) (getseg idx k s') := by
  unfold getseg
  rw [hp]
  refine sameEffect_unless fun _ => ?_
  split
  · exact sameEffect_respond _
  · exact sameEffect_raise _

theorem getsb_sameEffect (hp : s'.pipe = s.pipe) (idx : BitVec 8) (k : BitVec 16) :
    SameEffect i s s' (getsb idx k s) (getsb idx k s') := by
  unfold getsb
  rw [hp]
  exact sameEffect_unless fun _ => sameEffect_unless fun _ => sameEffect_respond _

theorem vsel_sameEffect (hp : s'.pipe = s.pipe) (cfg : Configuration) (ecl : Level) (minv maxv : BitVec 6) :
    SameEffect (.vsel ecl minv maxv) s s' (vsel cfg ecl minv maxv s) (vsel cfg ecl minv maxv s') := by
  unfold vsel
  rw [hp]
  refine sameEffect_unless fun hst => sameEffect_unless fun _ => ?_
  split
  · exact sameEffect_raise _
  · exact sameEffect_pipe _ (.of_segs_eq rfl (not_not.1 hst ▸ .vsel _ _ _) rfl)

theorem asm_sameEffect (hp : s'.pipe = s.pipe) (cfg : Configuration) : SameEffect .asm s s' (asm cfg s) (asm cfg s') := by
  unfold asm
  rw [hp]
  refine sameEffect_unless fun hst => ?_
  split
  · exact sameEffect_raise _
  · exact sameEffect_pipe _ (.of_segs_eq rfl (not_not.1 hst ▸ .asm) rfl)

theorem ilv_sameEffect (hp : s'.pipe = s.pipe) (cfg : Configuration) : SameEffect .ilv s s' (ilv cfg s) (ilv cfg s') := by
  unfold ilv
  rw [hp]
  exact sameEffect_unless fun hst => sameEffect_unless fun _ =>
    sameEffect_pipe _ (.of_segs_eq rfl (not_not.1 hst ▸ .ilv) rfl)

theorem getd_sameEffect (hp : s'.pipe = s.pipe) (idx : BitVec 16) : SameEffect i s s' (getd idx s) (getd idx s') := by
  unfold getd
  rw [hp]
  exact sameEffect_unless fun _ => sameEffect_respond _

theorem geto_sameEffect (hp : s'.pipe = s.pipe) (idx : BitVec 16) : SameEffect i s s' (geto idx s) (geto idx s') := by
  unfold geto
  rw [hp]
  exact sameEffect_unless fun _ => sameEffect_respond _

theorem fnpat_sameEffect (hp : s'.pipe = s.pipe) (cfg : Configuration) :
    SameEffect .fnpat s s' (fnpat cfg s) (fnpat cfg s') := by
  unfold fnpat
  rw [hp]
  exact sameEffect_unless fun hst => sameEffect_pipe _ (.of_segs_eq rfl (not_not.1 hst ▸ .fnpat) rfl)

theorem place_sameEffect (hp : s'.pipe = s.pipe) : SameEffect .place s s' (place s) (place s') := by
  unfold place
  rw [hp]
  exact sameEffect_unless fun hst => sameEffect_unless fun _ =>
    sameEffect_pipe _ (.of_segs_eq rfl (not_not.1 hst ▸ .place) rfl)

theorem mask_sameEffect (hp : s'.pipe = s.pipe) (cfg : Configuration) (auto : Bool) (pattern : BitVec 3) :
    SameEffect (.mask auto pattern) s s' (mask cfg auto pattern s) (mask cfg auto pattern s') := by
  unfold mask
  rw [hp]
  exact sameEffect_unless fun hst => sameEffect_pipe _ (.of_segs_eq rfl (not_not.1 hst ▸ .mask _ _) rfl)

theorem getm_sameEffect (hp : s'.pipe = s.pipe) (row col : Byte) : SameEffect i s s' (getm row col s) (getm row col s') := by
  unfold getm
  rw [hp]
  exact sameEffect_unless fun _ => sameEffect_respond _

/-- No segment is readable in an empty store. -/
theorem segmentsOf_of_nseg_zero {p : PipeUnit} (h : p.nseg = 0#8) : segmentsOf p = [] := by
  simp [segmentsOf, firstItems, h]

theorem encodeSymbol_sameEffect (hp : s'.pipe = s.pipe) (cfg : Configuration) (ecl : Level) (minv maxv : BitVec 6)
    (auto : Bool) (pattern : BitVec 3) :
    SameEffect (.encode ecl minv maxv auto pattern) s s' (encodeSymbol cfg ecl minv maxv auto pattern s)
      (encodeSymbol cfg ecl minv maxv auto pattern s') := by
  unfold encodeSymbol
  rw [hp]
  refine sameEffect_unless fun hfresh => sameEffect_unless fun _ => ?_
  obtain ⟨hst, hnseg⟩ := not_or.1 hfresh
  dsimp only
  split
  · exact sameEffect_raise _
  split
  · exact sameEffect_raise _
  have hstore : segmentsOf s.pipe = [] := segmentsOf_of_nseg_zero (not_not.1 hnseg)
  exact sameEffect_unless fun _ => sameEffect_pipe _ ⟨rfl, not_not.1 hst ▸ .encode _ _ _ _ _,
    fun _ => .inr ⟨[makeSegment cfg .auto (inputOf s.pipe)], by rw [hstore]; rfl⟩⟩

end Commands

/-- `s'` agrees with `s` on what `i` reads: `HALT`, the unit of `i`, and for `GETR` everything (10_state.md R20). -/
structure ReadsAlike (i : Instr) (s s' : State) : Prop where
  halt : s'.halt = s.halt
  rs : isRsCommand i = true → s'.rs = s.rs
  pipe : isPipeCommand i = true → s'.pipe = s.pipe
  getr : ∀ sel, i = .getr sel → s' = s

theorem ReadsAlike.refl (i : Instr) (s : State) : ReadsAlike i s s := ⟨rfl, fun _ => rfl, fun _ => rfl, fun _ _ => rfl⟩

/-- Every command has one effect, which it may have, in all states that agree on what it reads. -/
theorem exec_sameEffect {i : Instr} {s s' : State} (h : ReadsAlike i s s') :
    ∃ e : Effect, e.Allowed i s ∧ exec i s = .next (e.apply s) ∧ exec i s' = .next (e.apply s') := by
  suffices hsame : ∃ t t', exec i s = .next t ∧ exec i s' = .next t' ∧ SameEffect i s s' t t' by
    obtain ⟨_, _, ht, ht', e, he, rfl, rfl⟩ := hsame
    exact ⟨e, he, ht, ht'⟩
  cases i with
  | reset => exact ⟨_, _, rfl, rfl, .reset, rfl, rfl, rfl⟩
  | getr sel =>
    obtain rfl := h.getr sel rfl
    exact ⟨_, _, rfl, rfl, getr_sameEffect sel⟩
  | gfmul x y => exact ⟨_, _, rfl, rfl, sameEffect_whenRunning h.halt ⟨.gf _ _, rfl, rfl, rfl⟩⟩
  | rsinit idx => exact ⟨_, _, rfl, rfl, sameEffect_whenRunning h.halt (rsinit_sameEffect (h.rs rfl) idx)⟩
  | rsrem => exact ⟨_, _, rfl, rfl, sameEffect_whenRunning h.halt (rsrem_sameEffect (h.rs rfl))⟩
  | putr b => exact ⟨_, _, rfl, rfl, sameEffect_whenRunning h.halt (putr_sameEffect (h.rs rfl) _ b)⟩
  | clrr => exact ⟨_, _, rfl, rfl, sameEffect_whenRunning h.halt (clrr_sameEffect (h.rs rfl))⟩
  | gete idx => exact ⟨_, _, rfl, rfl, sameEffect_whenRunning h.halt (gete_sameEffect (h.rs rfl) idx)⟩
  | getg idx => exact ⟨_, _, rfl, rfl, sameEffect_whenRunning h.halt (getg_sameEffect (h.rs rfl) idx)⟩
  | newsym => exact ⟨_, _, rfl, rfl, sameEffect_whenRunning h.halt newsym_sameEffect⟩
  | puti b => exact ⟨_, _, rfl, rfl, sameEffect_whenRunning h.halt (puti_sameEffect (h.pipe rfl) _ b)⟩
  | clri => exact ⟨_, _, rfl, rfl, sameEffect_whenRunning h.halt (clri_sameEffect (h.pipe rfl))⟩
  | seg req => exact ⟨_, _, rfl, rfl, sameEffect_whenRunning h.halt (seg_sameEffect (h.pipe rfl) _ req)⟩
  | getseg idx k => exact ⟨_, _, rfl, rfl, sameEffect_whenRunning h.halt (getseg_sameEffect (h.pipe rfl) idx k)⟩
  | getsb idx k => exact ⟨_, _, rfl, rfl, sameEffect_whenRunning h.halt (getsb_sameEffect (h.pipe rfl) idx k)⟩
  | vsel ecl minv maxv =>
    exact ⟨_, _, rfl, rfl, sameEffect_whenRunning h.halt (vsel_sameEffect (h.pipe rfl) _ ecl minv maxv)⟩
  | asm => exact ⟨_, _, rfl, rfl, sameEffect_whenRunning h.halt (asm_sameEffect (h.pipe rfl) _)⟩
  | ilv => exact ⟨_, _, rfl, rfl, sameEffect_whenRunning h.halt (ilv_sameEffect (h.pipe rfl) _)⟩
  | getd idx => exact ⟨_, _, rfl, rfl, sameEffect_whenRunning h.halt (getd_sameEffect (h.pipe rfl) idx)⟩
  | geto idx => exact ⟨_, _, rfl, rfl, sameEffect_whenRunning h.halt (geto_sameEffect (h.pipe rfl) idx)⟩
  | fnpat => exact ⟨_, _, rfl, rfl, sameEffect_whenRunning h.halt (fnpat_sameEffect (h.pipe rfl) _)⟩
  | place => exact ⟨_, _, rfl, rfl, sameEffect_whenRunning h.halt (place_sameEffect (h.pipe rfl))⟩
  | mask auto pattern =>
    exact ⟨_, _, rfl, rfl, sameEffect_whenRunning h.halt (mask_sameEffect (h.pipe rfl) _ auto pattern)⟩
  | getm row col => exact ⟨_, _, rfl, rfl, sameEffect_whenRunning h.halt (getm_sameEffect (h.pipe rfl) row col)⟩
  | encode ecl minv maxv auto pattern =>
    exact ⟨_, _, rfl, rfl,
      sameEffect_whenRunning h.halt (encodeSymbol_sameEffect (h.pipe rfl) _ ecl minv maxv auto pattern)⟩

/-- What a command did, in one state. -/
theorem exec_effect {i : Instr} {s t : State} (h : exec i s = .next t) : ∃ e : Effect, e.Allowed i s ∧ e.apply s = t := by
  obtain ⟨e, he, hs, -⟩ := exec_sameEffect (ReadsAlike.refl i s)
  exact ⟨e, he, by simpa using hs.symm.trans h⟩

end Sys2Proof.Machine
end

section
/-! PROOFS. The rules of 10_state.md about the whole machine: the invariant, the error record, the units, the stage and the
segment store. -/

namespace Sys2Proof.Machine

open Sys2Proof.Reference

/-! ### The invariant -/

/-- Settles O8: no register after reset names an item, and no buffer holds one. -/
theorem resetMeetsTheInvariant : Obligations.ResetMeetsTheInvariant := State.reset_invFor specConfig

/-- Settles O9: `stepWith_keepsFrom`, command by command, at the spec's own capacities and tables. -/
theorem everyStepKeepsTheInvariant : Obligations.EveryStepKeepsTheInvariant := fun s _ hs hstep =>
  (stepWith_keepsFrom specCapacities_legal (specTables_agree specCapacities) hs ((stepWith_specConfig s).trans hstep)).1

/-! ### The error record -/

theorem statusOf_okWord (v : BitVec 24) : statusOf (okWord v) = 0 := by
  have := v.isLt
  simp only [statusOf, okWord, BitVec.toNat_setWidth]
  omega

/-- `t` records the status of the response `r` given in state `s`: an error sets its bit of `EFLAGS`, InternalInvariant sets
`HALT`, and nothing is cleared (10_state.md R23, R24). -/
def ErrorRecorded (s t : State) (r : Word) : Prop :=
  (statusOf r = 0 → t.eflags = s.eflags) ∧
  (statusOf r ≠ 0 → t.eflags = s.eflags ||| BitVec.ofNat 4 (2 ^ (statusOf r - 1))) ∧
  (t.halt = 1#1 ↔ s.halt = 1#1 ∨ statusOf r = 3)

theorem errorRecorded_okWord {s t : State} (v : BitVec 24) (he : t.eflags = s.eflags) (hh : t.halt = s.halt) :
    ErrorRecorded s t (okWord v) := by
  simp [ErrorRecorded, statusOf_okWord, he, hh]

theorem errorRecorded_raise (k : ErrKind) (s : State) : ErrorRecorded s (raise k s) (errWord k) := by
  cases k <;> simp [ErrorRecorded, statusOf, errWord, statusCode, setFlag, flagMask, haltAfter]

/-- The answer of a halted core repeats an error that is recorded already. -/
theorem errorRecorded_answerHalted {s : State} (hh : s.halt = 1#1) (hflag : s.eflags.getLsbD 2 = true) :
    ErrorRecorded s (answerHalted s) (errWord .internalInvariant) := by
  have hset : ∀ b : BitVec 4, b.getLsbD 2 = true → b = b ||| 4#4 := by decide
  simpa [ErrorRecorded, statusOf, errWord, statusCode, hh] using hset _ hflag

theorem Effect.statusOf_response_le (e : Effect) : statusOf e.response ≤ 4 := by
  cases e with
  | answer v | gf v _ | rs v _ | pipe v _ => exact (statusOf_okWord v).trans_le (Nat.zero_le 4)
  | fail k => cases k <;> decide
  | halted | reset => decide

theorem Effect.errorRecorded {e : Effect} {s : State} (hreset : e ≠ .reset) (hhalted : e = .halted → s.halt = 1#1)
    (hflag : s.halt = 1#1 → s.eflags.getLsbD 2 = true) : ErrorRecorded s (e.apply s) e.response := by
  cases e with
  | answer v | gf v _ | rs v _ | pipe v _ => exact errorRecorded_okWord v rfl rfl
  | fail k => exact errorRecorded_raise k s
  | halted => exact errorRecorded_answerHalted (hhalted rfl) (hflag (hhalted rfl))
  | reset => exact absurd rfl hreset

/-- A word that decodes matches the row whose fields it is read by. -/
theorem exists_row_of_decode {w : Word} {i : Instr} (h : decode w = .ok i) :
    ∃ r ∈ opcodeRows, w &&& r.mask = r.pat ∧ r.fields w = i := by
  unfold decode at h
  split at h
  case h_1 => cases h
  case h_2 r hr =>
    unfold decodeRow at h
    split_ifs at h with hbits hfields
    exact ⟨r, List.mem_of_find?_eq_some hr, hbits, Except.ok.inj h⟩

/-- One row of the opcode map makes a `RESET`, and its mask leaves no bit open. -/
theorem row_of_reset (w : Word) : ∀ r ∈ opcodeRows, r.fields w = .reset → r.pat = 0x01000000#32 ∧ r.mask = 0xFFFFFFFF#32 := by
  simp [opcodeRows, opcodeRowsLow, opcodeRowsMid, opcodeRowsHigh]

theorem eq_resetWord_of_decode {w : Word} (h : decode w = .ok .reset) : w = 0x01000000#32 := by
  obtain ⟨r, hr, hbits, hfields⟩ := exists_row_of_decode h
  obtain ⟨hpat, hmask⟩ := row_of_reset w r hr hfields
  have hall : (0xFFFFFFFF#32 : Word) = BitVec.allOnes 32 := by decide
  rwa [hmask, hpat, hall, BitVec.and_allOnes] at hbits

/-- Every word has an effect on the state it is transferred to; that of `RESET` belongs to `RESET`'s word alone. -/
theorem step_effect {s t : State} {w : Word} {rest : List Word} (hw : s.ports.cmds = w :: rest) (h : step s = .next t)
    (hreset : w ≠ 0x01000000#32) :
    ∃ e : Effect, e ≠ .reset ∧ (e = .halted → s.halt = 1#1) ∧ e.apply (s.withCommands rest) = t := by
  cases hd : decode w with
  | ok i =>
    obtain ⟨e, he, hte⟩ := exec_effect ((step_command hw hd).symm.trans h)
    refine ⟨e, ?_, ?_, hte⟩
    · rintro rfl
      obtain rfl : i = .reset := he
      exact hreset (eq_resetWord_of_decode hd)
    · rintro rfl
      exact he
  | error err =>
    obtain rfl : illegalWord (s.withCommands rest) = t := by simpa using (step_illegal hw hd).symm.trans h
    rcases halt_cases s with hh | hh
    · exact ⟨.fail .illegalCommand, by simp, by simp, (illegalWord_running (s := s.withCommands rest) hh).symm⟩
    · exact ⟨.halted, by simp, fun _ => hh, (illegalWord_halted (s := s.withCommands rest) hh).symm⟩

theorem step_resetWord {s : State} {rest : List Word} (hw : s.ports.cmds = 0x01000000#32 :: rest) :
    step s = .next (respond 0 (hardReset (s.withCommands rest))) :=
  step_command hw (by decide : decode 0x01000000#32 = .ok .reset)

/-- Settles O13: each effect but `RESET`'s records its own response (`Effect.errorRecorded`). -/
theorem flagsAndHaltRecordErrors : Obligations.FlagsAndHaltRecordErrors := by
  intro s t w rest hflag hw hstep
  by_cases hreset : w = 0x01000000#32
  · subst hreset
    obtain rfl : respond 0 (hardReset (s.withCommands rest)) = t := by simpa using (step_resetWord hw).symm.trans hstep
    exact ⟨0#32, rfl, by decide, fun h => absurd rfl h, fun _ => ⟨rfl, rfl, rfl⟩⟩
  · obtain ⟨e, he, hhalted, rfl⟩ := step_effect hw hstep hreset
    exact ⟨e.response, e.apply_ports _, e.statusOf_response_le, fun _ => e.errorRecorded he hhalted hflag,
      fun h => absurd h hreset⟩

/-! ### The units -/

section
variable {i : Instr} {s s' : State} {e : Effect}

theorem Effect.Allowed.res_eq (he : e.Allowed i s) (hi : writesGf i = false) : (e.apply s).res = s.res := by
  cases e with
  | answer | rs | pipe | fail | halted => rfl
  | gf => exact absurd (hi.symm.trans he) (by decide)
  | reset =>
    obtain rfl : i = .reset := he
    exact absurd hi (by decide)

theorem Effect.Allowed.rs_eq (he : e.Allowed i s) (hi : writesRs i = false) : (e.apply s).rs = s.rs := by
  cases e with
  | answer | gf | pipe | fail | halted => rfl
  | rs => exact absurd (hi.symm.trans he) (by decide)
  | reset =>
    obtain rfl : i = .reset := he
    exact absurd hi (by decide)

theorem Effect.Allowed.pipe_eq (he : e.Allowed i s) (hi : writesPipe i = false) : (e.apply s).pipe = s.pipe := by
  cases e with
  | answer | gf | rs | fail | halted => rfl
  | pipe => exact absurd (hi.symm.trans he.writes) (by decide)
  | reset =>
    obtain rfl : i = .reset := he
    exact absurd hi (by decide)

theorem isPipeCommand_of_isRsCommand (hi : isRsCommand i = true) : isPipeCommand i = false :=
  match i, hi with
  | .rsinit _, _ | .rsrem, _ | .putr _, _ | .clrr, _ | .gete _, _ | .getg _, _ => rfl

theorem ReadsAlike.of_writesGf (hi : writesGf i = true) (hh : s'.halt = s.halt) : ReadsAlike i s s' :=
  match i, hi with
  | .reset, _ | .gfmul _ _, _ => ⟨hh, nofun, nofun, nofun⟩

theorem ReadsAlike.of_isRsCommand (hi : isRsCommand i = true) (hh : s'.halt = s.halt) (hu : s'.rs = s.rs) :
    ReadsAlike i s s' where
  halt := hh
  rs _ := hu
  pipe hp := absurd ((isPipeCommand_of_isRsCommand hi).symm.trans hp) (by decide)
  getr _ hg := by
    subst hg
    cases hi

theorem ReadsAlike.of_isPipeCommand (hi : isPipeCommand i = true) (hh : s'.halt = s.halt) (hp : s'.pipe = s.pipe) :
    ReadsAlike i s s' where
  halt := hh
  rs hr := absurd ((isPipeCommand_of_isRsCommand hr).symm.trans hi) (by decide)
  pipe _ := hp
  getr _ hg := by
    subst hg
    cases hi

/-- Two states that agree on what a command reads go on by one effect. -/
theorem ReadsAlike.effect {t t' : State} (ha : ReadsAlike i s s') (h : exec i s = .next t) (h' : exec i s' = .next t') :
    ∃ e : Effect, e.apply s = t ∧ e.apply s' = t' := by
  obtain ⟨e, -, hs, hs'⟩ := exec_sameEffect ha
  exact ⟨e, by simpa using hs.symm.trans h, by simpa using hs'.symm.trans h'⟩

end

/-- Settles O17: a command's effect writes its own unit alone (`Effect.Allowed`), and is the same effect in every state that
agrees on that unit and `HALT` (`exec_sameEffect`). -/
theorem unitsShareNoState : Obligations.UnitsShareNoState := by
  intro i s t h
  obtain ⟨e, he, rfl⟩ := exec_effect h
  refine ⟨he.res_eq, he.rs_eq, he.pipe_eq, fun s' t' h' hhalt => ⟨fun hi hres => ?_, fun hi hrs => ?_, fun hi hpipe => ?_⟩⟩
  · obtain ⟨e, hs, rfl⟩ := (ReadsAlike.of_writesGf hi hhalt).effect h h'
    exact hs ▸ ⟨e.apply_res_congr hres, e.response, e.apply_ports s, e.apply_ports s'⟩
  · obtain ⟨e, hs, rfl⟩ := (ReadsAlike.of_isRsCommand hi hhalt hrs).effect h h'
    exact hs ▸ ⟨e.apply_rs_congr hrs, e.response, e.apply_ports s, e.apply_ports s'⟩
  · obtain ⟨e, hs, rfl⟩ := (ReadsAlike.of_isPipeCommand hi hhalt hpipe).effect h h'
    exact hs ▸ ⟨e.apply_pipe_congr hpipe, e.apply_halt_congr hhalt, e.response, e.apply_ports s, e.apply_ports s'⟩

/-! ### The stage -/

/-- Settles O19: only a write of the PIPE unit moves `STAGE`, and it makes a `StageMove`. -/
theorem stageAdvancesInOrder : Obligations.StageAdvancesInOrder := by
  intro i s t h
  obtain ⟨e, he, rfl⟩ := exec_effect h
  cases e with
  | answer | gf | rs | fail | halted => exact .inl rfl
  | reset => exact .inr (.inl ⟨rfl, .inr he⟩)
  | pipe v q =>
    obtain ⟨-, hmove, -⟩ := he
    simp only [Effect.apply, respond_pipe]
    generalize s.pipe.stage = k at hmove ⊢
    generalize q.stage = k' at hmove ⊢
    cases hmove <;> simp

/-- Settles O21: only `SEG` and `ENCODE` write the store, and both append to what is readable. -/
theorem storedSegmentsAreImmutable : Obligations.StoredSegmentsAreImmutable := by
  intro i s t hinv hnewsym hreset h
  obtain ⟨e, he, rfl⟩ := exec_effect h
  cases e with
  | answer | gf | rs | fail | halted => exact ⟨[], (List.append_nil _).symm⟩
  | reset => exact absurd he hreset
  | pipe v q =>
    rcases he.segs hnewsym with hsame | hmore
    · exact ⟨[], hsame.trans (List.append_nil _).symm⟩
    · rwa [segmentsOf_exact hinv.storeSize.1] at hmore

end Sys2Proof.Machine
end

section
/-! PROOFS. What the `GET` commands do (20_memory.md R59): they answer, or are refused with `IA`, and whoever reads after them
finds `HALT` and the three units as they were. -/

namespace Sys2Proof.Machine

open Sys2Proof.Reference

/-- What a `GET` command may do: put out a response, or raise InvalidArgument. -/
inductive ReadOutcome (s : State) : State → Prop
  | answered (w : Word) : ReadOutcome s (putResponse w s)
  | refused : ReadOutcome s (raise .invalidArgument s)

section
variable {s t : State}

theorem readOutcome_respond (v : BitVec 24) : ReadOutcome s (respond v s) := .answered (okWord v)

/-- A check that refuses the read, or lets it go on. -/
theorem readOutcome_unless {c : Prop} [Decidable c] (h : ¬c → ReadOutcome s t) :
    ReadOutcome s (if c then raise .invalidArgument s else t) := by
  split
  case isTrue => exact .refused
  case isFalse hc => exact h hc

theorem readOutcome_whenRunning {body : State → State} (h : ReadOutcome s (body s)) : ReadOutcome s (whenRunning body s) := by
  rcases whenRunning_cases body s with ⟨-, heq⟩ | ⟨-, heq⟩
  · exact heq ▸ h
  · exact heq ▸ .answered _

theorem getr_readOutcome (sel : BitVec 16) : ReadOutcome s (getr sel s) := by
  unfold getr
  split
  · exact readOutcome_respond _
  · exact .refused

theorem getseg_readOutcome (idx : BitVec 8) (k : BitVec 16) : ReadOutcome s (getseg idx k s) := by
  refine readOutcome_unless fun _ => ?_
  split
  · exact readOutcome_respond _
  · exact .refused

/-- Behind the gate on `HALT` a `GET` command checks its index and answers. -/
theorem exec_readOutcome {i : Instr} (hi : isRead i = true) (s : State) : ∃ t, exec i s = .next t ∧ ReadOutcome s t :=
  match i, hi with
  | .getr sel, _ => ⟨_, rfl, getr_readOutcome sel⟩
  | .gete _, _ | .getg _, _ | .getd _, _ | .geto _, _ | .getm _ _, _ =>
    ⟨_, rfl, readOutcome_whenRunning (readOutcome_unless fun _ => readOutcome_respond _)⟩
  | .getseg idx k, _ => ⟨_, rfl, readOutcome_whenRunning (getseg_readOutcome idx k)⟩
  | .getsb _ _, _ =>
    ⟨_, rfl, readOutcome_whenRunning (readOutcome_unless fun _ => readOutcome_unless fun _ => readOutcome_respond _)⟩

/-- `t` has `HALT` and the three units of `s`: all that a command may read, `EFLAGS` apart. -/
structure SameUnits (s t : State) : Prop where
  halt : t.halt = s.halt
  res : t.res = s.res
  rs : t.rs = s.rs
  pipe : t.pipe = s.pipe

theorem ReadOutcome.sameUnits (h : ReadOutcome s t) : SameUnits s t := by
  cases h <;> exact ⟨rfl, rfl, rfl, rfl⟩

/-- Only selector 0 reads `EFLAGS` (10_state.md R49). -/
theorem SameUnits.registerAt_eq {sel : BitVec 16} (hu : SameUnits s t) (hflags : sel ≠ 0#16 ∨ t.eflags = s.eflags) :
    registerAt t sel = registerAt s sel := by
  obtain ⟨hhalt, hres, hrs, hpipe⟩ := hu
  rcases hflags with hsel | heflags
  · have hne : sel.toNat ≠ 0 := fun h => hsel (BitVec.eq_of_toNat_eq h)
    unfold registerAt
    rw [hhalt, hres, hrs, hpipe]
    split
    case h_1 h0 => exact absurd h0 hne
    all_goals rfl
  · unfold registerAt
    rw [heflags, hhalt, hres, hrs, hpipe]

theorem getr_sameEffect_of_registerAt_eq {i : Instr} {sel : BitVec 16} (h : registerAt t sel = registerAt s sel) :
    SameEffect i s t (getr sel s) (getr sel t) := by
  unfold getr
  rw [h]
  split
  · exact sameEffect_respond _
  · exact sameEffect_raise _

/-- A command cannot tell `t` from `s`, unless it is `GETR 0` and `EFLAGS` differ. -/
theorem exec_sameEffect_of_sameUnits {j : Instr} (hu : SameUnits s t) (hflags : j ≠ .getr 0#16 ∨ t.eflags = s.eflags) :
    ∃ e : Effect, exec j s = .next (e.apply s) ∧ exec j t = .next (e.apply t) := by
  by_cases hj : ∃ sel, j = .getr sel
  · obtain ⟨sel, rfl⟩ := hj
    have hreg := hu.registerAt_eq (hflags.imp_left fun h hsel => h (hsel ▸ rfl))
    obtain ⟨e, -, hs, ht⟩ := getr_sameEffect_of_registerAt_eq (i := .getr sel) hreg
    exact ⟨e, hs ▸ exec_getr sel s, ht ▸ exec_getr sel t⟩
  · have halike : ReadsAlike j s t :=
      ⟨hu.halt, fun _ => hu.rs, fun _ => hu.pipe, fun sel hsel => absurd ⟨sel, hsel⟩ hj⟩
    obtain ⟨e, -, hs, ht⟩ := exec_sameEffect halike
    exact ⟨e, hs, ht⟩

theorem portsAfter_inj {v w : Word} : portsAfter s v = portsAfter s w ↔ v = w := by simp [portsAfter]

end

/-- Settles O18: a read only answers or is refused (`exec_readOutcome`), so it leaves all that a later read looks at but
`EFLAGS`, and the later read has one effect before and after it (`exec_sameEffect_of_sameUnits`). -/
theorem readsHaveNoSideEffects : Obligations.ReadsHaveNoSideEffects := by
  intro i s hi
  obtain ⟨t, ht, hread⟩ := exec_readOutcome hi s
  refine ⟨?_, fun j t' a b w _ ht' ha hb hflags hw => ?_⟩
  · rw [ht]
    cases hread with
    | answered w => exact .inl ⟨w, rfl⟩
    | refused => exact .inr rfl
  · obtain rfl : t = t' := by simpa using ht.symm.trans ht'
    obtain ⟨e, hbefore, hafter⟩ := exec_sameEffect_of_sameUnits hread.sameUnits hflags
    obtain rfl : e.apply s = a := by simpa using hbefore.symm.trans ha
    obtain rfl : e.apply t = b := by simpa using hafter.symm.trans hb
    rw [e.apply_ports, portsAfter_inj.1 ((e.apply_ports s).symm.trans hw)]

end Sys2Proof.Machine
end

section
/-! PROOFS. Decoding and encoding (30_encoding.md R71, R72, R75 to R77, R81): a word belongs to at most one row of the opcode
map, and each format is put together again from the fields read of it. -/

namespace Sys2Proof

open Sys2Proof.Reference

/-! ### The row of a word -/

theorem opField_and (w m : Word) : opField (w &&& m) = opField w &&& opField m := BitVec.extractLsb'_and

/-- Every mask of the opcode map keeps the whole opcode (30_encoding.md R75). -/
theorem opField_mask_row : ∀ r ∈ opcodeRows, opField r.mask = BitVec.allOnes 8 := by decide

/-- No two rows of the opcode map have one opcode (30_encoding.md R75). -/
theorem opcodes_nodup : (opcodeRows.map fun r => opField r.pat).Nodup := by decide

theorem opField_of_match {r : OpcodeRow} {w : Word} (hr : r ∈ opcodeRows) (hw : w &&& r.mask = r.pat) :
    opField w = opField r.pat := by
  rw [← hw, opField_and, opField_mask_row r hr, BitVec.and_allOnes]

theorem rowOf_opField_pat {r : OpcodeRow} (hr : r ∈ opcodeRows) : rowOf (opField r.pat) = some r := by
  obtain ⟨r', hfind⟩ : ∃ r', rowOf (opField r.pat) = some r' :=
    Option.isSome_iff_exists.1 (List.find?_isSome.2 ⟨r, hr, beq_self_eq_true _⟩)
  have hop : opField r'.pat = opField r.pat := by simpa using List.find?_some hfind
  rw [hfind, List.inj_on_of_nodup_map opcodes_nodup (List.mem_of_find?_eq_some hfind) hr hop]

/-- A word that matches a row is decoded by that row. -/
theorem decode_of_match {r : OpcodeRow} {w : Word} (hr : r ∈ opcodeRows) (hw : w &&& r.mask = r.pat) :
    decode w = if (r.fields w).wellFormed then .ok (r.fields w) else .error .autoWithMask := by
  simp [decode, decodeRow, opField_of_match hr hw, rowOf_opField_pat hr, hw]

/-! ### From the command to the word and back -/

/-- The family `OpcodeByte` as one statement of all commands. -/
theorem encode_matches_row (i : Instr) : Laws.OpcodeByte.Statement i :=
  match i with
  | .reset => Laws.OpcodeByte.reset
  | .getr idx => Laws.OpcodeByte.getr idx
  | .gfmul x y => Laws.OpcodeByte.gfmul x y
  | .rsinit idx => Laws.OpcodeByte.rsinit idx
  | .rsrem => Laws.OpcodeByte.rsrem
  | .putr b => Laws.OpcodeByte.putr b
  | .clrr => Laws.OpcodeByte.clrr
  | .gete idx => Laws.OpcodeByte.gete idx
  | .getg idx => Laws.OpcodeByte.getg idx
  | .newsym => Laws.OpcodeByte.newsym
  | .puti b => Laws.OpcodeByte.puti b
  | .clri => Laws.OpcodeByte.clri
  | .seg req => Laws.OpcodeByte.seg req
  | .getseg s k => Laws.OpcodeByte.getseg s k
  | .getsb s k => Laws.OpcodeByte.getsb s k
  | .vsel ecl minv maxv => Laws.OpcodeByte.vsel ecl minv maxv
  | .asm => Laws.OpcodeByte.asm
  | .ilv => Laws.OpcodeByte.ilv
  | .getd idx => Laws.OpcodeByte.getd idx
  | .geto idx => Laws.OpcodeByte.geto idx
  | .fnpat => Laws.OpcodeByte.fnpat
  | .place => Laws.OpcodeByte.place
  | .mask auto pattern => Laws.OpcodeByte.mask auto pattern
  | .getm x y => Laws.OpcodeByte.getm x y
  | .encode ecl minv maxv auto pattern => Laws.OpcodeByte.encode ecl minv maxv auto pattern

/-- The row of a command reads the operands back from its word, format by format (30_encoding.md R71, R72). -/
theorem row_reads_encode (i : Instr) : ∃ r, rowOf (opcodeOf i) = some r ∧ r.fields (encode i) = i := by
  cases i with
  | reset | rsrem | clrr | newsym | clri | asm | ilv | fnpat | place => exact ⟨_, rfl, rfl⟩
  | putr b => exact ⟨_, rfl, congrArg Instr.putr (byteLow_encodeFB _ b)⟩
  | puti b => exact ⟨_, rfl, congrArg Instr.puti (byteLow_encodeFB _ b)⟩
  | gfmul x y => exact ⟨_, rfl, congrArg₂ Instr.gfmul (byteMid_encodeFXY _ x y) (byteLow_encodeFXY _ x y)⟩
  | getm x y => exact ⟨_, rfl, congrArg₂ Instr.getm (byteMid_encodeFXY _ x y) (byteLow_encodeFXY _ x y)⟩
  | getr idx => exact ⟨_, rfl, congrArg Instr.getr (idxField_encodeFI _ idx)⟩
  | rsinit idx => exact ⟨_, rfl, congrArg Instr.rsinit (idxField_encodeFI _ idx)⟩
  | gete idx => exact ⟨_, rfl, congrArg Instr.gete (idxField_encodeFI _ idx)⟩
  | getg idx => exact ⟨_, rfl, congrArg Instr.getg (idxField_encodeFI _ idx)⟩
  | getd idx => exact ⟨_, rfl, congrArg Instr.getd (idxField_encodeFI _ idx)⟩
  | geto idx => exact ⟨_, rfl, congrArg Instr.geto (idxField_encodeFI _ idx)⟩
  | getseg s k => exact ⟨_, rfl, congrArg₂ Instr.getseg (segField_encodeFS _ s k) (idxField_encodeFS _ s k)⟩
  | getsb s k => exact ⟨_, rfl, congrArg₂ Instr.getsb (segField_encodeFS _ s k) (idxField_encodeFS _ s k)⟩
  | seg req =>
    have hreq : requestOfBits (modeField (encode (.seg req))) = req := by
      rw [encode, modeField_encodeFM, requestOfBits_requestBits]
    exact ⟨_, rfl, congrArg Instr.seg hreq⟩
  | mask auto pattern =>
    exact ⟨_, rfl, congrArg₂ Instr.mask (autoField_encodeFK _ auto pattern) (maskField_encodeFK _ auto pattern)⟩
  | vsel ecl minv maxv =>
    refine ⟨_, rfl, ?_⟩
    simp only [encode, eclField_encodeFV, minvField_encodeFV, maxvField_encodeFV, levelOfBits_levelBits]
  | encode ecl minv maxv auto pattern =>
    refine ⟨_, rfl, ?_⟩
    simp only [encode, eclField_encodeFV, minvField_encodeFV, maxvField_encodeFV, autoField_encodeFV, maskField_encodeFV,
      levelOfBits_levelBits]

/-- Settles O3: the word of a command matches the row of its opcode (`encode_matches_row`), and that row reads the command
back (`row_reads_encode`). -/
theorem decodeInvertsEncode : Obligations.DecodeInvertsEncode := by
  intro i hwf
  obtain ⟨-, r, hrow, hbits⟩ := encode_matches_row i
  obtain ⟨r', hrow', hfields⟩ := row_reads_encode i
  obtain rfl : r = r' := Option.some.inj (hrow.symm.trans hrow')
  rw [decode_of_match (List.mem_of_find?_eq_some hrow) hbits, hfields, if_pos hwf]

/-! ### From the word to the command and back -/

/-- A field put back where it was read from is the word without its other bits. -/
theorem fieldAt_extractLsb' (w : Word) (lo k : Nat) :
    fieldAt lo (w.extractLsb' lo k) = w &&& fieldAt lo (BitVec.allOnes k) := by
  apply BitVec.eq_of_getLsbD_eq
  intro i hi
  by_cases hlo : lo ≤ i
  · have hback : lo + (i - lo) = i := by omega
    simp [fieldAt, hback, hi, Nat.not_lt.2 hlo, Bool.and_comm]
  · simp [fieldAt, Nat.lt_of_not_le hlo]

theorem ofBool_autoField (w : Word) : BitVec.ofBool (autoField w) = w.extractLsb' 3 1 := by
  apply BitVec.eq_of_getLsbD_eq
  intro i hi
  obtain rfl : i = 0 := by omega
  simp [autoField]

/-! The word of each format, put together again from its fields: the must-be-zero bits and the opcode are the row's, and the
fields and the mask cover the word. -/

section
variable {w pat : Word} {op : BitVec 8}

theorem encodeF0_of_bits (h : w &&& 0xFFFFFFFF#32 = pat) (hpat : fieldAt 24 op = pat := by decide) : encodeF0 op = w := by
  rw [encodeF0, hpat, ← h]
  exact BitVec.and_allOnes

theorem encodeFB_fields (h : w &&& 0xFFFFFF00#32 = pat) (hpat : fieldAt 24 op = pat := by decide) :
    encodeFB op (byteLow w) = w := by
  rw [encodeFB, hpat, ← h, byteLow, fieldAt_extractLsb', ← BitVec.and_or_distrib_left]
  exact BitVec.and_allOnes

theorem encodeFXY_fields (h : w &&& 0xFFFF0000#32 = pat) (hpat : fieldAt 24 op = pat := by decide) :
    encodeFXY op (byteMid w) (byteLow w) = w := by
  simp only [encodeFXY, hpat, ← h, byteMid, byteLow, fieldAt_extractLsb', ← BitVec.and_or_distrib_left]
  exact BitVec.and_allOnes

theorem encodeFI_fields (h : w &&& 0xFFFF0000#32 = pat) (hpat : fieldAt 24 op = pat := by decide) :
    encodeFI op (idxField w) = w := by
  simp only [encodeFI, hpat, ← h, idxField, fieldAt_extractLsb', ← BitVec.and_or_distrib_left]
  exact BitVec.and_allOnes

theorem encodeFS_fields (h : w &&& 0xFF000000#32 = pat) (hpat : fieldAt 24 op = pat := by decide) :
    encodeFS op (segField w) (idxField w) = w := by
  simp only [encodeFS, hpat, ← h, segField, idxField, fieldAt_extractLsb', ← BitVec.and_or_distrib_left]
  exact BitVec.and_allOnes

theorem encodeFM_fields (h : w &&& 0xFFFFFFFC#32 = pat) (hpat : fieldAt 24 op = pat := by decide) :
    encodeFM op (modeField w) = w := by
  simp only [encodeFM, hpat, ← h, modeField, fieldAt_extractLsb', ← BitVec.and_or_distrib_left]
  exact BitVec.and_allOnes

theorem encodeFK_fields (h : w &&& 0xFFFFFFF0#32 = pat) (hpat : fieldAt 24 op = pat := by decide) :
    encodeFK op (autoField w) (maskField w) = w := by
  simp only [encodeFK, hpat, ← h, ofBool_autoField, maskField, fieldAt_extractLsb', ← BitVec.and_or_distrib_left]
  exact BitVec.and_allOnes

theorem encodeFV_fields (h : w &&& 0xFF0003F0#32 = pat) (hpat : fieldAt 24 op = pat := by decide) :
    encodeFV op (eclField w) (minvField w) (maxvField w) (autoField w) (maskField w) = w := by
  simp only [encodeFV, hpat, ← h, ofBool_autoField, eclField, minvField, maxvField, maskField, fieldAt_extractLsb',
    ← BitVec.and_or_distrib_left]
  exact BitVec.and_allOnes

/-- `VSEL`'s word has zeros for `auto` and `mask`. -/
theorem encodeFV_fields_vsel (h : w &&& 0xFF0003FF#32 = pat) (hpat : fieldAt 24 op = pat := by decide) :
    encodeFV op (eclField w) (minvField w) (maxvField w) false 0#3 = w := by
  have hauto : fieldAt 3 (BitVec.ofBool false) = 0#32 := by decide
  have hmask : fieldAt 0 0#3 = 0#32 := by decide
  simp only [encodeFV, hauto, hmask, BitVec.or_zero, hpat, ← h, eclField, minvField, maxvField, fieldAt_extractLsb',
    ← BitVec.and_or_distrib_left]
  exact BitVec.and_allOnes

end

/-! Every row reads all the bits its mask leaves open, so the command it reads has the word it was read from. -/

theorem encode_fields_low (w : Word) : ∀ r ∈ opcodeRowsLow, w &&& r.mask = r.pat → encode (r.fields w) = w := by
  simp only [opcodeRowsLow, List.forall_mem_cons, encode, opcodeOf]
  exact ⟨fun h => encodeF0_of_bits h, fun h => encodeFI_fields h, fun h => encodeFXY_fields h, fun h => encodeFI_fields h,
    fun h => encodeF0_of_bits h, fun h => encodeFB_fields h, fun h => encodeF0_of_bits h, fun h => encodeFI_fields h,
    fun h => encodeFI_fields h, List.forall_mem_nil _⟩

theorem encode_fields_mid (w : Word) : ∀ r ∈ opcodeRowsMid, w &&& r.mask = r.pat → encode (r.fields w) = w := by
  simp only [opcodeRowsMid, List.forall_mem_cons, encode, opcodeOf, requestBits_requestOfBits, levelBits_levelOfBits]
  exact ⟨fun h => encodeF0_of_bits h, fun h => encodeFB_fields h, fun h => encodeF0_of_bits h, fun h => encodeFM_fields h,
    fun h => encodeFS_fields h, fun h => encodeFS_fields h, fun h => encodeFV_fields_vsel h, List.forall_mem_nil _⟩

theorem encode_fields_high (w : Word) : ∀ r ∈ opcodeRowsHigh, w &&& r.mask = r.pat → encode (r.fields w) = w := by
  simp only [opcodeRowsHigh, List.forall_mem_cons, encode, opcodeOf, levelBits_levelOfBits]
  exact ⟨fun h => encodeF0_of_bits h, fun h => encodeF0_of_bits h, fun h => encodeFI_fields h, fun h => encodeFI_fields h,
    fun h => encodeF0_of_bits h, fun h => encodeF0_of_bits h, fun h => encodeFK_fields h, fun h => encodeFXY_fields h,
    fun h => encodeFV_fields h, List.forall_mem_nil _⟩

theorem encode_fields_of_match {r : OpcodeRow} {w : Word} (hr : r ∈ opcodeRows) (hw : w &&& r.mask = r.pat) :
    encode (r.fields w) = w := by
  have hrows : ∀ r ∈ opcodeRows, w &&& r.mask = r.pat → encode (r.fields w) = w :=
    List.forall_mem_append.2 ⟨List.forall_mem_append.2 ⟨encode_fields_low w, encode_fields_mid w⟩, encode_fields_high w⟩
  exact hrows r hr hw

/-- The decoder answers a command only once its `auto`, `mask` check has passed (30_encoding.md R81). -/
theorem wellFormed_of_decode {w : Word} {i : Instr} (h : decode w = .ok i) : i.wellFormed = true := by
  obtain ⟨r, hr, hbits, rfl⟩ := Machine.exists_row_of_decode h
  by_contra hwf
  rw [decode_of_match hr hbits, if_neg hwf] at h
  cases h

/-- Settles O4: the row that decodes a word (`exists_row_of_decode`) leaves no bit of it unread (`encode_fields_of_match`). -/
theorem everyCommandHasOneWord : Obligations.EveryCommandHasOneWord := by
  intro w i h
  obtain ⟨r, hr, hbits, rfl⟩ := Machine.exists_row_of_decode h
  exact ⟨wellFormed_of_decode h, encode_fields_of_match hr hbits⟩

/-! ### The opcode map -/

/-- The reference's opcode map is the decoder's, as numbers. -/
theorem opcodeMap_eq : opcodeMap = opcodeRows.map fun r => (r.pat.toNat, r.mask.toNat) := by decide

/-- Matching a row of the reference's map is matching one of the decoder's. -/
theorem opcodeMap_any_iff (w : Word) :
    (opcodeMap.any fun row => w.toNat &&& row.2 == row.1) = true ↔ ∃ r ∈ opcodeRows, w &&& r.mask = r.pat := by
  simp [opcodeMap_eq, ← BitVec.toNat_inj]

/-- `w` is `MASK` or `ENCODE` with `auto` = 1 and `mask` ≠ 0 (30_encoding.md R76 item 3). -/
def isAutoWithMask (w : Word) : Bool :=
  (opField w == 0x62#8 || opField w == 0x70#8) && autoField w && maskField w != 0#3

/-- The reference's command words in the decoder's terms. -/
theorem isCommandWord_iff (w : Word) :
    isCommandWord w = true ↔ (∃ r ∈ opcodeRows, w &&& r.mask = r.pat) ∧ isAutoWithMask w = false := by
  have hop (n : Nat) (hn : n < 2 ^ 8) : (w.toNat / 2 ^ 24 == n) = (opField w == BitVec.ofNat 8 n) := by
    have := w.isLt
    rw [Bool.eq_iff_iff, beq_iff_eq, beq_iff_eq, ← BitVec.toNat_inj, opField, BitVec.extractLsb'_toNat,
      BitVec.toNat_ofNat, Nat.shiftRight_eq_div_pow]
    omega
  have hmask : (w.toNat % 8 != 0) = (maskField w != 0#3) := by
    rw [Bool.eq_iff_iff, bne_iff_ne, bne_iff_ne, ne_eq, ne_eq, ← BitVec.toNat_inj, maskField, BitVec.extractLsb'_toNat]
    rfl
  rw [isCommandWord, Bool.and_eq_true, opcodeMap_any_iff, hop _ (by decide), hop _ (by decide), hmask, Bool.not_eq_true']
  rfl

/-- Of the commands a row reads, only `MASK` and `ENCODE` can be ill-formed, and the opcode tells them from the others. -/
theorem wellFormed_fields (w : Word) : ∀ r ∈ opcodeRows, opField w = opField r.pat →
    (r.fields w).wellFormed = !isAutoWithMask w := by
  simp +contextual [opcodeRows, opcodeRowsLow, opcodeRowsMid, opcodeRowsHigh, opField, isAutoWithMask, Instr.wellFormed,
    maskFieldsLegal, bne]

/-- Settles O5: the matched row decodes the word (`decode_of_match`) unless the check on `auto` and `mask` refuses it
(`wellFormed_fields`). -/
theorem commandWordsAreTheOpcodeMap : Obligations.CommandWordsAreTheOpcodeMap := by
  intro w
  rw [isCommandWord_iff]
  constructor
  · rintro ⟨i, h⟩
    obtain ⟨r, hr, hbits, rfl⟩ := Machine.exists_row_of_decode h
    have hwf := wellFormed_of_decode h
    rw [wellFormed_fields w r hr (opField_of_match hr hbits)] at hwf
    exact ⟨⟨r, hr, hbits⟩, by simpa using hwf⟩
  · rintro ⟨⟨r, hr, hbits⟩, hlegal⟩
    have hwf := wellFormed_fields w r hr (opField_of_match hr hbits)
    rw [hlegal, Bool.not_false] at hwf
    exact ⟨r.fields w, by rw [decode_of_match hr hbits, if_pos hwf]⟩

/-- Settles O6: seven words are those of commands, which O3 reads back; the eighth has `auto` = 1 and `mask` = 1. -/
theorem wordsOfTheSpecDecode : Obligations.WordsOfTheSpecDecode :=
  ⟨decodeInvertsEncode (.gfmul 0x53#8 0xCA#8) rfl, decodeInvertsEncode (.rsinit 10#16) rfl,
    decodeInvertsEncode (.seg .numeric) rfl, decodeInvertsEncode (.vsel .quartile 1#6 40#6) rfl,
    decodeInvertsEncode (.mask false 3#3) rfl, decodeInvertsEncode (.encode .medium 1#6 40#6 true 0#3) rfl,
    decodeInvertsEncode (.getseg 255#8 2#16) rfl, by decide⟩

end Sys2Proof
end

section
/-! PROOFS. Every command ends with one response word (30_encoding.md R70, R73): what its effect answers and records, and that
no command raises IllegalCommand (60_exceptions.md R265), which is the decoder's. -/

namespace Sys2Proof.Machine

open Sys2Proof.Reference

/-! ### The errors a command raises -/

/-- The last response of `t` is not that of IllegalCommand. -/
def NotIllegal (t : State) : Prop := t.ports.rsps.getLast? ≠ some (errWord .illegalCommand)

theorem okWord_ne_illegalCommand (v : BitVec 24) : okWord v ≠ errWord .illegalCommand := fun h => by
  simpa [statusOf_okWord] using (congrArg statusOf h).trans (by decide : statusOf (errWord .illegalCommand) = 4)

theorem errWord_ne_illegalCommand {k : ErrKind} (hk : k ≠ .illegalCommand) : errWord k ≠ errWord .illegalCommand := by
  cases k with
  | invalidArgument | dataTooLong | internalInvariant => decide
  | illegalCommand => exact absurd rfl hk

section
variable {s t : State}

theorem notIllegal_putResponse {w : Word} (hw : w ≠ errWord .illegalCommand) : NotIllegal (putResponse w s) := by
  simpa [NotIllegal] using hw

theorem notIllegal_respond (v : BitVec 24) : NotIllegal (respond v s) := notIllegal_putResponse (okWord_ne_illegalCommand v)

theorem notIllegal_raise {k : ErrKind} (hk : k ≠ .illegalCommand := by decide) : NotIllegal (raise k s) :=
  notIllegal_putResponse (errWord_ne_illegalCommand hk)

theorem notIllegal_unless {k : ErrKind} {c : Prop} [Decidable c] (h : NotIllegal t)
    (hk : k ≠ .illegalCommand := by decide) : NotIllegal (if c then raise k s else t) := by
  split
  · exact notIllegal_raise hk
  · exact h

theorem notIllegal_whenRunning {body : State → State} (h : NotIllegal (body s)) : NotIllegal (whenRunning body s) := by
  rcases whenRunning_cases body s with ⟨-, heq⟩ | ⟨-, heq⟩
  · exact heq ▸ h
  · exact heq ▸ notIllegal_putResponse (by decide)

theorem getr_notIllegal (sel : BitVec 16) : NotIllegal (getr sel s) := by
  unfold getr
  split
  · exact notIllegal_respond _
  · exact notIllegal_raise

theorem getseg_notIllegal (idx : BitVec 8) (k : BitVec 16) : NotIllegal (getseg idx k s) := by
  refine notIllegal_unless ?_
  split
  · exact notIllegal_respond _
  · exact notIllegal_raise

theorem vsel_notIllegal (cfg : Configuration) (ecl : Level) (minv maxv : BitVec 6) :
    NotIllegal (vsel cfg ecl minv maxv s) := by
  refine notIllegal_unless (notIllegal_unless ?_)
  split
  · exact notIllegal_raise
  · exact notIllegal_respond _

theorem asm_notIllegal (cfg : Configuration) : NotIllegal (asm cfg s) := by
  refine notIllegal_unless ?_
  split
  · exact notIllegal_raise
  · exact notIllegal_respond _

theorem encodeSymbol_notIllegal (cfg : Configuration) (ecl : Level) (minv maxv : BitVec 6) (auto : Bool)
    (pattern : BitVec 3) : NotIllegal (encodeSymbol cfg ecl minv maxv auto pattern s) := by
  refine notIllegal_unless (notIllegal_unless ?_)
  dsimp only
  split
  · exact notIllegal_raise
  split
  · exact notIllegal_raise
  · exact notIllegal_unless (notIllegal_respond _)

end

/-- Behind the gate on `HALT` a command makes its checks, each for an error of its own (60_exceptions.md R261 to R264), and
answers. -/
theorem exec_notIllegal (i : Instr) (s : State) : ∃ t, exec i s = .next t ∧ NotIllegal t := by
  cases i with
  | reset => exact ⟨_, rfl, notIllegal_respond _⟩
  | getr sel => exact ⟨_, rfl, getr_notIllegal sel⟩
  | gfmul | clrr | newsym => exact ⟨_, rfl, notIllegal_whenRunning (notIllegal_respond _)⟩
  | rsinit | putr | gete | getg | clri | getd | geto | fnpat | mask | getm =>
    exact ⟨_, rfl, notIllegal_whenRunning (notIllegal_unless (notIllegal_respond _))⟩
  | rsrem | puti | getsb | ilv | place =>
    exact ⟨_, rfl, notIllegal_whenRunning (notIllegal_unless (notIllegal_unless (notIllegal_respond _)))⟩
  | seg =>
    exact ⟨_, rfl, notIllegal_whenRunning
      (notIllegal_unless (notIllegal_unless (notIllegal_unless (notIllegal_respond _))))⟩
  | getseg idx k => exact ⟨_, rfl, notIllegal_whenRunning (getseg_notIllegal idx k)⟩
  | vsel ecl minv maxv => exact ⟨_, rfl, notIllegal_whenRunning (vsel_notIllegal _ ecl minv maxv)⟩
  | asm => exact ⟨_, rfl, notIllegal_whenRunning (asm_notIllegal _)⟩
  | encode ecl minv maxv auto pattern =>
    exact ⟨_, rfl, notIllegal_whenRunning (encodeSymbol_notIllegal _ ecl minv maxv auto pattern)⟩

/-! ### The response -/

theorem zeroField_okWord (v : BitVec 24) : zeroField (okWord v) = 0 := by
  have := v.isLt
  simp only [zeroField, okWord, BitVec.toNat_setWidth]
  omega

theorem Effect.zeroField_response (e : Effect) : zeroField e.response = 0 := by
  cases e with
  | answer v | gf v _ | rs v _ | pipe v _ => exact zeroField_okWord v
  | fail k => cases k <;> decide
  | halted | reset => decide

/-- The reference's error of code 1 to 4 is the machine's error of that kind. -/
theorem errorState_statusCode (k : ErrKind) (s : State) :
    errWord k = errResponse (statusCode k).toNat ∧ raise k s = errorState s (statusCode k).toNat := by
  cases k <;> exact ⟨rfl, rfl⟩

theorem statusCode_of_notIllegal {k : ErrKind} {s : State} (h : NotIllegal (raise k s)) :
    (statusCode k).toNat = 1 ∨ (statusCode k).toNat = 2 ∨ (statusCode k).toNat = 3 := by
  cases k with
  | invalidArgument | dataTooLong | internalInvariant => decide
  | illegalCommand => exact absurd (by simp) h

/-- Settles O12: a command has one effect (`exec_effect`), and its error is not IllegalCommand (`exec_notIllegal`). -/
theorem everyCommandAnswersOnce : Obligations.EveryCommandAnswersOnce := by
  intro i s
  obtain ⟨t, ht, hlegal⟩ := exec_notIllegal i s
  obtain ⟨e, he, rfl⟩ := exec_effect ht
  refine ⟨_, e.response, ht, e.apply_ports s, e.zeroField_response, ?_⟩
  cases e with
  | answer v | gf v _ | rs v _ | pipe v _ => exact .inl ⟨statusOf_okWord v, fun _ => ⟨rfl, rfl⟩⟩
  | fail k =>
    obtain ⟨hword, hstate⟩ := errorState_statusCode k s
    exact .inr (.inl ⟨_, statusCode_of_notIllegal hlegal, hword, hstate⟩)
  | halted => exact .inr (.inr ⟨he, rfl, rfl⟩)
  | reset => exact .inl ⟨statusOf_okWord 0, fun hi => absurd he hi⟩

end Sys2Proof.Machine
end

section
/-! PROOFS. The arithmetic of GF(2^8) (40_gf_arithmetic.md R100 to R103). Every function of the multiplier respects exclusive
or, so two of them are equal when they are equal on the bytes with one bit set. `gf_mul` is Horner's rule in the operation
"times 2", and commutes with everything that commutes with that operation: that gives the ring laws. The orbit of 1 under
"times 2" has 255 elements, so it is all of the non-zero bytes: that gives the order of 2, and from it no zero divisors. -/

namespace Sys2Proof.Machine

open Sys2Proof.Reference

/-! ### Functions that respect exclusive or -/

/-- The function takes a sum, which is the exclusive or (40_gf_arithmetic.md R100), to the sum. -/
def XorAdditive {m n : Nat} (f : BitVec m → BitVec n) : Prop := ∀ a b, f (a ^^^ b) = f a ^^^ f b

section
variable {m n : Nat}

theorem XorAdditive.map_zero {f : BitVec m → BitVec n} (hf : XorAdditive f) : f 0#m = 0#n := by
  simpa using hf 0#m 0#m

theorem setWidth_succ_eq_xor_twoPow {a : BitVec m} {k : Nat} (hk : a.getLsbD k = true) :
    (a.setWidth (k + 1)).setWidth m = (a.setWidth k).setWidth m ^^^ BitVec.twoPow m k := by
  ext i hi
  by_cases h : i = k
  · subst h
    simp [hk]
  · have hlt : i < k + 1 ↔ i < k := by omega
    simp [hlt, h]

/-- Two additive functions are equal when they agree on the vectors with one bit set. -/
theorem XorAdditive.eq_of_twoPow {f g : BitVec m → BitVec n} (hf : XorAdditive f) (hg : XorAdditive g)
    (h : ∀ i < m, f (BitVec.twoPow m i) = g (BitVec.twoPow m i)) (a : BitVec m) : f a = g a := by
  have low : ∀ k ≤ m, f ((a.setWidth k).setWidth m) = g ((a.setWidth k).setWidth m) := by
    intro k
    induction k with
    | zero => simp [BitVec.of_length_zero, hf.map_zero, hg.map_zero]
    | succ k ih =>
      intro hk
      cases hbit : a.getLsbD k with
      | false =>
        rw [BitVec.setWidth_setWidth_succ_eq_setWidth_setWidth_of_getLsbD_false hbit, ih (by omega)]
      | true => rw [setWidth_succ_eq_xor_twoPow hbit, hf, hg, ih (by omega), h k (by omega)]
  simpa using low m le_rfl

/-- A conditional sum respects exclusive or in what is added. -/
theorem ite_xor_value (b : Bool) (z z' v v' : BitVec n) :
    (if b then (z ^^^ z') ^^^ (v ^^^ v') else z ^^^ z') =
      (if b then z ^^^ v else z) ^^^ (if b then z' ^^^ v' else z') := by
  cases b with
  | false => rfl
  | true =>
    simp only [if_true]
    ac_rfl

/-- A conditional sum respects exclusive or in the condition. -/
theorem ite_xor_condition (b b' : Bool) (z z' v : BitVec n) :
    (if b ^^ b' then (z ^^^ z') ^^^ v else z ^^^ z') =
      (if b then z ^^^ v else z) ^^^ (if b' then z' ^^^ v else z') := by
  have cancel : (z ^^^ v) ^^^ (z' ^^^ v) = z ^^^ z' := by
    rw [BitVec.xor_comm z' v, BitVec.xor_assoc, ← BitVec.xor_assoc v, BitVec.xor_self, BitVec.zero_xor]
  match b, b' with
  | false, false => rfl
  | false, true => exact BitVec.xor_assoc z z' v
  | true, false =>
    simp only [Bool.xor_false, if_true, Bool.false_eq_true, if_false]
    ac_rfl
  | true, true => exact cancel.symm

end

/-! ### Times 2, and the product by Horner's rule -/

/-- An element times 2 (40_gf_arithmetic.md R102, "doubling"). -/
def gfDouble (z : Byte) : Byte := if z.getLsbD 7 then (z <<< 1) ^^^ 0x1D#8 else z <<< 1

theorem gfMulRound_eq (x y z : Byte) (i : Nat) :
    gfMulRound x y z i = if y.getLsbD i then gfDouble z ^^^ x else gfDouble z := rfl

theorem gfDouble_xorAdditive : XorAdditive gfDouble := fun a b => by
  simp only [gfDouble, BitVec.getLsbD_xor, BitVec.shiftLeft_xor_distrib, ite_xor_condition]

theorem gfMulRound_xor_left (y z z' x x' : Byte) (i : Nat) :
    gfMulRound x y z i ^^^ gfMulRound x' y z' i = gfMulRound (x ^^^ x') y (z ^^^ z') i := by
  simp only [gfMulRound_eq, gfDouble_xorAdditive z z', ite_xor_value]

theorem gfMulRound_xor_right (x z z' y y' : Byte) (i : Nat) :
    gfMulRound x y z i ^^^ gfMulRound x y' z' i = gfMulRound x (y ^^^ y') (z ^^^ z') i := by
  simp only [gfMulRound_eq, gfDouble_xorAdditive z z', BitVec.getLsbD_xor, ite_xor_condition]

theorem gfMul_xorAdditive_left (y : Byte) : XorAdditive (gfMul · y) := fun x x' =>
  List.foldl_hom₂ _ (· ^^^ ·) _ _ _ 0#8 0#8 fun z z' => gfMulRound_xor_left y z z' x x'

theorem gfMul_xorAdditive_right (x : Byte) : XorAdditive (gfMul x) := fun y y' =>
  List.foldl_hom₂ _ (· ^^^ ·) _ _ _ 0#8 0#8 fun z z' => gfMulRound_xor_right x z z' y y'

/-- An additive function that commutes with "times 2" takes a product to the product. -/
theorem XorAdditive.map_gfMul {f : Byte → Byte} (hf : XorAdditive f) (hd : Function.Commute f gfDouble) (x y : Byte) :
    f (gfMul x y) = gfMul (f x) y := by
  have round (z : Byte) (i : Nat) : gfMulRound (f x) y (f z) i = f (gfMulRound x y z i) := by
    simp only [gfMulRound_eq, apply_ite f, hf _ x, hd z]
  have := List.foldl_hom f (l := [7, 6, 5, 4, 3, 2, 1, 0]) (init := 0#8) round
  rw [hf.map_zero] at this
  exact this.symm

theorem gfMul_gfDouble_left (x y : Byte) : gfMul (gfDouble x) y = gfDouble (gfMul x y) :=
  (gfDouble_xorAdditive.map_gfMul (Function.Commute.refl gfDouble) x y).symm

/-! ### The ring laws -/

theorem gfMul_right_comm (a b c : Byte) : gfMul (gfMul a b) c = gfMul (gfMul a c) b :=
  (gfMul_xorAdditive_left c).map_gfMul (gfMul_gfDouble_left · c) a b

theorem one_gfMul (a : Byte) : gfMul 1#8 a = a :=
  (gfMul_xorAdditive_right 1#8).eq_of_twoPow (g := id) (fun _ _ => rfl) (by decide) a

theorem gfMul_comm (a b : Byte) : gfMul a b = gfMul b a := by
  simpa only [one_gfMul] using gfMul_right_comm 1#8 a b

theorem gfMul_one (a : Byte) : gfMul a 1#8 = a := (gfMul_comm a 1#8).trans (one_gfMul a)

theorem gfMul_assoc (a b c : Byte) : gfMul (gfMul a b) c = gfMul a (gfMul b c) := calc
  gfMul (gfMul a b) c = gfMul (gfMul b a) c := by rw [gfMul_comm a b]
  _ = gfMul (gfMul b c) a := gfMul_right_comm b a c
  _ = gfMul a (gfMul b c) := gfMul_comm _ a

theorem zero_gfMul (a : Byte) : gfMul 0#8 a = 0#8 := (gfMul_xorAdditive_left a).map_zero

theorem gfMul_zero (a : Byte) : gfMul a 0#8 = 0#8 := (gfMul_xorAdditive_right a).map_zero

theorem gfMul_two (a : Byte) : gfMul a 2#8 = gfDouble a := calc
  gfMul a 2#8 = gfMul (gfDouble 1#8) a := gfMul_comm a 2#8
  _ = gfDouble a := by rw [gfMul_gfDouble_left, one_gfMul]

/-! ### The powers of 2 -/

theorem gfMul_iterate_gfDouble_left (i : Nat) (x y : Byte) : gfMul (gfDouble^[i] x) y = gfDouble^[i] (gfMul x y) :=
  Function.Semiconj.iterate_right (f := (gfMul · y)) (gfMul_gfDouble_left · y) i x

theorem iterate_gfDouble_one_255 : gfDouble^[255] 1#8 = 1#8 := by decide +kernel

/-- The order of 2 divides 255 = 3 · 5 · 17, and none of 85, 51 and 15, which every smaller divisor divides one of. -/
theorem minimalPeriod_gfDouble_one : Function.minimalPeriod gfDouble 1#8 = 255 := by
  have period (k : Nat) : gfDouble^[k] 1#8 = 1#8 ↔ Function.minimalPeriod gfDouble 1#8 ∣ k :=
    Function.isPeriodicPt_iff_minimalPeriod_dvd
  have smaller : ∀ d ∈ Nat.divisors 255, d = 255 ∨ d ∣ 85 ∨ d ∣ 51 ∨ d ∣ 15 := by decide +kernel
  have h255 := Nat.mem_divisors.2 ⟨(period 255).1 iterate_gfDouble_one_255, by decide⟩
  rcases smaller _ h255 with h | h | h | h
  · exact h
  · exact absurd ((period 85).2 h) (by decide +kernel)
  · exact absurd ((period 51).2 h) (by decide +kernel)
  · exact absurd ((period 15).2 h) (by decide +kernel)

/-- Doubling 255 times is the identity, so doubling fewer times loses nothing. -/
theorem iterate_gfDouble_eq_zero {i : Nat} (hi : i ≤ 255) {x : Byte} (h : gfDouble^[i] x = 0#8) : x = 0#8 := calc
  x = gfMul 1#8 x := (one_gfMul x).symm
  _ = gfMul (gfDouble^[255] 1#8) x := by rw [iterate_gfDouble_one_255]
  _ = gfDouble^[255 - i] (gfDouble^[i] x) := by
    rw [gfMul_iterate_gfDouble_left, one_gfMul, ← Function.iterate_add_apply, Nat.sub_add_cancel hi]
  _ = 0#8 := by rw [h, Function.iterate_fixed gfDouble_xorAdditive.map_zero]

theorem iterate_gfDouble_one_injOn : Set.InjOn (gfDouble^[·] 1#8) (Set.Iio 255) :=
  minimalPeriod_gfDouble_one ▸ Function.iterate_injOn_Iio_minimalPeriod

/-- 255 different bytes that are not zero are all of them. -/
theorem exists_iterate_gfDouble_one {a : Byte} (ha : a ≠ 0#8) : ∃ i < 255, gfDouble^[i] 1#8 = a := by
  have maps : Set.MapsTo (gfDouble^[·] 1#8) (Finset.range 255) (Finset.univ.erase (0#8 : Byte)) := fun i hi => by
    have hi : i < 255 := by simpa using hi
    simpa using fun h => absurd (iterate_gfDouble_eq_zero hi.le h) (by decide)
  have inj : Set.InjOn (gfDouble^[·] 1#8) (Finset.range 255) := by simpa using iterate_gfDouble_one_injOn
  have card : (Finset.univ.erase (0#8 : Byte)).card ≤ (Finset.range 255).card := by decide +kernel
  simpa using Finset.surjOn_of_injOn_of_card_le _ maps inj card (by simpa using ha)

theorem eq_zero_of_gfMul_eq_zero {a b : Byte} (h : gfMul a b = 0#8) : a = 0#8 ∨ b = 0#8 := by
  refine or_iff_not_imp_left.2 fun ha => ?_
  obtain ⟨i, hi, rfl⟩ := exists_iterate_gfDouble_one ha
  rw [gfMul_iterate_gfDouble_left, one_gfMul] at h
  exact iterate_gfDouble_eq_zero hi.le h

/-- Settles O25: the ring laws are those of Horner's rule, the powers of 2 the orbit of 1 under "times 2". -/
theorem fieldLaws : Obligations.FieldLaws := by
  have htwo : (fun p => gfMul p 2#8) = gfDouble := funext gfMul_two
  unfold Obligations.FieldLaws
  rw [htwo]
  refine ⟨gfMul_comm, fun a => ⟨gfMul_zero a, zero_gfMul a⟩, fun a => ⟨gfMul_one a, one_gfMul a⟩, gfMul_assoc,
    gfMul_xorAdditive_right, fun _ _ => eq_zero_of_gfMul_eq_zero, fun a => ?_, fun _ => exists_iterate_gfDouble_one,
    fun _ _ hi hj => iterate_gfDouble_one_injOn hi hj, iterate_gfDouble_one_255⟩
  rw [gfMul_two, gfDouble]
  cases a.getLsbD 7 with
  | false => exact BitVec.xor_zero.symm
  | true => rfl

/-! ### The product of polynomials, reduced -/

theorem carrylessProduct_xorAdditive_left (y : Byte) : XorAdditive (carrylessProduct · y) := fun x x' =>
  List.foldl_hom₂ _ (· ^^^ ·) _ _ _ 0#16 0#16 fun p p' i => by
    simp only [BitVec.setWidth_xor, BitVec.shiftLeft_xor_distrib, ite_xor_value]

theorem carrylessProduct_xorAdditive_right (x : Byte) : XorAdditive (carrylessProduct x) := fun y y' =>
  List.foldl_hom₂ _ (· ^^^ ·) _ _ _ 0#16 0#16 fun p p' i => by
    simp only [BitVec.getLsbD_xor, ite_xor_condition]

theorem reduce11D_xorAdditive : XorAdditive reduce11D := fun p p' => by
  unfold reduce11D
  rw [← BitVec.setWidth_xor]
  refine congrArg (BitVec.setWidth 8) (List.foldl_hom₂ _ (· ^^^ ·) _ _ _ p p' fun q q' i => ?_)
  simp only [BitVec.getLsbD_xor, ite_xor_condition]

theorem fieldProduct_xorAdditive_left (y : Byte) : XorAdditive (fieldProduct · y) := fun x x' => by
  simp only [fieldProduct, carrylessProduct_xorAdditive_left y x x', reduce11D_xorAdditive _ _]

theorem fieldProduct_xorAdditive_right (x : Byte) : XorAdditive (fieldProduct x) := fun y y' => by
  simp only [fieldProduct, carrylessProduct_xorAdditive_right x y y', reduce11D_xorAdditive _ _]

/-- Both are additive in each argument, and they agree on the 64 pairs of bytes with one bit set. -/
theorem gfMul_eq_fieldProduct (x y : Byte) : gfMul x y = fieldProduct x y := by
  refine (gfMul_xorAdditive_left y).eq_of_twoPow (fieldProduct_xorAdditive_left y) (fun i hi => ?_) x
  refine (gfMul_xorAdditive_right _).eq_of_twoPow (fieldProduct_xorAdditive_right _) (fun j hj => ?_) y
  revert i j
  decide

theorem encode_gfmul (x y : Byte) :
    encode (.gfmul x y) = 0x10000000#32 ||| (x.setWidth 32 <<< 8) ||| y.setWidth 32 := by
  rw [← (by decide : fieldAt 24 0x10#8 = 0x10000000#32)]
  simp [encode, encodeFXY, fieldAt, opcodeOf]

/-- A byte answered is the response with that value. -/
theorem okWord_byte (b : Byte) : okWord (b.setWidth 24) = okResponse b.toNat := by
  simp [okWord, okResponse]

/-- Settles O24: `gf_mul` is the reduced product (`gfMul_eq_fieldProduct`), and `GFMUL` on a running core is its body. -/
theorem gfmulIsTheFieldProduct : Obligations.GfmulIsTheFieldProduct := by
  intro s x y
  refine ⟨encode_gfmul x y, fun hrun => ?_⟩
  rw [exec_gfmul_running x y hrun, ← gfMul_eq_fieldProduct, ← okWord_byte]
  rfl

end Sys2Proof.Machine
end

section
/-! PROOFS. The RS unit's arithmetic (41_reed_solomon.md R110 to R113). A round of `rs_divisor` is a product with a monomial, so
the divisor is the product of the monomials, and its value at x is the product of x + 2^i. A round of `rs_remainder` takes data
and remainder so far to that times x plus a multiple of the divisor, so at a root of the divisor their value stays 0. -/

namespace Sys2Proof.Machine

open Sys2Proof.Reference

/-! ### The value of a polynomial -/

/-- A step of Horner's rule: the value so far, times x, plus the next coefficient. -/
def hornerStep (x acc c : Byte) : Byte := gfMul acc x ^^^ c

theorem polyEval_eq_foldl (p : List Byte) (x : Byte) : polyEval p x = p.foldl (hornerStep x) 0#8 := by
  simp only [polyEval, ← gfMul_eq_fieldProduct]
  rfl

theorem hornerStep_xor (x a a' c c' : Byte) :
    hornerStep x (a ^^^ a') (c ^^^ c') = hornerStep x a c ^^^ hornerStep x a' c' := by
  simp only [hornerStep, gfMul_xorAdditive_left x a a']
  ac_rfl

theorem foldl_hornerStep_zipWith (x : Byte) (p q : List Byte) (h : p.length = q.length) (a a' : Byte) :
    (List.zipWith (· ^^^ ·) p q).foldl (hornerStep x) (a ^^^ a') =
      p.foldl (hornerStep x) a ^^^ q.foldl (hornerStep x) a' := by
  induction p generalizing q a a' with
  | nil => simp [List.length_eq_zero_iff.1 h.symm]
  | cons c p ih =>
    obtain ⟨c', q, rfl⟩ := List.exists_cons_of_length_eq_add_one h.symm
    simpa only [List.zipWith_cons_cons, List.foldl_cons, hornerStep_xor] using ih q (Nat.succ.inj h) _ _

/-- A polynomial added to the lower coefficients. -/
theorem polyEval_append_zipWith (p : List Byte) {q r : List Byte} (h : q.length = r.length) (x : Byte) :
    polyEval (p ++ List.zipWith (· ^^^ ·) q r) x = polyEval (p ++ q) x ^^^ polyEval r x := by
  simpa only [polyEval_eq_foldl, List.foldl_append, BitVec.xor_zero] using foldl_hornerStep_zipWith x q r h _ 0#8

/-- A further coefficient: the polynomial times x, plus that coefficient. -/
theorem polyEval_concat (p : List Byte) (c x : Byte) : polyEval (p ++ [c]) x = gfMul (polyEval p x) x ^^^ c := by
  simp [polyEval_eq_foldl, hornerStep]

theorem polyEval_zero_cons (p : List Byte) (x : Byte) : polyEval (0#8 :: p) x = polyEval p x := by
  simp [polyEval_eq_foldl, hornerStep, zero_gfMul]

theorem polyEval_zeros (n : Nat) (x : Byte) : polyEval (List.replicate n 0#8) x = 0#8 := by
  induction n with
  | zero => rfl
  | succ n ih => rw [List.replicate_succ, polyEval_zero_cons, ih]

/-- A polynomial times a scalar. -/
theorem polyEval_scale (p : List Byte) (k x : Byte) : polyEval (p.map (gfMul · k)) x = gfMul (polyEval p x) k := by
  have step (acc c : Byte) : hornerStep x (gfMul acc k) (gfMul c k) = gfMul (hornerStep x acc c) k := by
    rw [hornerStep, hornerStep, gfMul_right_comm]
    exact (gfMul_xorAdditive_left k _ c).symm
  rw [polyEval_eq_foldl, polyEval_eq_foldl, List.foldl_map, ← zero_gfMul k, List.foldl_hom (gfMul · k) step, zero_gfMul]

/-! ### The product of the monomials -/

theorem timesMonomial_eq (p : List Byte) (r : Byte) :
    timesMonomial p r = List.zipWith (· ^^^ ·) (p ++ [0#8]) (0#8 :: p.map (gfMul · r)) := by
  simp only [timesMonomial, gfMul_eq_fieldProduct]

theorem polyEval_timesMonomial (p : List Byte) (r x : Byte) :
    polyEval (timesMonomial p r) x = gfMul (polyEval p x) (x ^^^ r) := calc
  polyEval (timesMonomial p r) x = polyEval (p ++ [0#8]) x ^^^ polyEval (0#8 :: p.map (gfMul · r)) x :=
    timesMonomial_eq p r ▸ polyEval_append_zipWith [] (by simp) x
  _ = gfMul (polyEval p x) x ^^^ gfMul (polyEval p x) r := by
    rw [polyEval_concat, BitVec.xor_zero, polyEval_zero_cons, polyEval_scale]
  _ = gfMul (polyEval p x) (x ^^^ r) := (gfMul_xorAdditive_right _ x r).symm

/-- A round of `rs_divisor` is a product with a monomial, the leading coefficient, which the array has no place for, left out
(41_reed_solomon.md R111). -/
theorem timesMonomial_cons (a : Byte) (p : List Byte) (r : Byte) :
    timesMonomial (a :: p) r = a :: divisorRound (a :: p) r := by
  rw [timesMonomial_eq, divisorRound, List.zipWith_comm_of_comm BitVec.xor_comm]
  simp [shiftIn]

/-- While the array begins with a zero, it is shifted out and nothing is lost. -/
theorem divisorRound_zero_cons (p : List Byte) (r : Byte) : divisorRound (0#8 :: p) r = timesMonomial p r := by
  rw [timesMonomial_eq, divisorRound, List.zipWith_comm_of_comm BitVec.xor_comm]
  simp [shiftIn, zero_gfMul]

theorem timesMonomial_zeros_append (k : Nat) (p : List Byte) (r : Byte) :
    timesMonomial (List.replicate k 0#8 ++ p) r = List.replicate k 0#8 ++ timesMonomial p r := by
  induction k with
  | zero => rfl
  | succ k ih =>
    rw [List.replicate_succ, List.cons_append, timesMonomial_cons, divisorRound_zero_cons, ih, List.cons_append]

theorem divisorPolynomial_monic (d : Nat) : ∃ p, divisorPolynomial d = 1#8 :: p := by
  induction d with
  | zero => exact ⟨[], rfl⟩
  | succ d ih =>
    obtain ⟨p, hp⟩ := ih
    exact ⟨_, by rw [divisorPolynomial, hp, timesMonomial_cons]⟩

theorem divisorRounds_succ (k : Nat) (c : List Byte) (i : Nat) :
    divisorRounds (k + 1) c (powerOfTwo i) = divisorRounds k (divisorRound c (powerOfTwo i)) (powerOfTwo (i + 1)) := by
  rw [divisorRounds, gfMul_eq_fieldProduct]
  rfl

/-- From the product of i monomials behind k zeros, k + 1 rounds give the product of i + k + 1 without its leading 1. -/
theorem divisorPolynomial_eq_divisorRounds (k i : Nat) :
    divisorPolynomial (i + k + 1) =
      1#8 :: divisorRounds (k + 1) (List.replicate k 0#8 ++ divisorPolynomial i) (powerOfTwo i) := by
  induction k generalizing i with
  | zero =>
    obtain ⟨p, hp⟩ := divisorPolynomial_monic i
    calc divisorPolynomial (i + 1)
      _ = timesMonomial (1#8 :: p) (powerOfTwo i) := by rw [divisorPolynomial, hp]
      _ = 1#8 :: divisorRound (divisorPolynomial i) (powerOfTwo i) := by rw [timesMonomial_cons, hp]
  | succ k ih =>
    rw [divisorRounds_succ, List.replicate_succ, List.cons_append, divisorRound_zero_cons, timesMonomial_zeros_append,
      ← divisorPolynomial, ← ih, Nat.succ_add_eq_add_succ]

/-- `rs_divisor(d)` is the product of the d monomials without its leading 1 (41_reed_solomon.md R110, R111). -/
theorem divisorPolynomial_eq_cons_rsDivisor {d : Nat} (h : 1 ≤ d) : divisorPolynomial d = 1#8 :: rsDivisor d := by
  obtain ⟨k, rfl⟩ := Nat.exists_eq_add_of_le' h
  have h := divisorPolynomial_eq_divisorRounds k 0
  rw [Nat.zero_add] at h
  exact h

theorem gfMul_eq_zero_iff {a b : Byte} : gfMul a b = 0#8 ↔ a = 0#8 ∨ b = 0#8 := by
  refine ⟨eq_zero_of_gfMul_eq_zero, ?_⟩
  rintro (rfl | rfl)
  · exact zero_gfMul b
  · exact gfMul_zero a

/-- The field has no zero divisors, so the product is 0 where a monomial is. -/
theorem polyEval_divisorPolynomial_eq_zero_iff (d : Nat) (x : Byte) :
    polyEval (divisorPolynomial d) x = 0#8 ↔ ∃ i, i < d ∧ x = powerOfTwo i := by
  induction d with
  | zero => simp [divisorPolynomial, polyEval_eq_foldl, hornerStep, zero_gfMul]
  | succ d ih =>
    rw [divisorPolynomial, polyEval_timesMonomial, gfMul_eq_zero_iff, ih, BitVec.xor_eq_zero_iff, Nat.exists_lt_succ_right]

/-- Settles O27: the divisor is the product of the monomials, and the field has no zero divisors. -/
theorem divisorRootsAreThePowersOfTwo : Obligations.DivisorRootsAreThePowersOfTwo := by
  intro d x h1 _
  rw [← divisorPolynomial_eq_cons_rsDivisor h1]
  exact polyEval_divisorPolynomial_eq_zero_iff d x

/-! ### The remainder -/

/-- A byte and the round of `rs_remainder` for it: the remainder times x, plus the multiple of the divisor that gives the
byte's place its value (41_reed_solomon.md R112). -/
theorem cons_remainderRound (c t : List Byte) (r b : Byte) :
    b :: remainderRound c (r :: t) b =
      List.zipWith (· ^^^ ·) (r :: t ++ [0#8]) ((1#8 :: c).map (gfMul · (b ^^^ r))) := by
  have hlead : r ^^^ (b ^^^ r) = b := by
    rw [BitVec.xor_comm b, ← BitVec.xor_assoc, BitVec.xor_self, BitVec.zero_xor]
  simp [remainderRound, shiftIn, one_gfMul, hlead]

theorem polyEval_remainderRound {c rem : List Byte} (hc : c ≠ []) (hlen : rem.length = c.length) {x : Byte}
    (hroot : polyEval (1#8 :: c) x = 0#8) (data : List Byte) (b : Byte) :
    polyEval (data ++ b :: remainderRound c rem b) x = gfMul (polyEval (data ++ rem) x) x := by
  obtain ⟨r, t, rfl⟩ := List.exists_cons_of_ne_nil (List.ne_nil_of_length_pos (hlen ▸ List.length_pos_iff.2 hc))
  rw [cons_remainderRound, polyEval_append_zipWith _ (by simpa using hlen), polyEval_scale, hroot, zero_gfMul,
    ← List.append_assoc, polyEval_concat, BitVec.xor_zero, BitVec.xor_zero]

theorem rsRemainder_concat (c data : List Byte) (b : Byte) :
    rsRemainder c (data ++ [b]) = remainderRound c (rsRemainder c data) b := by
  simp [rsRemainder]

/-- At a root of the divisor, data followed by their remainder are 0 (41_reed_solomon.md R113). -/
theorem polyEval_append_rsRemainder {c : List Byte} (hc : c ≠ []) {x : Byte} (hroot : polyEval (1#8 :: c) x = 0#8)
    (data : List Byte) : polyEval (data ++ rsRemainder c data) x = 0#8 := by
  induction data using List.reverseRecOn with
  | nil => exact polyEval_zeros _ x
  | append_singleton data b ih =>
    rw [rsRemainder_concat, List.append_assoc, List.singleton_append,
      polyEval_remainderRound hc (rsRemainder_length hc data) hroot, ih, zero_gfMul]

/-- Settles O28: 2^i is a root of the divisor (`polyEval_divisorPolynomial_eq_zero_iff`), where data and remainder are 0. -/
theorem dataAndRemainderFormACodeword : Obligations.DataAndRemainderFormACodeword := by
  intro d data h1 _ _
  have hlen := rsDivisor_length h1
  have hne : rsDivisor d ≠ [] := List.ne_nil_of_length_pos (hlen.symm ▸ h1)
  refine ⟨(rsRemainder_length hne data).trans hlen, fun i hi => polyEval_append_rsRemainder hne ?_ data⟩
  rw [← divisorPolynomial_eq_cons_rsDivisor h1]
  exact (polyEval_divisorPolynomial_eq_zero_iff d _).2 ⟨i, hi, rfl⟩

end Sys2Proof.Machine
end

section
/-! PROOFS. The commands of the RS unit on a running core (41_reed_solomon.md R114 to R119): the word of each, the answer, and
the whole next state. -/

namespace Sys2Proof.Machine

open Sys2Proof.Reference

/-! ### Words and answers -/

theorem encodeFI_of_opcode (op : BitVec 8) {pat : Word} (idx : BitVec 16) (hpat : fieldAt 24 op = pat := by decide) :
    encodeFI op idx = pat ||| idx.setWidth 32 := by
  simp [encodeFI, ← hpat, fieldAt]

theorem encodeFB_of_opcode (op : BitVec 8) {pat : Word} (b : Byte) (hpat : fieldAt 24 op = pat := by decide) :
    encodeFB op b = pat ||| b.setWidth 32 := by
  simp [encodeFB, ← hpat, fieldAt]

/-- The value of a register is answered in full. -/
theorem okWord_setWidth {w : Nat} (hw : w ≤ 24) (v : BitVec w) : okWord (v.setWidth 24) = okResponse v.toNat := by
  rw [okWord, okResponse, BitVec.ofNat_toNat, BitVec.setWidth_setWidth (by omega)]

theorem respond_setWidth {w : Nat} (hw : w ≤ 24) (v : BitVec w) (s : State) :
    respond (v.setWidth 24) s = { s with ports := portsAfter s (okResponse v.toNat) } := by
  rw [← okWord_setWidth hw v]
  rfl

theorem raise_invalidArgument (s : State) : raise .invalidArgument s = errorState s 1 :=
  (errorState_statusCode .invalidArgument s).2

/-! ### The generator -/

theorem rsinit_refused {idx : BitVec 16} (h : idx.toNat < 1 ∨ 255 < idx.toNat) (s : State) :
    rsinit idx s = errorState s 1 := by
  rw [rsinit, if_pos h, raise_invalidArgument]

theorem rsinit_degree {idx : BitVec 16} (h1 : 1 ≤ idx.toNat) (h255 : idx.toNat ≤ 255) (s : State) :
    rsinit idx s = { s with
      rs := { s.rs with
        div := rsDivisor idx.toNat, deg := BitVec.ofNat 8 idx.toNat, gv := 1#1, elen := 0#8, ebuf := [] }
      ports := portsAfter s (okResponse idx.toNat) } := by
  rw [rsinit, if_neg (by omega), respond_setWidth (by decide), ← BitVec.ofNat_toNat]
  rfl

/-- Settles O26: `rs_divisor` gives the product of the monomials (`divisorPolynomial_eq_cons_rsDivisor`). -/
theorem rsinitHoldsTheDivisorPolynomial : Obligations.RsinitHoldsTheDivisorPolynomial := by
  intro s idx
  refine ⟨encodeFI_of_opcode 0x20#8 idx, fun hrun h1 h255 => ?_, fun hrun h => ?_⟩
  · refine ⟨rsDivisor idx.toNat, divisorPolynomial_eq_cons_rsDivisor h1, rsDivisor_length h1, ?_⟩
    rw [exec_rsinit_running idx hrun, rsinit_degree h1 h255]
  · rw [exec_rsinit_running idx hrun, rsinit_refused h]

/-! ### The remainder -/

theorem rsrem_refused {s : State} (h : s.rs.gv = 0#1 ∨ s.rs.rlen = 0#16) : rsrem s = errorState s 1 := by
  rw [rsrem, raise_invalidArgument]
  rcases h with hgv | hrlen
  · exact if_pos hgv
  · simp only [if_pos hrlen, ite_self]

theorem rsrem_remainder {s : State} (hinv : s.rs.Inv) (hgv : s.rs.gv = 1#1) (hrlen : s.rs.rlen ≠ 0#16) :
    rsrem s = { s with
      rs := { s.rs with ebuf := rsRemainder s.rs.div s.rs.rbuf, elen := s.rs.deg }
      ports := portsAfter s (okResponse s.rs.deg.toNat) } := by
  rw [rsrem, if_neg (by simp [hgv]), if_neg hrlen, bytesOf_exact hinv.divSize, bytesOf_exact hinv.rbufSize.1,
    respond_setWidth (by decide)]
  rfl

/-- Settles O29: the invariant makes `DIV` and `RBUF` the whole buffers (`bytesOf_exact`). -/
theorem rsremStoresTheRemainder : Obligations.RsremStoresTheRemainder := by
  refine ⟨by decide, fun s hrun hinv => ⟨fun hgv hrlen => ?_, fun h => ?_⟩⟩
  · rw [exec_rsrem_running hrun, rsrem_remainder hinv hgv hrlen]
  · rw [exec_rsrem_running hrun, rsrem_refused h]

/-! ### The input -/

section
variable {cfg : Configuration} {s : State}

theorem putr_full (h : s.rs.rlen.toNat = cfg.capacities.rbufCap) (b : Byte) : putr cfg b s = errorState s 1 := by
  rw [putr, if_pos h, raise_invalidArgument]

/-- Below a legal capacity `RLEN` counts on without wrapping (00_scope.md R7). -/
theorem putr_room (hcap : cfg.capacities.Legal) (hinv : s.rs.InvFor cfg) (h : s.rs.rlen.toNat ≠ cfg.capacities.rbufCap)
    (b : Byte) :
    putr cfg b s = { s with
      rs := { s.rs with rbuf := s.rs.rbuf ++ [b], rlen := BitVec.ofNat 16 (s.rs.rlen.toNat + 1) }
      ports := portsAfter s (okResponse (s.rs.rlen.toNat + 1)) } := by
  have hlen := (toNat_add_one_le (Nat.lt_succ_of_le hcap.rbufCap.2) hinv.rbufSize.2 h).1
  have hadd : s.rs.rlen + 1 = BitVec.ofNat 16 (s.rs.rlen.toNat + 1) := by rw [← hlen, BitVec.ofNat_toNat, BitVec.setWidth_eq]
  rw [putr, if_neg h, bytesOf_exact hinv.rbufSize.1, respond_setWidth (by decide), hlen, hadd]
  rfl

end

theorem execWith_putr_running (cfg : Configuration) (b : Byte) {s : State} (h : s.halt = 0#1) :
    execWith cfg (.putr b) s = .next (putr cfg b s) := congrArg ended (whenRunning_running h)

/-- Settles O30: `putr_full` at the capacity and `putr_room` below it. -/
theorem putrAndClrrFillAndEmptyTheBuffer : Obligations.PutrAndClrrFillAndEmptyTheBuffer := by
  refine ⟨by decide, fun s b => ⟨encodeFB_of_opcode 0x22#8 b, fun hrun hinv hroom => ?_, fun hrun hfull => ?_, fun hrun => ?_,
    fun c hc hrun hinv => ?_⟩⟩
  · rw [exec_putr_running b hrun, putr_room specCapacities_legal hinv hroom.ne]
  · rw [exec_putr_running b hrun, putr_full hfull]
  · exact exec_clrr_running hrun
  · rw [execWith_putr_running _ b hrun]
    split
    case isTrue hfull => rw [putr_full hfull]
    case isFalse hroom => rw [putr_room hc hinv hroom]

/-! ### Reading -/

/-- What a command does that reads byte `i` of a buffer whose length register is `n` (20_memory.md R66, 60_exceptions.md R262). -/
def readByte (buf : List Byte) (n i : Nat) (s : State) : State :=
  if n ≤ i then raise .invalidArgument s else respond ((byteAt buf i).setWidth 24) s

theorem gete_eq_readByte (idx : BitVec 16) (s : State) :
    gete idx s = readByte s.rs.ebuf s.rs.elen.toNat idx.toNat s := rfl

theorem getg_eq_readByte (idx : BitVec 16) (s : State) :
    getg idx s = readByte s.rs.div s.rs.deg.toNat idx.toNat s := rfl

theorem readByte_beyond (buf : List Byte) {n i : Nat} (h : n ≤ i) (s : State) : readByte buf n i s = errorState s 1 := by
  rw [readByte, if_pos h, raise_invalidArgument]

/-- A byte below the length register is in the buffer, and is what is answered. -/
theorem readByte_below {buf : List Byte} {n i : Nat} (hsize : buf.length = n) (h : i < n) (s : State) :
    ∃ b, buf[i]? = some b ∧ readByte buf n i s = { s with ports := portsAfter s (okResponse b.toNat) } := by
  have hget := List.getElem?_eq_getElem (hsize.symm ▸ h)
  refine ⟨_, hget, ?_⟩
  rw [readByte, if_neg (Nat.not_le.2 h), byteAt_of_getElem? hget, respond_setWidth (by decide)]

/-- Settles O31: both commands read a byte (`readByte`), and the invariant makes the buffers as long as the registers say. -/
theorem geteAndGetgReadBelowTheLength : Obligations.GeteAndGetgReadBelowTheLength := by
  intro s idx hrun hinv
  rw [exec_gete_running idx hrun, exec_getg_running idx hrun, gete_eq_readByte, getg_eq_readByte]
  exact ⟨encodeFI_of_opcode 0x24#8 idx, encodeFI_of_opcode 0x25#8 idx,
    fun h => (readByte_below hinv.ebufSize h s).imp fun _ => .imp_right (congrArg _),
    fun h => congrArg _ (readByte_beyond _ h s),
    fun h => (readByte_below hinv.divSize h s).imp fun _ => .imp_right (congrArg _),
    fun h => congrArg _ (readByte_beyond _ h s)⟩

end Sys2Proof.Machine
end

section
/-! PROOFS. The segments a request and an input make (42_segment_encoder.md R131 to R139): the mode, the bits of the payload by
their places, and that the bits determine the input. -/

namespace Sys2Proof.Machine

open Sys2Proof.Reference

/-! ### Numbers in a bit string -/

theorem bitsOfNat_getElem? {w j : Nat} (v : Nat) (h : j < w) : (bitsOfNat w v)[j]? = some (v.testBit (w - 1 - j)) := by
  simp [bitsOfNat, h]

/-- `bits_n` of a number that fits holds the number. -/
theorem holdsNumber_bitsOfNat {w v : Nat} (h : v < 2 ^ w) (rest : Bits) : HoldsNumber (bitsOfNat w v ++ rest) 0 w v := by
  refine ⟨h, fun j hj => ?_⟩
  rw [Nat.zero_add, List.getElem?_append_left (by rwa [bitsOfNat_length]), bitsOfNat_getElem? v hj]

theorem holdsNumber_bitsOfNat_whole {w v : Nat} (h : v < 2 ^ w) : HoldsNumber (bitsOfNat w v) 0 w v := by
  simpa using holdsNumber_bitsOfNat h []

/-- What a string holds it holds further on behind a group of `k` bits. -/
theorem holdsNumber_behind {bits : Bits} {start w v : Nat} (h : HoldsNumber bits start w v) (k u : Nat) :
    HoldsNumber (bitsOfNat k u ++ bits) (start + k) w v := by
  refine ⟨h.1, fun j hj => ?_⟩
  rw [List.getElem?_append_right (by rw [bitsOfNat_length]; omega), bitsOfNat_length, ← h.2 j hj]
  congr 1
  omega

/-- A string holds one number in given bits. -/
theorem holdsNumber_unique {bits : Bits} {start w v v' : Nat} (h : HoldsNumber bits start w v)
    (h' : HoldsNumber bits start w v') : v = v' := by
  refine Nat.eq_of_testBit_eq fun i => ?_
  by_cases hi : i < w
  · have hbit := Option.some.inj ((h.2 (w - 1 - i) (by omega)).symm.trans (h'.2 (w - 1 - i) (by omega)))
    rwa [show w - 1 - (w - 1 - i) = i by omega] at hbit
  · have hpow := Nat.pow_le_pow_right Nat.two_pos (Nat.le_of_not_lt hi)
    rw [Nat.testBit_lt_two_pow (h.1.trans_le hpow), Nat.testBit_lt_two_pow (h'.1.trans_le hpow)]

/-! ### Digits and alphanumeric characters -/

theorem isDigit_iff (b : Byte) : isDigit b = true ↔ 0x30 ≤ b.toNat ∧ b.toNat ≤ 0x39 := by simp [isDigit]

theorem digitValue_le {b : Byte} (h : isDigit b = true) : digitValue b ≤ 9 := by
  rw [isDigit_iff] at h
  unfold digitValue
  omega

theorem digitValue_inj {a b : Byte} (ha : isDigit a = true) (hb : isDigit b = true) (h : digitValue a = digitValue b) :
    a = b := by
  rw [isDigit_iff] at ha hb
  unfold digitValue at h
  exact BitVec.eq_of_toNat_eq (by omega)

/-- The value of a character is its place in the alphabet (42_segment_encoder.md R132). -/
theorem alphabet_getElem?_of_alnumValue? {b : Byte} {v : Nat} (h : alnumValue? b = some v) :
    alphabet[v]? = some b.toNat := by
  have hdigits : ∀ i, i < 10 → alphabet[i]? = some (0x30 + i) := by decide
  have hletters : ∀ i, i < 26 → alphabet[i + 10]? = some (0x41 + i) := by decide
  unfold alnumValue? at h
  obtain ⟨hb, h⟩ | ⟨-, h⟩ := ite_eq_iff.1 h
  · cases h
    rw [hdigits _ (by omega), Nat.add_sub_cancel' hb.1]
  obtain ⟨hb, h⟩ | ⟨-, h⟩ := ite_eq_iff.1 h
  · cases h
    rw [hletters _ (by omega), Nat.add_sub_cancel' hb.1]
  iterate 9
    obtain ⟨hb, h⟩ | ⟨-, h⟩ := ite_eq_iff.1 h
    · cases h
      rw [hb]
      rfl
  cases h

/-- A byte is alphanumeric when it stands in the alphabet. -/
theorem isAlnum_iff (b : Byte) : isAlnum b = true ↔ b.toNat ∈ alphabet := by
  have hall : ∀ a ∈ alphabet, isAlnum (BitVec.ofNat 8 a) = true := by decide
  constructor
  · intro h
    obtain ⟨v, hv⟩ := Option.isSome_iff_exists.1 h
    exact List.mem_of_getElem? (alphabet_getElem?_of_alnumValue? hv)
  · intro h
    simpa using hall _ h

theorem alphabet_getElem?_alnumValue {b : Byte} (h : isAlnum b = true) : alphabet[alnumValue b]? = some b.toNat := by
  obtain ⟨v, hv⟩ := Option.isSome_iff_exists.1 h
  rw [alnumValue, hv]
  exact alphabet_getElem?_of_alnumValue? hv

theorem isAlnum_of_isDigit {b : Byte} (h : isDigit b = true) : isAlnum b = true := by
  simp [isAlnum, alnumValue?, (isDigit_iff b).1 h]

theorem alnumValue_lt {b : Byte} (h : isAlnum b = true) : alnumValue b < 45 :=
  (List.getElem?_eq_some_iff.1 (alphabet_getElem?_alnumValue h)).1

/-- No character stands twice in the alphabet, so its first place is its value. -/
theorem alphabet_idxOf {b : Byte} (h : isAlnum b = true) : alphabet.idxOf b.toNat = alnumValue b := by
  obtain ⟨hlt, hget⟩ := List.getElem?_eq_some_iff.1 (alphabet_getElem?_alnumValue h)
  rw [← hget]
  exact List.Nodup.idxOf_getElem (by decide) _ hlt

/-! ### The mode -/

/-- An input a mode can pack (42_segment_encoder.md R136). -/
def Conforms : Mode → List Byte → Prop
  | .numeric, input => ∀ b ∈ input, isDigit b = true
  | .alphanumeric, input => ∀ b ∈ input, isAlnum b = true
  | .byte, _ => True

theorem all_isDigit_iff (input : List Byte) :
    input.all isDigit = true ↔ ∀ b ∈ input, 0x30 ≤ b.toNat ∧ b.toNat ≤ 0x39 := by
  simp only [List.all_eq_true, isDigit_iff]

theorem all_isAlnum_iff (input : List Byte) : input.all isAlnum = true ↔ ∀ b ∈ input, b.toNat ∈ alphabet := by
  simp only [List.all_eq_true, isAlnum_iff]

/-- The mode of a segment packs its input. -/
theorem resolveMode_conforms (req : ModeRequest) (input : List Byte) : Conforms (resolveMode req input) input := by
  have hdigits : input.all isDigit = true → Conforms .numeric input := List.all_eq_true.1
  have halnum : input.all isAlnum = true → Conforms .alphanumeric input := List.all_eq_true.1
  cases req with
  | auto =>
    simp only [resolveMode]
    split_ifs with hd ha
    exacts [hdigits hd, halnum ha, trivial]
  | numeric =>
    simp only [resolveMode]
    split_ifs with hd
    exacts [hdigits hd, trivial]
  | alphanumeric =>
    simp only [resolveMode]
    split_ifs with ha
    exacts [halnum ha, trivial]
  | byte => trivial

/-- Settles O35: the table of 42_segment_encoder.md R137 row by row; digits are alphanumeric, so an input that is not
alphanumeric is not numeric either. -/
theorem modeFollowsRequestAndInput : Obligations.ModeFollowsRequestAndInput := by
  intro input
  dsimp only
  rw [← all_isDigit_iff, ← all_isAlnum_iff]
  have hsub : input.all isDigit = true → input.all isAlnum = true := fun h =>
    List.all_eq_true.2 fun b hb => isAlnum_of_isDigit (List.all_eq_true.1 h b hb)
  simp only [resolveMode]
  by_cases hd : input.all isDigit = true
  · simp [hd, hsub hd]
  · by_cases ha : input.all isAlnum = true <;> simp [hd, ha]

/-! ### The bits of the payload, by their places -/

@[simp] theorem digitAt_zero (a : Byte) (l : List Byte) : digitAt (a :: l) 0 = digitValue a := rfl
@[simp] theorem digitAt_succ (a : Byte) (l : List Byte) (i : Nat) : digitAt (a :: l) (i + 1) = digitAt l i := rfl

theorem charAt_zero {a : Byte} (ha : isAlnum a = true) (l : List Byte) : charAt (a :: l) 0 = alnumValue a := alphabet_idxOf ha
@[simp] theorem charAt_succ (a : Byte) (l : List Byte) (i : Nat) : charAt (a :: l) (i + 1) = charAt l i := rfl

/-- The bits of an input of digits, group by group (42_segment_encoder.md R131). -/
structure HoldsDigits (bits : Bits) (input : List Byte) : Prop where
  triples : ∀ i, i < input.length / 3 → HoldsNumber bits (10 * i) 10
    (100 * digitAt input (3 * i) + 10 * digitAt input (3 * i + 1) + digitAt input (3 * i + 2))
  twoLeft : input.length % 3 = 2 → HoldsNumber bits (10 * (input.length / 3)) 7
    (10 * digitAt input (input.length - 2) + digitAt input (input.length - 1))
  oneLeft : input.length % 3 = 1 → HoldsNumber bits (10 * (input.length / 3)) 4 (digitAt input (input.length - 1))

/-- The bits of an alphanumeric input, pair by pair (42_segment_encoder.md R132). -/
structure HoldsChars (bits : Bits) (input : List Byte) : Prop where
  pairs : ∀ i, i < input.length / 2 → HoldsNumber bits (11 * i) 11 (45 * charAt input (2 * i) + charAt input (2 * i + 1))
  oneLeft : input.length % 2 = 1 → HoldsNumber bits (11 * (input.length / 2)) 6 (charAt input (input.length - 1))

/-- One more group of three digits in front. -/
theorem HoldsDigits.cons {bits : Bits} {rest : List Byte} (h : HoldsDigits bits rest) {a b c : Byte} {v : Nat}
    (hv : 100 * digitValue a + 10 * digitValue b + digitValue c = v) (hfit : v < 2 ^ 10) :
    HoldsDigits (bitsOfNat 10 v ++ bits) (a :: b :: c :: rest) := by
  have hdiv : (a :: b :: c :: rest).length / 3 = rest.length / 3 + 1 := Nat.add_div_right _ (Nat.succ_pos 2)
  have hmod : (a :: b :: c :: rest).length % 3 = rest.length % 3 := Nat.add_mod_right rest.length 3
  refine ⟨fun i hi => ?_, fun hleft => ?_, fun hleft => ?_⟩
  · cases i with
    | zero => exact hv ▸ holdsNumber_bitsOfNat (hv ▸ hfit) bits
    | succ i => exact holdsNumber_behind (h.triples i (by omega)) 10 v
  · obtain ⟨m, hm⟩ : ∃ m, rest.length = m + 2 := ⟨rest.length - 2, by omega⟩
    have hrest := holdsNumber_behind (h.twoLeft (hmod ▸ hleft)) 10 v
    rw [hdiv]
    simpa [hm, Nat.mul_add] using hrest
  · obtain ⟨m, hm⟩ : ∃ m, rest.length = m + 1 := ⟨rest.length - 1, by omega⟩
    have hrest := holdsNumber_behind (h.oneLeft (hmod ▸ hleft)) 10 v
    rw [hdiv]
    simpa [hm, Nat.mul_add] using hrest

/-- One more pair of characters in front. -/
theorem HoldsChars.cons {bits : Bits} {rest : List Byte} (h : HoldsChars bits rest) {a b : Byte} {v : Nat}
    (hv : 45 * charAt (a :: b :: rest) 0 + charAt (a :: b :: rest) 1 = v) (hfit : v < 2 ^ 11) :
    HoldsChars (bitsOfNat 11 v ++ bits) (a :: b :: rest) := by
  have hdiv : (a :: b :: rest).length / 2 = rest.length / 2 + 1 := Nat.add_div_right _ Nat.two_pos
  have hmod : (a :: b :: rest).length % 2 = rest.length % 2 := Nat.add_mod_right rest.length 2
  refine ⟨fun i hi => ?_, fun hleft => ?_⟩
  · cases i with
    | zero => exact hv ▸ holdsNumber_bitsOfNat (hv ▸ hfit) bits
    | succ i => exact holdsNumber_behind (h.pairs i (by omega)) 11 v
  · obtain ⟨m, hm⟩ : ∃ m, rest.length = m + 1 := ⟨rest.length - 1, by omega⟩
    have hrest := holdsNumber_behind (h.oneLeft (hmod ▸ hleft)) 11 v
    rw [hdiv]
    simpa [hm, Nat.mul_add] using hrest

/-- `pack_numeric` on digits (42_segment_encoder.md R131). -/
theorem packNumeric_holdsDigits {input : List Byte} (h : Conforms .numeric input) : HoldsDigits (packNumeric input) input := by
  have hle : ∀ b ∈ input, digitValue b ≤ 9 := fun b hb => digitValue_le (h b hb)
  clear h
  induction input using packNumeric.induct with
  | case1 a b c rest ih =>
    simp only [List.forall_mem_cons] at hle
    obtain ⟨ha, hb, hc, hrest⟩ := hle
    exact (ih hrest).cons (by omega) (by omega)
  | case2 a b =>
    simp only [List.forall_mem_cons] at hle
    refine ⟨by simp, fun _ => ?_, by simp⟩
    simpa [packNumeric, Nat.mul_comm (digitValue a)] using
      holdsNumber_bitsOfNat_whole (w := 7) (v := 10 * digitValue a + digitValue b) (by omega)
  | case3 a =>
    simp only [List.forall_mem_cons] at hle
    refine ⟨by simp, by simp, fun _ => ?_⟩
    simpa [packNumeric] using holdsNumber_bitsOfNat_whole (w := 4) (v := digitValue a) (by omega)
  | case4 => exact ⟨by simp, by simp, by simp⟩

/-- `pack_alnum` on alphanumeric characters (42_segment_encoder.md R132). -/
theorem packAlnum_holdsChars {input : List Byte} (h : Conforms .alphanumeric input) : HoldsChars (packAlnum input) input := by
  unfold Conforms at h
  induction input using packAlnum.induct with
  | case1 a b rest ih =>
    simp only [List.forall_mem_cons] at h
    obtain ⟨ha, hb, hrest⟩ := h
    have hva := alnumValue_lt ha
    have hvb := alnumValue_lt hb
    refine (ih hrest).cons ?_ (by omega)
    rw [charAt_zero ha, charAt_succ, charAt_zero hb]
  | case2 a =>
    simp only [List.forall_mem_cons] at h
    have hva := alnumValue_lt h.1
    refine ⟨by simp, fun _ => ?_⟩
    simpa [packAlnum, charAt_zero h.1] using holdsNumber_bitsOfNat_whole (w := 6) (v := alnumValue a) (by omega)
  | case3 => exact ⟨by simp, by simp⟩

/-- `pack_byte`, byte by byte (42_segment_encoder.md R133). -/
theorem packByte_holdsNumber {input : List Byte} {i : Nat} {b : Byte} (h : input[i]? = some b) :
    HoldsNumber (packByte input) (8 * i) 8 b.toNat := by
  induction input generalizing i with
  | nil => cases h
  | cons a rest ih =>
    cases i with
    | zero =>
      cases h
      exact holdsNumber_bitsOfNat b.isLt (bitsOfBytes rest)
    | succ i => exact holdsNumber_behind (ih h) 8 a.toNat

/-- Settles O36: the mode conforms to the input (`resolveMode_conforms`), so the payload is packed group by group. -/
theorem payloadHoldsTheBitsOfTheInput : Obligations.PayloadHoldsTheBitsOfTheInput := by
  intro req input
  have hlen := payloadFor_length req input
  have hconf := resolveMode_conforms req input
  simp only [makeSegment, payloadFor] at hlen ⊢
  generalize resolveMode req input = mode at hlen hconf ⊢
  refine ⟨hlen, ?_, ?_, ?_⟩
  · rintro rfl
    have hbits := packNumeric_holdsDigits hconf
    refine ⟨hlen.trans ?_, hbits.triples, hbits.twoLeft, hbits.oneLeft⟩
    simp only [payloadLen]
    split_ifs <;> omega
  · rintro rfl
    have hbits := packAlnum_holdsChars hconf
    exact ⟨hlen, hbits.pairs, hbits.oneLeft⟩
  · rintro rfl
    exact ⟨hlen, fun i b hb => packByte_holdsNumber hb⟩

/-! ### Packing loses nothing -/

/-- The length of a payload counts the bytes it was made from. -/
theorem payloadLen_inj {m : Mode} {n n' : Nat} (h : payloadLen m n = payloadLen m n') : n = n' := by
  cases m with
  | numeric =>
    simp only [payloadLen] at h
    split_ifs at h <;> omega
  | alphanumeric =>
    simp only [payloadLen] at h
    omega
  | byte => exact Nat.eq_of_mul_eq_mul_left (by decide) h

theorem digitAt_of_getElem? {input : List Byte} {i : Nat} {b : Byte} (h : input[i]? = some b) :
    digitAt input i = digitValue b := by
  rw [digitAt, List.getD, h]
  rfl

theorem charAt_of_getElem? {input : List Byte} {i : Nat} {b : Byte} (h : input[i]? = some b) :
    charAt input i = alphabet.idxOf b.toNat := by
  rw [charAt, List.getD, h]
  rfl

theorem digitAt_le {input : List Byte} (h : Conforms .numeric input) {i : Nat} (hi : i < input.length) :
    digitAt input i ≤ 9 := by
  rw [digitAt_of_getElem? (List.getElem?_eq_getElem hi)]
  exact digitValue_le (h _ (List.getElem_mem hi))

theorem charAt_lt {input : List Byte} (h : Conforms .alphanumeric input) {i : Nat} (hi : i < input.length) :
    charAt input i < 45 := by
  rw [charAt_of_getElem? (List.getElem?_eq_getElem hi)]
  exact List.idxOf_lt_length_of_mem ((isAlnum_iff _).1 (h _ (List.getElem_mem hi)))

/-- Digits in the same bits are the same digits: a group's number has only one decimal spelling. -/
theorem HoldsDigits.digitAt_eq {bits : Bits} {a b : List Byte} (ha : HoldsDigits bits a) (hb : HoldsDigits bits b)
    (hca : Conforms .numeric a) (hcb : Conforms .numeric b) (hlen : a.length = b.length) {i : Nat} (hi : i < a.length) :
    digitAt a i = digitAt b i := by
  have hla : ∀ j, j < a.length → digitAt a j ≤ 9 := fun _ => digitAt_le hca
  have hlb : ∀ j, j < a.length → digitAt b j ≤ 9 := fun _ hj => digitAt_le hcb (hlen ▸ hj)
  have htwo := hb.twoLeft
  have hone := hb.oneLeft
  rw [← hlen] at htwo hone
  by_cases hgroup : i / 3 < a.length / 3
  case pos =>
    have hnum := holdsNumber_unique (ha.triples _ hgroup) (hb.triples _ (hlen ▸ hgroup))
    have ha1 := hla (3 * (i / 3) + 1) (by omega)
    have ha2 := hla (3 * (i / 3) + 2) (by omega)
    have hb1 := hlb (3 * (i / 3) + 1) (by omega)
    have hb2 := hlb (3 * (i / 3) + 2) (by omega)
    obtain h | h | h : i = 3 * (i / 3) ∨ i = 3 * (i / 3) + 1 ∨ i = 3 * (i / 3) + 2 := by omega
    all_goals
      rw [h]
      omega
  case neg =>
    have ha1 := hla (a.length - 1) (by omega)
    have hb1 := hlb (a.length - 1) (by omega)
    obtain hleft | hleft : a.length % 3 = 2 ∨ a.length % 3 = 1 := by omega
    · have hnum := holdsNumber_unique (ha.twoLeft hleft) (htwo hleft)
      obtain rfl | rfl : i = a.length - 2 ∨ i = a.length - 1 := by omega
      all_goals omega
    · obtain rfl : i = a.length - 1 := by omega
      exact holdsNumber_unique (ha.oneLeft hleft) (hone hleft)

/-- Characters in the same bits are the same characters: a pair's number has only one spelling to base 45. -/
theorem HoldsChars.charAt_eq {bits : Bits} {a b : List Byte} (ha : HoldsChars bits a) (hb : HoldsChars bits b)
    (hca : Conforms .alphanumeric a) (hcb : Conforms .alphanumeric b) (hlen : a.length = b.length) {i : Nat}
    (hi : i < a.length) : charAt a i = charAt b i := by
  have hone := hb.oneLeft
  rw [← hlen] at hone
  by_cases hpair : i / 2 < a.length / 2
  case pos =>
    have hnum := holdsNumber_unique (ha.pairs _ hpair) (hb.pairs _ (hlen ▸ hpair))
    have ha1 := charAt_lt hca (i := 2 * (i / 2) + 1) (by omega)
    have hb1 := charAt_lt hcb (i := 2 * (i / 2) + 1) (by omega)
    obtain h | h : i = 2 * (i / 2) ∨ i = 2 * (i / 2) + 1 := by omega
    all_goals
      rw [h]
      omega
  case neg =>
    obtain rfl : i = a.length - 1 := by omega
    exact holdsNumber_unique (ha.oneLeft (by omega)) (hone (by omega))

theorem packNumeric_inj {a b : List Byte} (ha : Conforms .numeric a) (hb : Conforms .numeric b) (hlen : a.length = b.length)
    (h : packNumeric a = packNumeric b) : a = b := by
  refine List.ext_getElem hlen fun i hia hib => ?_
  have heq := (packNumeric_holdsDigits ha).digitAt_eq (h ▸ packNumeric_holdsDigits hb) ha hb hlen hia
  rw [digitAt_of_getElem? (List.getElem?_eq_getElem hia), digitAt_of_getElem? (List.getElem?_eq_getElem hib)] at heq
  exact digitValue_inj (ha _ (List.getElem_mem hia)) (hb _ (List.getElem_mem hib)) heq

theorem packAlnum_inj {a b : List Byte} (ha : Conforms .alphanumeric a) (hb : Conforms .alphanumeric b)
    (hlen : a.length = b.length) (h : packAlnum a = packAlnum b) : a = b := by
  refine List.ext_getElem hlen fun i hia hib => ?_
  have heq := (packAlnum_holdsChars ha).charAt_eq (h ▸ packAlnum_holdsChars hb) ha hb hlen hia
  rw [charAt_of_getElem? (List.getElem?_eq_getElem hia), charAt_of_getElem? (List.getElem?_eq_getElem hib)] at heq
  exact BitVec.eq_of_toNat_eq ((List.idxOf_inj ((isAlnum_iff _).1 (ha _ (List.getElem_mem hia)))).1 heq)

theorem packByte_inj {a b : List Byte} (hlen : a.length = b.length) (h : packByte a = packByte b) : a = b := by
  refine List.ext_getElem hlen fun i hia hib => BitVec.eq_of_toNat_eq ?_
  have hnum := packByte_holdsNumber (List.getElem?_eq_getElem hib)
  exact holdsNumber_unique (packByte_holdsNumber (List.getElem?_eq_getElem hia)) (h ▸ hnum)

/-- A mode packs two inputs of it into the same bits only if they are the same input. -/
theorem packAs_inj {m : Mode} {a b : List Byte} (ha : Conforms m a) (hb : Conforms m b) (h : packAs m a = packAs m b) :
    a = b := by
  have hlen : a.length = b.length := payloadLen_inj (m := m) (by rw [← packAs_length, h, packAs_length])
  cases m with
  | numeric => exact packNumeric_inj ha hb hlen h
  | alphanumeric => exact packAlnum_inj ha hb hlen h
  | byte => exact packByte_inj hlen h

theorem modeIndicator_inj {m m' : Mode} (h : modeIndicator m = modeIndicator m') : m = m' := by
  cases m <;> cases m' <;> revert h <;> decide

/-- Settles O37: the segments agree in mode and payload, and a mode's packing is injective (`packAs_inj`). -/
theorem segmentsDetermineTheirInput : Obligations.SegmentsDetermineTheirInput := by
  intro r1 r2 a b h
  have hmode : resolveMode r1 a = resolveMode r2 b := modeIndicator_inj (congrArg Segment.mode h)
  have hbits : packAs (resolveMode r1 a) a = packAs (resolveMode r2 b) b := congrArg Segment.bits h
  rw [← hmode] at hbits
  exact packAs_inj (resolveMode_conforms r1 a) (hmode ▸ resolveMode_conforms r2 b) hbits

end Sys2Proof.Machine
end

section
/-! PROOFS. The commands of the segment encoder (42_segment_encoder.md R140 to R150). -/

namespace Sys2Proof.Machine

open Sys2Proof.Reference

/-! ### Words and answers -/

theorem encodeFM_of_opcode (op : BitVec 8) {pat : Word} (mode : BitVec 2) (hpat : fieldAt 24 op = pat := by decide) :
    encodeFM op mode = pat ||| mode.setWidth 32 := by
  simp [encodeFM, ← hpat, fieldAt]

theorem encodeFS_of_opcode (op : BitVec 8) {pat : Word} (idx : BitVec 8) (k : BitVec 16)
    (hpat : fieldAt 24 op = pat := by decide) : encodeFS op idx k = pat ||| (idx.setWidth 32 <<< 16) ||| k.setWidth 32 := by
  simp [encodeFS, ← hpat, fieldAt]

theorem raise_dataTooLong (s : State) : raise .dataTooLong s = errorState s 2 := (errorState_statusCode .dataTooLong s).2

theorem respond_eq (v : BitVec 24) (s : State) : respond v s = { s with ports := portsAfter s (okResponse v.toNat) } := by
  simpa using respond_setWidth (le_refl 24) v s

/-- A register that counts on is the register of the next number. -/
theorem add_one_eq_ofNat {w : Nat} (x : BitVec w) : x + 1 = BitVec.ofNat w (x.toNat + 1) := by
  simp [BitVec.ofNat_add]

theorem execWith_puti_running (cfg : Configuration) (b : Byte) {s : State} (h : s.halt = 0#1) :
    execWith cfg (.puti b) s = .next (puti cfg b s) := congrArg ended (whenRunning_running h)

theorem execWith_seg_running (cfg : Configuration) (req : ModeRequest) {s : State} (h : s.halt = 0#1) :
    execWith cfg (.seg req) s = .next (seg cfg req s) := congrArg ended (whenRunning_running h)

/-! ### The input -/

/-- Settles O32: `NEWSYM` leaves the PIPE unit of the reset state. -/
theorem newsymEmptiesThePipeUnit : Obligations.NewsymEmptiesThePipeUnit :=
  ⟨by decide, fun _ hrun => exec_newsym_running hrun⟩

section
variable {cfg : Configuration} {s : State}

theorem puti_refused (h : s.pipe.stage ≠ 0#3) (b : Byte) : puti cfg b s = errorState s 1 := by
  rw [puti, if_pos h, raise_invalidArgument]

theorem puti_full (hst : s.pipe.stage = 0#3) (h : s.pipe.ilen.toNat = cfg.capacities.ibufCap) (b : Byte) :
    puti cfg b s = errorState s 2 := by
  rw [puti, if_neg (not_not.2 hst), if_pos h, raise_dataTooLong]

/-- Below a legal capacity `ILEN` counts on without wrapping (00_scope.md R7). -/
theorem puti_room (hcap : cfg.capacities.Legal) (hinv : s.pipe.InvFor cfg) (hst : s.pipe.stage = 0#3)
    (h : s.pipe.ilen.toNat ≠ cfg.capacities.ibufCap) (b : Byte) :
    puti cfg b s = { s with
      pipe := { s.pipe with ibuf := s.pipe.ibuf ++ [b], ilen := BitVec.ofNat 16 (s.pipe.ilen.toNat + 1) }
      ports := portsAfter s (okResponse (s.pipe.ilen.toNat + 1)) } := by
  have hlen := (toNat_add_one_le (Nat.lt_succ_of_le hcap.ibufCap.2) hinv.inputSize.2 h).1
  rw [puti, if_neg (not_not.2 hst), if_neg h, inputOf_exact hinv.inputSize.1, respond_setWidth (by decide), hlen,
    add_one_eq_ofNat]
  rfl

theorem clri_refused (h : s.pipe.stage ≠ 0#3) : clri s = errorState s 1 := by
  rw [clri, if_pos h, raise_invalidArgument]

theorem clri_empties (hst : s.pipe.stage = 0#3) :
    clri s = { s with pipe := { s.pipe with ibuf := [], ilen := 0#16 }, ports := portsAfter s (okResponse 0) } := by
  rw [clri, if_neg (not_not.2 hst)]
  rfl

end

/-- Settles O33: `puti_full` at the capacity and `puti_room` below it, at `STAGE` 0 only. -/
theorem putiAndClriFillAndEmptyTheInput : Obligations.PutiAndClriFillAndEmptyTheInput := by
  refine ⟨by decide, fun s b => ⟨encodeFB_of_opcode 0x31#8 b, fun hrun hst => ?_, fun hrun hst hfull => ?_,
    fun hrun hinv hst hroom => ?_, fun hrun hst => ?_, fun c hc hrun hinv hst => ?_⟩⟩
  · rw [exec_puti_running b hrun, exec_clri_running hrun, puti_refused hst, clri_refused hst]
    exact ⟨rfl, rfl⟩
  · rw [exec_puti_running b hrun, puti_full hst hfull]
  · rw [exec_puti_running b hrun, puti_room specCapacities_legal hinv hst hroom.ne]
  · rw [exec_clri_running hrun, clri_empties hst]
  · rw [execWith_puti_running _ b hrun]
    split
    case isTrue hfull => rw [puti_full hst hfull]
    case isFalse hroom => rw [puti_room hc hinv hst hroom]

/-! ### The segment -/

section
variable {cfg : Configuration} {s : State} {req : ModeRequest}

theorem seg_refused (h : s.pipe.stage ≠ 0#3 ∨ s.pipe.nseg.toNat = cfg.capacities.nsegMax) :
    seg cfg req s = errorState s 1 := by
  rw [seg, raise_invalidArgument]
  rcases h with hst | hfull
  · exact if_pos hst
  · simp only [if_pos hfull, ite_self]

/-- The input's payload is counted in full. -/
theorem makeSegment_blen_eq_length (hinv : s.pipe.InvFor cfg) :
    (makeSegment cfg req s.pipe.ibuf).blen.toNat = (payloadFor req s.pipe.ibuf).length := by
  rw [makeSegment_blen cfg req (hinv.inputSize.1 ▸ s.pipe.ilen.isLt), payloadFor_length]

theorem seg_overflow (hinv : s.pipe.InvFor cfg) (hst : s.pipe.stage = 0#3)
    (hroom : s.pipe.nseg.toNat ≠ cfg.capacities.nsegMax)
    (h : cfg.capacities.sbitCap < s.pipe.sbits.toNat + (payloadFor req s.pipe.ibuf).length) :
    seg cfg req s = errorState s 2 := by
  rw [← makeSegment_blen_eq_length hinv] at h
  rw [seg, if_neg (not_not.2 hst), if_neg hroom, inputOf_exact hinv.inputSize.1, if_pos h, raise_dataTooLong]

theorem seg_room (hinv : s.pipe.InvFor cfg) (hst : s.pipe.stage = 0#3) (hroom : s.pipe.nseg.toNat ≠ cfg.capacities.nsegMax)
    (h : s.pipe.sbits.toNat + (payloadFor req s.pipe.ibuf).length ≤ cfg.capacities.sbitCap) :
    seg cfg req s = { s with
      pipe := { s.pipe with
        segs := s.pipe.segs ++ [{ mode := cfg.modeIndicator (resolveMode req s.pipe.ibuf), count := s.pipe.ilen
                                  blen := BitVec.ofNat 24 (payloadFor req s.pipe.ibuf).length
                                  bits := payloadFor req s.pipe.ibuf }]
        nseg := BitVec.ofNat 8 (s.pipe.nseg.toNat + 1)
        sbits := BitVec.ofNat 24 (s.pipe.sbits.toNat + (payloadFor req s.pipe.ibuf).length), ibuf := [], ilen := 0#16 }
      ports := portsAfter s (okResponse (cfg.modeIndicator (resolveMode req s.pipe.ibuf)).toNat) } := by
  have hcount : s.pipe.ilen = BitVec.ofNat 16 s.pipe.ibuf.length := by
    rw [hinv.inputSize.1, BitVec.ofNat_toNat, BitVec.setWidth_eq]
  have hsum : s.pipe.sbits + (makeSegment cfg req s.pipe.ibuf).blen =
      BitVec.ofNat 24 (s.pipe.sbits.toNat + (payloadFor req s.pipe.ibuf).length) := by
    rw [BitVec.ofNat_add, BitVec.ofNat_toNat, BitVec.setWidth_eq]
    rfl
  rw [← makeSegment_blen_eq_length hinv] at h
  rw [seg, if_neg (not_not.2 hst), if_neg hroom, inputOf_exact hinv.inputSize.1, if_neg (Nat.not_lt.2 h),
    respond_setWidth (by decide), segmentsOf_exact hinv.storeSize.1, hsum, add_one_eq_ofNat, hcount]
  rfl

end

/-- Settles O34: `seg_refused`, `seg_overflow` and `seg_room`, in the order of 42_segment_encoder.md R146. -/
theorem segAppendsTheSegmentOfTheInput : Obligations.SegAppendsTheSegmentOfTheInput := by
  intro s req hrun
  refine ⟨encodeFM_of_opcode 0x33#8 _, fun hinv => ?_, fun c hc hinv hst => ?_⟩
  · rw [exec_seg_running req hrun]
    refine ⟨fun h => ?_, fun hst hroom h => ?_, fun hst hroom h => ?_⟩
    · exact congrArg _ (seg_refused h)
    · exact congrArg _ (seg_overflow hinv hst hroom h)
    · exact congrArg _ (seg_room hinv hst hroom h)
  · rw [execWith_seg_running _ req hrun]
    refine congrArg _ ?_
    split
    case isTrue hfull => exact seg_refused (.inr hfull)
    case isFalse hroom =>
      split
      case isTrue h => exact seg_overflow hinv hst hroom h
      case isFalse h => exact seg_room hinv hst hroom (Nat.not_lt.1 h)

/-! ### Reading a segment -/

theorem segmentField_beyond (sg : Segment) {k : BitVec 16} (h : 2 < k.toNat) : segmentField sg k = none := by
  unfold segmentField
  split
  case h_4 => rfl
  all_goals omega

theorem getseg_refused {s : State} {idx : BitVec 8} {k : BitVec 16} (h : s.pipe.nseg.toNat ≤ idx.toNat ∨ 2 < k.toNat) :
    getseg idx k s = errorState s 1 := by
  rw [getseg, raise_invalidArgument]
  rcases h with hidx | hk
  · exact if_pos hidx
  · rw [segmentField_beyond _ hk, ite_self]

/-- A field no wider than a response's value is answered in full. -/
theorem getseg_field {s : State} {idx : BitVec 8} {k : BitVec 16} {sg : Segment} {w : Nat} {v : BitVec w} (hw : w ≤ 24)
    (hsg : s.pipe.segs[idx.toNat]? = some sg) (hidx : idx.toNat < s.pipe.nseg.toNat)
    (hv : segmentField sg k = some (v.setWidth 24)) :
    getseg idx k s = { s with ports := portsAfter s (okResponse v.toNat) } := by
  rw [getseg, if_neg (Nat.not_le.2 hidx), segmentAt_of_getElem? hsg, hv]
  exact respond_setWidth hw v s

/-- Settles O38: fields 0, 1 and 2 by `getseg_field`, anything else by `getseg_refused`. -/
theorem getsegReadsAField : Obligations.GetsegReadsAField := by
  intro s idx k hrun
  rw [exec_getseg_running idx k hrun]
  refine ⟨encodeFS_of_opcode 0x34#8 idx k, fun sg hsg hidx => ⟨?_, ?_, ?_⟩, fun h => congrArg _ (getseg_refused h)⟩
  · rintro rfl
    rw [getseg_field (v := sg.mode) (by decide) hsg hidx rfl]
  · rintro rfl
    rw [getseg_field (v := sg.count) (by decide) hsg hidx rfl]
  · rintro rfl
    rw [getseg_field (v := sg.blen) (by decide) hsg hidx (by rw [BitVec.setWidth_eq]; rfl)]

/-! ### Reading a payload -/

/-- Bits shifted into a register from the right: the last one ends as bit 0. -/
theorem getLsbD_foldl_shiftIn {w : Nat} (f : Nat → Bool) (n i : Nat) (hi : i < w) :
    ((List.range n).foldl (fun (v : BitVec w) j => (v <<< 1) ||| (BitVec.ofBool (f j)).setWidth w) 0#w).getLsbD i =
      (decide (i < n) && f (n - 1 - i)) := by
  induction n generalizing i with
  | zero => simp
  | succ n ih =>
    rw [List.range_succ, List.foldl_append, List.foldl_cons, List.foldl_nil, BitVec.getLsbD_or, BitVec.getLsbD_shiftLeft]
    cases i with
    | zero => simp [hi]
    | succ i => simp [ih i (by omega), hi, Nat.sub_sub, Nat.add_comm 1 i]

/-- What a window reads of a payload that is stored whole. -/
theorem payloadBit_or_zero {sg : Segment} (hsize : sg.bits.length = sg.blen.toNat) (i : Nat) :
    (if i < sg.blen.toNat then payloadBit sg.bits i else false) = (sg.bits[i]?).getD false := by
  rw [← hsize]
  split
  case isTrue h => rw [payloadBit_of_getElem? (List.getElem?_eq_getElem h), List.getElem?_eq_getElem h, Option.getD_some]
  case isFalse h => rw [List.getElem?_eq_none (Nat.le_of_not_lt h), Option.getD_none]

/-- Bit 15 − j of a window is bit 16·k + j of the payload, or 0 past its end; the bits above are 0. -/
theorem testBit_payloadWindow {sg : Segment} (hsize : sg.bits.length = sg.blen.toNat) (k i : Nat) :
    (payloadWindow sg k).toNat.testBit i = (decide (i < 16) && (sg.bits[16 * k + (15 - i)]?).getD false) := by
  by_cases hi : i < 24
  · exact (getLsbD_foldl_shiftIn _ 16 i hi).trans (congrArg _ (payloadBit_or_zero hsize _))
  · rw [BitVec.testBit_toNat, BitVec.getLsbD_of_ge _ _ (Nat.le_of_not_lt hi), decide_eq_false (by omega), Bool.false_and]

theorem payloadWindow_lt {sg : Segment} (hsize : sg.bits.length = sg.blen.toNat) (k : Nat) :
    (payloadWindow sg k).toNat < 2 ^ 16 := by
  refine Nat.lt_pow_two_of_testBit _ fun i hi => ?_
  rw [testBit_payloadWindow hsize, decide_eq_false (Nat.not_lt.2 hi), Bool.false_and]

section
variable {s : State} {idx : BitVec 8} {k : BitVec 16}

theorem getsb_unstored (h : s.pipe.nseg.toNat ≤ idx.toNat) : getsb idx k s = errorState s 1 := by
  rw [getsb, if_pos h, raise_invalidArgument]

theorem getsb_beyond {sg : Segment} (hsg : s.pipe.segs[idx.toNat]? = some sg) (h : sg.blen.toNat ≤ 16 * k.toNat) :
    getsb idx k s = errorState s 1 := by
  rw [getsb, segmentAt_of_getElem? hsg, if_pos h, ite_self, raise_invalidArgument]

theorem getsb_window {sg : Segment} (hsg : s.pipe.segs[idx.toNat]? = some sg) (hidx : idx.toNat < s.pipe.nseg.toNat)
    (h : 16 * k.toNat < sg.blen.toNat) :
    getsb idx k s = { s with ports := portsAfter s (okResponse (payloadWindow sg k.toNat).toNat) } := by
  rw [getsb, if_neg (Nat.not_le.2 hidx), segmentAt_of_getElem? hsg, if_neg (Nat.not_le.2 h), respond_eq]

end

/-- Settles O39: the invariant stores every payload whole, so the window's bits are the payload's (`testBit_payloadWindow`). -/
theorem getsbReadsAWindow : Obligations.GetsbReadsAWindow := by
  intro s idx k hrun hinv
  rw [exec_getsb_running idx k hrun]
  refine ⟨encodeFS_of_opcode 0x35#8 idx k, fun sg hsg hwindow => ?_, fun h => congrArg _ (getsb_unstored h),
    fun sg hsg h => congrArg _ (getsb_beyond hsg h)⟩
  obtain ⟨-, -, -, hsize⟩ := hinv.segments sg (List.mem_of_getElem? hsg)
  have hidx : idx.toNat < s.pipe.nseg.toNat := hinv.storeSize.1 ▸ (List.getElem?_eq_some_iff.1 hsg).1
  refine ⟨_, payloadWindow_lt hsize k.toNat, congrArg _ (getsb_window hsg hidx hwindow), fun j hj => ?_⟩
  rw [testBit_payloadWindow hsize, decide_eq_true (by omega), Bool.true_and, Nat.sub_sub_self (by omega)]

end Sys2Proof.Machine
end

section
/-! PROOFS. The version selector (43_version_selector.md R160 to R169): the least version that fits, the counts that fit their
length fields, and the number of data modules. -/

namespace Sys2Proof.Machine

open Sys2Proof.Reference

/-! ### The least version that holds the segments -/

section
variable {cfg : Configuration} {segs : List Segment} {e : Level} {minv maxv v : Nat}

theorem fitsVersion_iff : fitsVersion cfg segs e v = true ↔ requiredBits cfg segs v ≤ capacityBits cfg v e :=
  decide_eq_true_iff

theorem mem_versionRange : v ∈ versionRange minv maxv ↔ minv ≤ v ∧ v ≤ maxv := by
  rw [versionRange, List.mem_range'_1]
  omega

theorem leastVersion_eq_none_iff : leastVersion cfg segs e minv maxv = none ↔
    ∀ v, minv ≤ v → v ≤ maxv → ¬requiredBits cfg segs v ≤ capacityBits cfg v e := by
  simp only [leastVersion, List.find?_eq_none, mem_versionRange, fitsVersion_iff, and_imp]

/-- The upward scan stops at `v` exactly if `v` is in range and holds the segments, and no version in range below it does. -/
theorem leastVersion_eq_some_iff : leastVersion cfg segs e minv maxv = some v ↔
    (minv ≤ v ∧ v ≤ maxv) ∧ requiredBits cfg segs v ≤ capacityBits cfg v e ∧
    ∀ u, minv ≤ u → u < v → ¬requiredBits cfg segs u ≤ capacityBits cfg u e := by
  rw [← mem_versionRange, leastVersion, versionRange, List.find?_range'_eq_some, fitsVersion_iff]
  simp only [Bool.not_eq_true', ← Bool.not_eq_true, fitsVersion_iff]
  exact and_left_comm

end

/-! ### The command -/

/-- A word of format `FV`, field by field (30_encoding.md R71). -/
theorem encodeFV_of_opcode (op : BitVec 8) {pat : Word} (ecl : BitVec 2) (minv maxv : BitVec 6) (auto : Bool)
    (pattern : BitVec 3) (hpat : fieldAt 24 op = pat := by decide) :
    encodeFV op ecl minv maxv auto pattern = pat ||| (ecl.setWidth 32 <<< 22) ||| (minv.setWidth 32 <<< 16) |||
      (maxv.setWidth 32 <<< 10) ||| ((BitVec.ofBool auto).setWidth 32 <<< 3) ||| pattern.setWidth 32 := by
  simp [encodeFV, ← hpat, fieldAt]

theorem encode_vsel (ecl : Level) (minv maxv : BitVec 6) :
    encode (.vsel ecl minv maxv) = 0x40000000#32 ||| ((levelBits ecl).setWidth 32 <<< 22) ||| (minv.setWidth 32 <<< 16) |||
      (maxv.setWidth 32 <<< 10) :=
  (encodeFV_of_opcode 0x40#8 (pat := 0x40000000#32) (levelBits ecl) minv maxv false 0#3).trans (by simp)

section
variable {cfg : Configuration} {s : State} {ecl : Level} {minv maxv : BitVec 6}

theorem vsel_refused (h : s.pipe.stage ≠ 0#3 ∨ boundsIllegal minv maxv = true) :
    vsel cfg ecl minv maxv s = errorState s 1 := by
  rw [vsel, raise_invalidArgument]
  rcases h with hst | hbounds
  · exact if_pos hst
  · rw [if_pos hbounds, ite_self]

theorem vsel_tooLong (hinv : s.pipe.InvFor cfg) (hst : s.pipe.stage = 0#3) (hbounds : ¬boundsIllegal minv maxv = true)
    (h : leastVersion cfg s.pipe.segs ecl minv.toNat maxv.toNat = none) : vsel cfg ecl minv maxv s = errorState s 2 := by
  rw [vsel, if_neg (not_not.2 hst), if_neg hbounds, segmentsOf_exact hinv.storeSize.1, h, raise_dataTooLong]

/-- A legal version is answered in full. -/
theorem vsel_selects (hinv : s.pipe.InvFor cfg) (hst : s.pipe.stage = 0#3) (hbounds : ¬boundsIllegal minv maxv = true)
    {v : Nat} (h : leastVersion cfg s.pipe.segs ecl minv.toNat maxv.toNat = some v) :
    vsel cfg ecl minv maxv s = { s with
      pipe := { s.pipe with ver := BitVec.ofNat 6 v, ecl := levelBits ecl, stage := 1#3 }
      ports := portsAfter s (okResponse v) } := by
  obtain ⟨-, h40, -⟩ := leastVersion_some hbounds h
  have hanswer : (BitVec.ofNat 24 v).toNat = v := toNat_ofNat_eq (by omega)
  rw [vsel, if_neg (not_not.2 hst), if_neg hbounds, segmentsOf_exact hinv.storeSize.1, h]
  simp only [respond_eq, hanswer]
  rfl

end

/-- Settles O40: what the scan finds (`leastVersion_eq_none_iff`, `leastVersion_eq_some_iff`) decides between `vsel_tooLong` and
`vsel_selects`; a stage or bounds out of order come before (`vsel_refused`). -/
theorem vselTakesTheLeastVersionThatFits : Obligations.VselTakesTheLeastVersionThatFits := by
  intro s ecl minv maxv hrun hinv
  rw [exec_vsel_running ecl minv maxv hrun]
  refine ⟨encode_vsel ecl minv maxv, fun hst => congrArg _ (vsel_refused (.inl hst)), fun hbounds => ?_,
    fun hst hmin hle hmax hnone => ?_, fun hst hmin hmax v hlo hhi hfits hleast => ?_⟩
  · exact congrArg _ (vsel_refused (.inr ((boundsIllegal_iff minv maxv).2 hbounds)))
  · have hbounds : ¬boundsIllegal minv maxv = true := by rw [boundsIllegal_iff]; omega
    exact congrArg _ (vsel_tooLong hinv hst hbounds (leastVersion_eq_none_iff.2 hnone))
  · have hbounds : ¬boundsIllegal minv maxv = true := by rw [boundsIllegal_iff]; omega
    exact congrArg _ (vsel_selects hinv hst hbounds (leastVersion_eq_some_iff.2 ⟨⟨hlo, hhi⟩, hfits, hleast⟩))

/-! ### Counts and length fields -/

theorem payloadLen_mono (m : Mode) : Monotone (payloadLen m) := by
  intro a b hab
  cases m with
  | numeric =>
    simp only [payloadLen]
    split_ifs <;> omega
  | alphanumeric =>
    simp only [payloadLen]
    omega
  | byte => exact Nat.mul_le_mul_left 8 hab

/-- The least count that overflows its length field fits no version at any level, in any mode (the 120 cases of
43_version_selector.md R165). -/
theorem overflowing_count_fits_no_version : ∀ v e, 1 ≤ v → v ≤ 40 → ∀ m ∈ [Mode.numeric, .alphanumeric, .byte],
    8 * dataCodewords specConfig v e < 4 + ccbits (modeIndicator m) v + payloadLen m (2 ^ ccbits (modeIndicator m) v) :=
  forall_version_level (by decide +kernel)

theorem segmentCost_le_requiredBits (cfg : Configuration) {segs : List Segment} {sg : Segment} (h : sg ∈ segs) (v : Nat) :
    segmentCost cfg v sg ≤ requiredBits cfg segs v :=
  List.le_sum_of_mem (List.mem_map_of_mem h)

/-- Settles O41: a count too wide for its field costs at least what the least such count does, which fits no version
(`overflowing_count_fits_no_version`). -/
theorem countsFitTheirLengthFields : Obligations.CountsFitTheirLengthFields := by
  rintro segs sg v e h1 h40 ⟨m, hmode, hblen, -⟩ hmem hfits
  by_contra hwide
  have hcost : 4 + ccbits sg.mode v + sg.blen.toNat ≤ requiredBits specConfig segs v :=
    segmentCost_le_requiredBits specConfig hmem v
  have hpayload := payloadLen_mono m (Nat.le_of_not_lt hwide)
  have hleast := overflowing_count_fits_no_version v e h1 h40 m (by cases m <;> decide)
  rw [specConfig_modeIndicator] at hmode
  rw [← hmode] at hleast
  omega

/-! ### Data modules -/

/-- Settles O47: `dataPositions_length`, which counts the function modules as disjoint rectangles. -/
theorem dataModulesNumberRawModules : Obligations.DataModulesNumberRawModules := fun _ h1 h40 =>
  dataPositions_length (Finset.mem_Icc.2 ⟨h1, h40⟩)

end Sys2Proof.Machine
end

section
/-! PROOFS. The codeword assembler and the interleaver (44_codeword_assembler.md R180 to R192): the bits of the data codewords,
the places of the blocks' items in the final sequence, and the commands `ASM`, `ILV`, `GETD`, `GETO` on a running core. -/

namespace Sys2Proof.Machine

open Sys2Proof.Reference

theorem specConfig_tablesAgree : TablesAgree specConfig := specTables_agree specCapacities

/-! ### Reading -/

theorem getd_eq_readByte (idx : BitVec 16) (s : State) :
    getd idx s = readByte s.pipe.dbuf s.pipe.dlen.toNat idx.toNat s := rfl

theorem geto_eq_readByte (idx : BitVec 16) (s : State) :
    geto idx s = readByte s.pipe.obuf s.pipe.olen.toNat idx.toNat s := rfl

/-- Settles O44: both commands read a byte (`readByte`), and the invariant makes the buffers as long as the registers say. -/
theorem getdAndGetoReadBelowTheLength : Obligations.GetdAndGetoReadBelowTheLength := by
  intro s idx hrun hinv
  rw [exec_getd_running idx hrun, exec_geto_running idx hrun, getd_eq_readByte, geto_eq_readByte]
  exact ⟨encodeFI_of_opcode 0x52#8 idx, encodeFI_of_opcode 0x53#8 idx,
    fun h => (readByte_below hinv.dataSize h s).imp fun _ => .imp_right (congrArg _),
    fun h => congrArg _ (readByte_beyond _ h s),
    fun h => (readByte_below hinv.codewordsSize h s).imp fun _ => .imp_right (congrArg _),
    fun h => congrArg _ (readByte_beyond _ h s)⟩

/-! ### The bits of the data codewords -/

theorem bitsOfBytes_append (a b : List Byte) : bitsOfBytes (a ++ b) = bitsOfBytes a ++ bitsOfBytes b :=
  List.flatMap_append

theorem bitsOfByte_natOfBits : ∀ b7 b6 b5 b4 b3 b2 b1 b0 : Bool,
    bitsOfByte (BitVec.ofNat 8 (natOfBits [b7, b6, b5, b4, b3, b2, b1, b0])) = [b7, b6, b5, b4, b3, b2, b1, b0] := by
  decide

/-- Codewords spell the string they are cut from, if it has no bits left over. -/
theorem bitsOfBytes_codewordsOf {bs : Bits} (h : bs.length % 8 = 0) : bitsOfBytes (codewordsOf bs) = bs := by
  induction bs using codewordsOf.induct with
  | case1 b7 b6 b5 b4 b3 b2 b1 b0 rest ih =>
    have hrest : rest.length % 8 = 0 := by simpa [Nat.add_assoc] using h
    rw [codewordsOf, bitsOfBytes, List.flatMap_cons, bitsOfByte_natOfBits, ← bitsOfBytes, ih hrest]
    rfl
  | case2 bs hshort =>
    have hnone : codewordsOf bs = [] := codewordsOf.eq_2 bs hshort
    have hdiv : bs.length / 8 = 0 := by rw [← codewordsOf_length, hnone, List.length_nil]
    rw [hnone, List.eq_nil_of_length_eq_zero (by omega : bs.length = 0)]
    rfl

section Assemble
variable {cfg : Configuration} {segs : List Segment} {v : Nat} {e : Level}

/-- The terminator and the fill bits, written as one run of zeros (44_codeword_assembler.md R182). -/
theorem padToByte_withTerminator (cap : Nat) (bb : Bits) :
    padToByte (withTerminator cap bb) = bb ++ List.replicate
      (terminatorLen cap bb.length + fillLen (bb.length + terminatorLen cap bb.length)) false := by
  simp [padToByte, withTerminator, zeroBits, terminatorLen, fillLen, Config.terminatorBits]

theorem add_fillLen_mod_eight (n : Nat) : (n + fillLen n) % 8 = 0 := by
  unfold fillLen
  omega

/-- The bits of the codewords that `assemble` gives: the stream, the zeros that end it, and the pad codewords. -/
theorem bitsOfBytes_assemble {d : List Byte} (h : assemble cfg segs v e = some d) :
    let n := dataCodewords cfg v e
    let len := (streamOf cfg segs v).length
    let used := len + terminatorLen (8 * n) len
    bitsOfBytes d = streamOf cfg segs v ++ List.replicate (terminatorLen (8 * n) len + fillLen used) false ++
      bitsOfBytes (padCodewords (n - (used + fillLen used) / 8)) := by
  intro n len used
  have hwhole := padToByte_withTerminator (8 * n) (streamOf cfg segs v)
  have hlen : (padToByte (withTerminator (8 * n) (streamOf cfg segs v))).length = used + fillLen used := by
    rw [hwhole, List.length_append, List.length_replicate, ← Nat.add_assoc]
  obtain ⟨-, hd⟩ := Option.ite_none_left_eq_some.1 h
  rw [← Option.some.inj hd, bitsOfBytes_append, ← hwhole, codewordsOf_length]
  congr 1
  · exact bitsOfBytes_codewordsOf (hlen ▸ add_fillLen_mod_eight used)
  · exact congrArg (fun k => bitsOfBytes (padCodewords (n - k / 8))) hlen

/-- The stream of stored segments whose payloads are whole. -/
theorem streamOf_exact (h : ∀ sg ∈ segs, SegmentOk cfg sg) :
    streamOf cfg segs v = segs.flatMap fun sg =>
      bitsOfNat 4 sg.mode.toNat ++ bitsOfNat (cfg.ccbits sg.mode v) sg.count.toNat ++ sg.bits := by
  refine List.flatMap_congr fun sg hsg => ?_
  obtain ⟨-, -, -, hbits⟩ := h sg hsg
  rw [segBits, payloadOf_exact hbits]

end Assemble

/-! ### `ASM` -/

section
variable {cfg : Configuration} {s : State}

theorem asm_refused (h : s.pipe.stage ≠ 1#3) : asm cfg s = errorState s 1 := by
  rw [asm, if_pos h, raise_invalidArgument]

/-- The number of data codewords is answered in full. -/
theorem asm_stores (htab : TablesAgree cfg) (hinv : s.pipe.InvFor cfg) (hst : s.pipe.stage = 1#3) {d : List Byte}
    (hd : assemble cfg s.pipe.segs s.pipe.ver.toNat (levelOfBits s.pipe.ecl) = some d) :
    asm cfg s = { s with
      pipe := { s.pipe with
        dbuf := d, dlen := BitVec.ofNat 12 (dataCodewords cfg s.pipe.ver.toNat (levelOfBits s.pipe.ecl)), stage := 2#3 }
      ports := portsAfter s (okResponse (dataCodewords cfg s.pipe.ver.toNat (levelOfBits s.pipe.ecl))) } := by
  obtain ⟨h1, h40, -⟩ := hinv.version (by simp [hst])
  have hlt := htab.dataCodewords_lt h1 h40 (levelOfBits s.pipe.ecl)
  rw [asm, if_neg (not_not.2 hst), segmentsOf_exact hinv.storeSize.1, hd]
  simp only [respond_eq, toNat_ofNat_eq (hlt.trans (by decide : 2 ^ 12 < 2 ^ 24))]
  rfl

end

/-- Settles O42: the invariant says that the stored segments fit (`assemble_of_fits`); `bitsOfBytes_assemble` reads the bits. -/
theorem asmStoresStreamTerminatorAndPads : Obligations.AsmStoresStreamTerminatorAndPads := by
  refine ⟨by decide, fun s hrun hinv => ?_⟩
  rw [exec_asm_running hrun]
  refine ⟨fun hst => congrArg _ (asm_refused hst), fun hst => ?_⟩
  obtain ⟨-, -, hfits⟩ := hinv.version (by simp [hst])
  obtain ⟨d, hd, hlen⟩ := assemble_of_fits hfits
  refine ⟨d, congrArg _ (asm_stores specConfig_tablesAgree hinv hst hd), hlen, ?_⟩
  have hbits := bitsOfBytes_assemble hd
  rwa [streamOf_exact hinv.segments] at hbits

/-! ### The places of a round-robin -/

section RoundRobin
variable {blocks : List (List Byte)} {i k : Nat}

/-- A round that starts at block `k`, the first one with an item `i`, takes the items of the blocks from `k` on in order. -/
theorem round_getElem? (hk : ∀ j b, blocks[j]? = some b → (i < b.length ↔ k ≤ j)) {j : Nat} (hj : k ≤ j) :
    (blocks.filterMap fun b => b[i]?)[j - k]? = blocks[j]?.bind fun b => b[i]? := by
  induction blocks generalizing k j with
  | nil => simp
  | cons b blocks ih =>
    have hb := hk 0 b rfl
    cases k with
    | zero =>
      have hget := List.getElem?_eq_getElem (hb.2 le_rfl)
      rw [List.filterMap_cons, hget]
      cases j with
      | zero => exact hget.symm
      | succ j => exact ih (k := 0) (fun j c hc => by simpa using hk (j + 1) c hc) (Nat.zero_le j)
    | succ k =>
      obtain ⟨j, rfl⟩ : ∃ m, j = m + 1 := ⟨j - 1, by omega⟩
      have hnone : b[i]? = none := List.getElem?_eq_none (Nat.not_lt.1 fun h => absurd (hb.1 h) (by omega))
      rw [List.filterMap_cons, hnone, Nat.add_sub_add_right]
      exact ih (fun j c hc => by simpa using hk (j + 1) c hc) (Nat.le_of_succ_le_succ hj)

/-- Rounds in which every block has an item take as many items as there are blocks, so round `i` begins behind `i` times
that number. -/
theorem roundRobin_getElem?_of_round {R : Nat} (hi : i < R) (hfull : ∀ b ∈ blocks, i ≤ b.length) {m : Nat} {x : Byte}
    (hx : (blocks.filterMap fun b => b[i]?)[m]? = some x) : (roundRobin R blocks)[i * blocks.length + m]? = some x := by
  have hbefore : (roundRobin i blocks).length = i * blocks.length := by
    rw [roundRobin_length, List.map_congr_left fun b hb => Nat.min_eq_left (hfull b hb)]
    simp [Nat.mul_comm]
  obtain ⟨r, rfl⟩ : ∃ r, R = i + (r + 1) := ⟨R - i - 1, by omega⟩
  have hsplit : ∃ rest, roundRobin (i + (r + 1)) blocks =
      roundRobin i blocks ++ (blocks.filterMap (fun b => b[i]?) ++ rest) := by
    rw [roundRobin, List.range_add, List.flatMap_append, List.range_succ_eq_map, List.map_cons, List.flatMap_cons]
    exact ⟨_, rfl⟩
  obtain ⟨rest, hrest⟩ := hsplit
  rw [hrest, List.getElem?_append_right (by omega), hbefore, Nat.add_sub_cancel_left]
  rw [List.getElem?_append_left (List.getElem?_eq_some_iff.1 hx).1, hx]

/-- Item `i` of block `j` of a round-robin, where every block has the items before `i` and the blocks from `k` on have item
`i`. -/
theorem roundRobin_getElem? {R : Nat} (hi : i < R) (hfull : ∀ b ∈ blocks, i ≤ b.length)
    (hk : ∀ j b, blocks[j]? = some b → (i < b.length ↔ k ≤ j)) {j : Nat} (hj : k ≤ j) {b : List Byte}
    (hb : blocks[j]? = some b) : (roundRobin R blocks)[i * blocks.length + (j - k)]? = b[i]? := by
  have hget := List.getElem?_eq_getElem ((hk j b hb).2 hj)
  rw [hget]
  exact roundRobin_getElem?_of_round hi hfull (by rw [round_getElem? hk hj, hb, Option.bind_some, hget])

end RoundRobin

/-! ### The places of the interleaved sequence -/

/-- Block `j` of a cut begins behind the blocks before it. -/
theorem cutInto_getElem? (ks : List Nat) (j : Nat) (data : List Byte) :
    (cutInto ks data)[j]? = ks[j]?.map fun k => (data.drop (ks.take j).sum).take k := by
  induction ks generalizing j data with
  | nil => rfl
  | cons k ks ih =>
    cases j with
    | zero => rfl
    | succ j =>
      rw [cutInto, List.getElem?_cons_succ, ih]
      simp [List.drop_drop]

section Layout
variable {cfg : Configuration} {v : Nat} {e : Level} {data : List Byte}

/-- The blocks are consecutive runs, the short ones first (44_codeword_assembler.md R185). -/
theorem dataBlocks_getElem? (data : List Byte) {j : Nat} (hj : j < cfg.numBlocks e v) :
    (dataBlocks cfg data v e)[j]? = some ((data.drop (j * shortDataLen cfg v e + (j - shortBlocks cfg v e))).take
      (blockDataLen cfg v e j)) := by
  rw [dataBlocks, cutInto_getElem?, ← List.map_take, List.take_range, Nat.min_eq_left hj.le,
    sum_range_lt_split (f := blockDataLen cfg v e) fun _ => rfl]
  simp [hj]

theorem eccBlocks_getElem? (data : List Byte) {j : Nat} (hj : j < cfg.numBlocks e v) :
    (eccBlocks cfg data v e)[j]? = some (rsRemainder (rsDivisor (cfg.eccPerBlock e v))
      ((data.drop (j * shortDataLen cfg v e + (j - shortBlocks cfg v e))).take (blockDataLen cfg v e j))) := by
  rw [eccBlocks, List.getElem?_map, dataBlocks_getElem? data hj, Option.map_some]

/-- Every block has as many ECC codewords as the divisor's degree (44_codeword_assembler.md R186). -/
theorem length_of_mem_eccBlocks (hecc : 1 ≤ cfg.eccPerBlock e v) {b : List Byte} (hb : b ∈ eccBlocks cfg data v e) :
    b.length = cfg.eccPerBlock e v := by
  obtain ⟨block, -, rfl⟩ := List.mem_map.1 hb
  have hdiv := rsDivisor_length hecc
  have hne : rsDivisor (cfg.eccPerBlock e v) ≠ [] := List.ne_nil_of_length_pos (hdiv.symm ▸ hecc)
  exact (rsRemainder_length hne block).trans hdiv

/-- The blocks with an item at the short length are the long ones (44_codeword_assembler.md R185). -/
theorem shortDataLen_lt_blockDataLen_iff (cfg : Configuration) (v : Nat) (e : Level) (j : Nat) :
    shortDataLen cfg v e < blockDataLen cfg v e j ↔ shortBlocks cfg v e ≤ j := by
  unfold blockDataLen
  split <;> omega

theorem shortDataLen_le_blockDataLen (cfg : Configuration) (v : Nat) (e : Level) (j : Nat) :
    shortDataLen cfg v e ≤ blockDataLen cfg v e j := by
  unfold blockDataLen
  split <;> omega

section
variable (h : LayoutOk cfg v e) (hd : data.length = dataCodewords cfg v e)
include h hd

theorem LayoutOk.dataBlocks_length : (dataBlocks cfg data v e).length = cfg.numBlocks e v := by
  simpa using congrArg List.length (h.dataBlocks_lengths hd)

theorem LayoutOk.eccBlocks_length : (eccBlocks cfg data v e).length = cfg.numBlocks e v :=
  (List.length_map _).trans (h.dataBlocks_length hd)

theorem LayoutOk.length_of_dataBlocks_getElem? {j : Nat} {b : List Byte} (hb : (dataBlocks cfg data v e)[j]? = some b) :
    j < cfg.numBlocks e v ∧ b.length = blockDataLen cfg v e j := by
  have hj : j < cfg.numBlocks e v := h.dataBlocks_length hd ▸ (List.getElem?_eq_some_iff.1 hb).1
  have hlens := congrArg (·[j]?) (h.dataBlocks_lengths hd)
  simp only [List.getElem?_map, hb, List.getElem?_range hj, Option.map_some, Option.some.injEq] at hlens
  exact ⟨hj, hlens⟩

/-- The data rounds take every data codeword. -/
theorem LayoutOk.dataRounds_length :
    (roundRobin (shortDataLen cfg v e + 1) (dataBlocks cfg data v e)).length = dataCodewords cfg v e := by
  rw [roundRobin_length_all, h.dataBlocks_lengths hd, h.sum_blockDataLen]
  intro b hb
  obtain ⟨j, hj⟩ := List.mem_iff_getElem?.1 hb
  exact (h.length_of_dataBlocks_getElem? hd hj).2 ▸ blockDataLen_le cfg v e j

/-- Item `i` of data block `j`, where the blocks from `k` on have an item `i`. -/
theorem LayoutOk.interleave_data {i j k : Nat} (hi : i ≤ shortDataLen cfg v e)
    (hk : ∀ j, i < blockDataLen cfg v e j ↔ k ≤ j) (hkj : k ≤ j) (hj : j < cfg.numBlocks e v) :
    (interleave cfg data v e)[i * cfg.numBlocks e v + (j - k)]? =
      data[j * shortDataLen cfg v e + (j - shortBlocks cfg v e) + i]? := by
  have hblock := dataBlocks_getElem? data hj
  have hlen := (h.length_of_dataBlocks_getElem? hd hblock).2
  have hfull : ∀ b ∈ dataBlocks cfg data v e, i ≤ b.length := by
    intro b hb
    obtain ⟨j, hj⟩ := List.mem_iff_getElem?.1 hb
    rw [(h.length_of_dataBlocks_getElem? hd hj).2]
    exact hi.trans (shortDataLen_le_blockDataLen cfg v e j)
  have hplace := roundRobin_getElem? (Nat.lt_succ_of_le hi) hfull
    (fun j b hb => (h.length_of_dataBlocks_getElem? hd hb).2 ▸ hk j) hkj hblock
  rw [h.dataBlocks_length hd] at hplace
  have hitem := List.getElem?_eq_getElem (hlen.symm ▸ (hk j).2 hkj)
  rw [interleave, List.getElem?_append_left (List.getElem?_eq_some_iff.1 (hplace.trans hitem)).1, hplace,
    List.getElem?_take_of_lt ((hk j).2 hkj), List.getElem?_drop]

/-- Item `i` of the ECC codewords of block `j`, behind the data codewords. -/
theorem LayoutOk.interleave_ecc {i j : Nat} (hi : i < cfg.eccPerBlock e v) (hj : j < cfg.numBlocks e v) :
    (interleave cfg data v e)[dataCodewords cfg v e + i * cfg.numBlocks e v + j]? =
      (rsRemainder (rsDivisor (cfg.eccPerBlock e v)) ((data.drop (j * shortDataLen cfg v e + (j - shortBlocks cfg v e))).take
        (blockDataLen cfg v e j)))[i]? := by
  have hlen := fun b => length_of_mem_eccBlocks (data := data) (b := b) h.ecc
  have hplace := roundRobin_getElem? hi (fun b hb => (hlen b hb).symm ▸ hi.le)
    (fun j b hb => by simpa [hlen b (List.mem_of_getElem? hb)] using hi) (Nat.zero_le j)
    (eccBlocks_getElem? data hj)
  rw [h.eccBlocks_length hd, Nat.sub_zero] at hplace
  rw [interleave, Nat.add_assoc, ← h.dataRounds_length hd, List.getElem?_append_right (Nat.le_add_right _ _),
    Nat.add_sub_cancel_left, hplace]

end
end Layout

/-! ### `ILV` -/

section
variable {cfg : Configuration} {s : State}

theorem ilv_refused (h : s.pipe.stage ≠ 2#3) : ilv cfg s = errorState s 1 := by
  rw [ilv, if_pos h, raise_invalidArgument]

/-- The number of codewords is answered in full. -/
theorem ilv_stores (htab : TablesAgree cfg) (hinv : s.pipe.InvFor cfg) (hst : s.pipe.stage = 2#3) :
    ilv cfg s = { s with
      pipe := { s.pipe with
        obuf := interleave cfg s.pipe.dbuf s.pipe.ver.toNat (levelOfBits s.pipe.ecl)
        olen := BitVec.ofNat 12 (totalCodewords cfg s.pipe.ver.toNat), stage := 3#3 }
      ports := portsAfter s (okResponse (totalCodewords cfg s.pipe.ver.toNat)) } := by
  obtain ⟨h1, h40, -⟩ := hinv.version (by simp [hst])
  have hlt := htab.total _ h1 h40
  rw [ilv, if_neg (not_not.2 hst), if_neg (not_not.2 (hinv.data (by simp [hst]))), bytesOf_exact hinv.dataSize]
  simp only [respond_eq, toNat_ofNat_eq (hlt.trans (by decide : 2 ^ 12 < 2 ^ 24))]
  rfl

end

/-- Settles O43: the places are those of the round-robin (`LayoutOk.interleave_data`, `LayoutOk.interleave_ecc`); a short block
has every item below the short length, and the item there only the long blocks have. -/
theorem ilvInterleavesDataAndEcc : Obligations.IlvInterleavesDataAndEcc := by
  refine ⟨by decide, fun s hrun hinv => ?_⟩
  rw [exec_ilv_running hrun]
  refine ⟨fun hst => congrArg _ (ilv_refused hst), fun hst => ?_⟩
  obtain ⟨h1, h40, -⟩ := hinv.version (by simp [hst])
  have hlayout := specConfig_tablesAgree.layout _ (levelOfBits s.pipe.ecl) h1 h40
  have hdata := hinv.dataSize.trans (hinv.data (by simp [hst]))
  refine ⟨_, congrArg _ (ilv_stores specConfig_tablesAgree hinv hst), hlayout.interleave_length hdata,
    fun i j hi hj => ?_, fun j hlong hj => ?_, fun i j hi hj => hlayout.interleave_ecc hdata hi hj⟩
  · have hall : ∀ j, i < blockDataLen specConfig s.pipe.ver.toNat (levelOfBits s.pipe.ecl) j ↔ 0 ≤ j := fun j =>
      iff_of_true (hi.trans_le (shortDataLen_le_blockDataLen specConfig _ _ j)) (Nat.zero_le j)
    exact hlayout.interleave_data hdata hi.le hall (Nat.zero_le j) hj
  · exact hlayout.interleave_data hdata le_rfl (shortDataLen_lt_blockDataLen_iff specConfig _ _) hlong hj

end Sys2Proof.Machine
end

section
/-! PROOFS. The penalty of a grid (45_matrix_builder.md R217 to R222): rules (a) and (c) on a line given by its runs, rule (d) as
a least step, the sum of the four rules, and the mask of least penalty. -/

namespace Sys2Proof.Machine

open Sys2Proof.Reference

/-! ### Rule (a): the runs of a line -/

/-- Modules of the colour of the run under way lengthen it. -/
theorem runsFrom_replicate_append (colour : Bool) (len more : Nat) (rest : List Bool) :
    runsFrom colour len (List.replicate more colour ++ rest) = runsFrom colour (len + more) rest := by
  induction more generalizing len with
  | zero => rfl
  | succ more ih =>
    rw [List.replicate_succ, List.cons_append, runsFrom, if_pos rfl, ih, Nat.add_right_comm, Nat.add_assoc]

/-- A line of runs of the other colour ends the run under way, and its runs follow. -/
theorem runsFrom_lineOfRuns {runs : List Nat} (h : ∀ len ∈ runs, 1 ≤ len) (colour : Bool) (len : Nat) :
    runsFrom colour len (lineOfRuns (!colour) runs) = len :: runs := by
  induction runs generalizing colour len with
  | nil => rfl
  | cons next runs ih =>
    obtain ⟨hnext, hruns⟩ := List.forall_mem_cons.1 h
    obtain ⟨more, rfl⟩ := Nat.exists_eq_add_of_le hnext
    rw [lineOfRuns, Nat.add_comm 1 more, List.replicate_succ, List.cons_append, runsFrom, if_neg (by simp),
      runsFrom_replicate_append, ih hruns, Nat.add_comm 1 more]

/-- The maximal runs of a line are the runs it is made of. -/
theorem runLengths_lineOfRuns {runs : List Nat} (h : ∀ len ∈ runs, 1 ≤ len) (colour : Bool) :
    runLengths (lineOfRuns colour runs) = runs := by
  cases runs with
  | nil => rfl
  | cons len runs =>
    obtain ⟨hlen, hruns⟩ := List.forall_mem_cons.1 h
    obtain ⟨more, rfl⟩ := Nat.exists_eq_add_of_le hlen
    rw [lineOfRuns, Nat.add_comm 1 more, List.replicate_succ, List.cons_append, runLengths, runsFrom_replicate_append,
      runsFrom_lineOfRuns hruns, Nat.add_comm 1 more]

/-- Settles O53: the runs `linePenaltyA` adds up are those the line is made of. -/
theorem longRunsAddToThePenalty : Obligations.LongRunsAddToThePenalty := by
  intro runs colour h
  rw [linePenaltyA, runLengths_lineOfRuns h]
  rfl

/-! ### Rule (c): windows of seven runs -/

/-- The history of `line_penalty_c` counts as the same seven runs, the oldest first. -/
theorem countFinder_eq_finderLikeAt (h0 h1 h2 h3 h4 h5 h6 : Nat) :
    countFinder [h0, h1, h2, h3, h4, h5, h6] = finderLikeAt [h6, h5, h4, h3, h2, h1, h0] := by
  by_cases hcore : 1 ≤ h5 ∧ h4 = h5 ∧ h3 = 3 * h5 ∧ h2 = h5 ∧ h1 = h5
  · obtain ⟨hk, rfl, rfl, rfl, rfl⟩ := hcore
    simp [countFinder, finderLikeAt, Nat.lt_of_succ_le hk, hk, Nat.add_comm]
  · have hno : ¬(0 < h1 ∧ h2 = h1 ∧ h3 = 3 * h1 ∧ h4 = h1 ∧ h5 = h1) := by omega
    simp only [countFinder, finderLikeAt, if_neg hcore]
    simp
    omega

/-- A window that begins with two empty runs counts nothing. -/
theorem finderLikeAt_zero_zero (runs : List Nat) : finderLikeAt (0 :: 0 :: runs) = 0 := by
  unfold finderLikeAt
  split
  case h_1 x k a b c d y heq =>
    obtain rfl : 0 = k := (List.cons.inj (List.cons.inj heq).2).1
    exact if_neg (by simp)
  case h_2 => rfl

theorem finderLikeIn_zero_zero (runs : List Nat) : finderLikeIn (0 :: 0 :: runs) = finderLikeIn runs := by
  rw [finderLikeIn, List.take_succ_cons, List.take_succ_cons, finderLikeAt_zero_zero, Nat.zero_add]

/-- Fewer than seven runs hold no window that counts. -/
theorem finderLikeIn_short {runs : List Nat} (h : runs.length < 7) : finderLikeIn runs = 0 := by
  induction runs using List.twoStepInduction with
  | nil => rfl
  | singleton run => rfl
  | cons_cons light dark runs ih _ =>
    have hwindow : finderLikeAt ((light :: dark :: runs).take 7) = 0 := by
      rw [List.take_of_length_le h.le, finderLikeAt.eq_2]
      rintro x k a b c d y heq
      simp [heq] at h
    simp only [List.length_cons] at h
    rw [finderLikeIn, hwindow, ih (by omega)]

/-- The run under way takes in modules of its colour. -/
theorem foldl_scanModule_same (n : Nat) (t : FinderScan) (len : Nat) :
    (List.replicate len t.colour).foldl (scanModule n) t = { t with run := t.run + len } := by
  induction len with
  | zero => rfl
  | succ len ih =>
    rw [List.replicate_succ', List.foldl_append, ih, List.foldl_cons, List.foldl_nil, scanModule, if_pos rfl]
    rfl

/-- A run of the other colour ends the run under way. -/
theorem foldl_scanModule_other (n : Nat) (t : FinderScan) {len : Nat} (h : 1 ≤ len) :
    (List.replicate len (!t.colour)).foldl (scanModule n) t =
      { history := addRun n t.history t.run, colour := !t.colour, run := len
        total := if t.colour then t.total else t.total + countFinder (addRun n t.history t.run) } := by
  obtain ⟨more, rfl⟩ := Nat.exists_eq_add_of_le' h
  rw [List.replicate_succ, List.foldl_cons, scanModule, if_neg (by simp)]
  exact (foldl_scanModule_same n _ more).trans (by rw [Nat.add_comm])

/-- The end of the line after a light run: the border is added to it. -/
theorem scanEnd_light (n : Nat) (h : List Nat) (run total : Nat) :
    scanEnd n { history := h, colour := false, run := run, total := total } =
      total + countFinder (addRun n h (run + n)) := rfl

/-- A dark run and the light run after it: the light run under way is counted, and both are recorded. The last light run of
a line may be empty. -/
theorem scanEnd_dark_light (n : Nat) (h : List Nat) (run total : Nat) {dark light : Nat} {rest : List Nat} (hdark : 1 ≤ dark)
    (hlight : rest ≠ [] → 1 ≤ light) :
    scanEnd n ((lineOfRuns true (dark :: light :: rest)).foldl (scanModule n)
        { history := h, colour := false, run := run, total := total }) =
      scanEnd n ((lineOfRuns true rest).foldl (scanModule n)
        { history := addRun n (addRun n h run) dark, colour := false, run := light
          total := total + countFinder (addRun n h run) }) := by
  have hfirst := foldl_scanModule_other n { history := h, colour := false, run := run, total := total } hdark
  simp only [Bool.not_false] at hfirst
  rw [lineOfRuns, lineOfRuns, List.foldl_append, hfirst, List.foldl_append]
  rcases Nat.eq_zero_or_pos light with rfl | hpos
  · obtain rfl : rest = [] := by
      by_contra hne
      exact absurd (hlight hne) (by decide)
    rfl
  · have hsecond := foldl_scanModule_other n { history := addRun n h run, colour := true, run := dark
                                               total := total + countFinder (addRun n h run) } hpos
    exact congrArg (fun t => scanEnd n ((lineOfRuns true rest).foldl (scanModule n) t)) hsecond

/-- The runs of a line with the border added to the last one. -/
def withBorder (n : Nat) : List Nat → List Nat
  | [] => []
  | [last] => [last + n]
  | run :: next :: runs => run :: withBorder n (next :: runs)

theorem withBorder_concat (n : Nat) (runs : List Nat) (last : Nat) : withBorder n (runs ++ [last]) = runs ++ [last + n] := by
  induction runs with
  | nil => rfl
  | cons run runs ih =>
    cases runs with
    | nil => rfl
    | cons next runs => exact congrArg (run :: ·) ih

/-- A run is recorded as it is once a run was recorded. -/
theorem addRun_of_pos (n : Nat) {h : List Nat} (len : Nat) (hpos : 1 ≤ h.headD 0) : addRun n h len = (len :: h).take 7 := by
  rw [addRun, if_neg (by omega)]

theorem forall_mem_dropLast_cons_cons {p : Nat → Prop} {dark light : Nat} {runs : List Nat}
    (h : ∀ len ∈ (dark :: light :: runs).dropLast, p len) :
    p dark ∧ (runs ≠ [] → p light) ∧ ∀ len ∈ runs.dropLast, p len := by
  cases runs with
  | nil => simpa using h
  | cons run runs => simpa using h

/-- The rest of the scan from a light run under way, behind six recorded runs: what every window that ends in it counts. -/
theorem scanEnd_windows (n : Nat) (runs : List Nat) : ∀ (h1 h2 h3 h4 h5 h6 h7 run total : Nat), 1 ≤ h1 →
    (runs ≠ [] → 1 ≤ run) → runs.length % 2 = 0 → (∀ len ∈ runs.dropLast, 1 ≤ len) →
    scanEnd n ((lineOfRuns true runs).foldl (scanModule n)
        { history := [h1, h2, h3, h4, h5, h6, h7], colour := false, run := run, total := total }) =
      total + finderLikeIn ([h6, h5, h4, h3, h2, h1] ++ withBorder n (run :: runs)) := by
  induction runs using List.twoStepInduction with
  | nil =>
    intro h1 h2 h3 h4 h5 h6 h7 run total hpos _ _ _
    have hrest : finderLikeIn [h4, h3, h2, h1, run + n] = 0 := finderLikeIn_short (by simp)
    rw [lineOfRuns, List.foldl_nil, scanEnd_light, addRun_of_pos n _ (by exact hpos)]
    exact congrArg (total + ·) ((countFinder_eq_finderLikeAt ..).trans (congrArg (_ + ·) hrest).symm)
  | singleton len =>
    intro h1 h2 h3 h4 h5 h6 h7 run total _ _ hodd
    exact absurd hodd (by simp)
  | cons_cons dark light runs ih _ =>
    intro h1 h2 h3 h4 h5 h6 h7 run total hpos hrun heven hruns
    obtain ⟨hdark, hlight, hrest⟩ := forall_mem_dropLast_cons_cons hruns
    rw [scanEnd_dark_light n _ _ _ hdark hlight, addRun_of_pos n run (by exact hpos),
      addRun_of_pos n dark (by exact hrun (by simp))]
    refine (ih _ _ _ _ _ _ _ light _ hdark hlight ((Nat.add_mod_right _ 2).symm.trans heven) hrest).trans ?_
    exact (congrArg (total + · + _) (countFinder_eq_finderLikeAt ..)).trans (Nat.add_assoc ..)

/-- The whole scan: the first light run gets the border, since nothing is recorded before it, and the windows that reach back
into the empty history count nothing. -/
theorem scanEnd_line {n first dark light : Nat} {rest : List Nat} (hpos : 1 ≤ first + n) (heven : rest.length % 2 = 0)
    (hruns : ∀ len ∈ (dark :: light :: rest).dropLast, 1 ≤ len) :
    scanEnd n ((lineOfRuns false (first :: dark :: light :: rest)).foldl (scanModule n)
        { history := [0, 0, 0, 0, 0, 0, 0], colour := false, run := 0, total := 0 }) =
      finderLikeIn ((first + n) :: dark :: withBorder n (light :: rest)) := by
  obtain ⟨hdark, hlight, hrest⟩ := forall_mem_dropLast_cons_cons hruns
  have hfirst := foldl_scanModule_same n { history := [0, 0, 0, 0, 0, 0, 0], colour := false, run := 0, total := 0 } first
  have hstart : addRun n [0, 0, 0, 0, 0, 0, 0] (0 + first) = [first + n, 0, 0, 0, 0, 0, 0] := by simp [addRun]
  rw [lineOfRuns, List.foldl_append, hfirst]
  refine (scanEnd_dark_light n _ _ _ hdark hlight).trans ?_
  rw [hstart, addRun_of_pos n dark (by exact hpos)]
  refine (scanEnd_windows n rest _ _ _ _ _ _ _ light _ hdark hlight heven hrest).trans ?_
  simp [countFinder_eq_finderLikeAt, finderLikeIn_zero_zero, finderLikeAt]

/-- Settles O54: the line's runs are a first light run, a dark and a light one, and pairs of such (`scanEnd_line`). -/
theorem finderLikeRunsAreCounted : Obligations.FinderLikeRunsAreCounted := by
  intro first last inner hodd hinner line
  obtain ⟨dark, runs, rfl⟩ : ∃ dark runs, inner = dark :: runs := by
    cases inner with
    | nil => simp at hodd
    | cons dark runs => exact ⟨dark, runs, rfl⟩
  obtain ⟨light, rest, hsplit⟩ : ∃ light rest, runs ++ [last] = light :: rest := by
    cases runs with
    | nil => exact ⟨last, [], rfl⟩
    | cons light rest => exact ⟨light, rest ++ [last], rfl⟩
  have hruns : ∀ len ∈ (dark :: light :: rest).dropLast, 1 ≤ len := by
    rwa [← hsplit, ← List.cons_append, List.dropLast_concat]
  have heven : rest.length % 2 = 0 := by
    have hlen := congrArg List.length hsplit
    simp only [List.length_append, List.length_cons, List.length_nil] at hlen hodd
    omega
  have hline : line = lineOfRuns false (first :: dark :: light :: rest) := by
    rw [← hsplit]
    rfl
  have hpos : 1 ≤ first + line.length := by
    have hdark := hinner dark List.mem_cons_self
    simp only [hline, lineOfRuns, List.length_append, List.length_replicate]
    omega
  have hborder : (first + line.length) :: (dark :: runs) ++ [last + line.length] =
      (first + line.length) :: dark :: withBorder line.length (light :: rest) := by
    rw [← hsplit, withBorder_concat]
    rfl
  rw [hborder, ← scanEnd_line hpos heven hruns, ← hline]
  rfl

/-! ### Rule (d): the least step -/

/-- The dark share is within (5 + 5k)% of one half exactly if the distance of `20 dark` from `10 total` is at most `k + 1`
times the total. -/
theorem balance_within_iff (dark total k : Nat) :
    ((45 - 5 * (k : Int)) * total ≤ 100 * dark ∧ (100 * (dark : Int)) ≤ (55 + 5 * k) * total) ↔
      absDiff (20 * dark) (10 * total) ≤ (k + 1) * total := by
  have hprod : (45 - 5 * (k : Int)) * total = 45 * total - 5 * ((k * total : Nat) : Int) := by push_cast; ring
  have hprod' : (55 + 5 * (k : Int)) * total = 55 * total + 5 * ((k * total : Nat) : Int) := by push_cast; ring
  rw [hprod, hprod', Nat.add_one_mul k total, absDiff]
  omega

/-- A quotient rounded up, less 1, is at most `k` exactly if the number is at most `k + 1` times the divisor. -/
theorem div_round_up_sub_one_le_iff {a total : Nat} (h : 1 ≤ total) (k : Nat) :
    (a + total - 1) / total - 1 ≤ k ↔ a ≤ (k + 1) * total := by
  have hlt : (a + total - 1) / total < k + 2 ↔ a + total - 1 < (k + 2) * total := Nat.div_lt_iff_lt_mul h
  have hmul : (k + 2) * total = (k + 1) * total + total := Nat.succ_mul _ _
  omega

/-- Settles O55: by `balance_within_iff` and `div_round_up_sub_one_le_iff` the step of `penaltyD` is at most `k` exactly if `k`
is within the bounds. -/
theorem balancePenaltyIsTheLeastStep : Obligations.BalancePenaltyIsTheLeastStep := by
  intro dark total htotal _ within
  have hleast := fun k => (div_round_up_sub_one_le_iff htotal k).trans (balance_within_iff dark total k).symm
  exact ⟨_, rfl, (hleast _).1 le_rfl, fun j hj => (hleast j).2 hj⟩

/-! ### The four rules together -/

theorem sum_map_range (n : Nat) (f : Nat → Nat) : ((List.range n).map f).sum = ∑ i ∈ Finset.range n, f i := rfl

/-- A rule summed over the rows and columns of a grid. -/
theorem sum_lines (rule : List Bool → Nat) (n : Nat) (g : Grid) :
    ((rowLines n g ++ columnLines n g).map rule).sum =
      ∑ i ∈ Finset.range n, (rule ((List.range n).map fun c => moduleAt g i c) + rule ((List.range n).map fun r => moduleAt g r i)) := by
  rw [rowLines, columnLines, gridOf, gridOf, List.map_append, List.sum_append, List.map_map, List.map_map, Finset.sum_add_distrib]
  rfl

/-- Places counted row by row are the places of the square that meet the condition. -/
theorem sum_countP_range (n : Nat) (p : Nat → Nat → Bool) :
    ((List.range n).map fun r => (List.range n).countP (p r)).sum =
      ((Finset.range n ×ˢ Finset.range n).filter fun q => p q.1 q.2 = true).card := by
  have hcount : ∀ r, (List.range n).countP (p r) = ∑ c ∈ Finset.range n, if p r c = true then 1 else 0 := by
    intro r
    rw [← Finset.card_filter, List.countP_eq_length_filter]
    change _ = ((List.range n).filter fun c => decide (p r c = true)).length
    simp
  rw [Finset.card_filter, Finset.sum_product, sum_map_range]
  exact Finset.sum_congr rfl fun r _ => hcount r

/-- Settles O59: each rule of `penalty` is a sum over lines (`sum_lines`) or a count of places (`sum_countP_range`). -/
theorem penaltyAddsTheFourRules : Obligations.PenaltyAddsTheFourRules := by
  intro n g row column blocks dark
  have hblocks : penaltyB n g = 3 * blocks.card := by
    rw [penaltyB, sum_countP_range]
    simp [uniformBlock, blocks, penaltyN2, and_assoc]
  have hdark : darkCount n g = dark.card := by
    rw [darkCount, rowLines, gridOf, List.map_map]
    refine Eq.trans ?_ (sum_countP_range n (moduleAt g))
    simp [Function.comp_def, List.count, List.countP_map]
  rw [specConfig_penalty, penalty, penaltyA, penaltyC, sum_lines, sum_lines, hblocks, hdark]
  rfl

/-! ### The mask of least penalty -/

/-- The scan keeps the first of the masks it has seen that score least, of masks in rising order. -/
theorem bestMask_least (score : Nat → Nat) (ks : List Nat) (best : Nat) (h : (best :: ks).Pairwise (· < ·)) :
    bestMask score ks best (score best) ∈ best :: ks ∧
      ∀ k ∈ best :: ks, score (bestMask score ks best (score best)) ≤ score k ∧
        (k < bestMask score ks best (score best) → score (bestMask score ks best (score best)) < score k) := by
  induction ks generalizing best with
  | nil => simp [bestMask]
  | cons k ks ih =>
    obtain ⟨hlt, hkeep, htake⟩ := List.pairwise_cons_cons.1 h
    rw [bestMask]
    split
    case isTrue hless =>
      obtain ⟨hmem, hleast⟩ := ih k htake
      have hscore := (hleast k List.mem_cons_self).1
      exact ⟨List.mem_cons_of_mem _ hmem, List.forall_mem_cons.2 ⟨⟨by omega, fun _ => by omega⟩, hleast⟩⟩
    case isFalse hge =>
      obtain ⟨hmem, hleast⟩ := ih best hkeep
      obtain ⟨hbest, hrest⟩ := List.forall_mem_cons.1 hleast
      refine ⟨by simp only [List.mem_cons] at hmem ⊢; tauto,
        List.forall_mem_cons.2 ⟨hbest, List.forall_mem_cons.2 ⟨⟨by omega, fun hk => ?_⟩, hrest⟩⟩⟩
      have := hbest.2 (hlt.trans hk)
      omega

/-- Settles O52: `bestMask_least` on the masks 0 to 7. -/
theorem automaticMaskHasTheLeastPenalty : Obligations.AutomaticMaskHasTheLeastPenalty := by
  intro cfg n g f e
  obtain ⟨hmem, hleast⟩ := bestMask_least (fun k => cfg.penalty n (trial cfg n g f e k)) [1, 2, 3, 4, 5, 6, 7] 0 (by decide)
  have hmask : ∀ k, k ∈ [0, 1, 2, 3, 4, 5, 6, 7] ↔ k < 8 := by
    intro k
    simp
    omega
  have hlt := (hmask _).1 hmem
  exact ⟨hlt, fun k hk => (hleast k ((hmask k).2 hk)).1, fun k hk => (hleast k ((hmask k).2 (hk.trans hlt))).2 hk⟩

end Sys2Proof.Machine
end

section
/-! PROOFS. The placement order (45_matrix_builder.md R211): the walk as a list of column pairs, the place of every module in it,
and that it visits no module twice and none outside the grid. -/

namespace Sys2Proof.Machine

/-! ### Lists of pieces of one length -/

section Pieces
variable {α β : Type} {w : Nat} {f : α → List β}

/-- Item `k` of piece `i`, where every piece has `w` items. -/
theorem flatMap_getElem?_of_length (hw : ∀ a, (f a).length = w) (l : List α) {i k : Nat} (hk : k < w) :
    (l.flatMap f)[i * w + k]? = l[i]?.bind fun a => (f a)[k]? := by
  induction l generalizing i with
  | nil => rfl
  | cons a l ih =>
    cases i with
    | zero => simp [List.flatMap_cons, List.getElem?_append_left, hw, hk]
    | succ i =>
      have hskip : (i + 1) * w + k - w = i * w + k := by rw [Nat.add_one_mul]; omega
      rw [List.flatMap_cons, List.getElem?_append_right (by rw [hw, Nat.add_one_mul]; omega), hw, hskip, ih,
        List.getElem?_cons_succ]

theorem length_flatMap_of_length (hw : ∀ a, (f a).length = w) (l : List α) : (l.flatMap f).length = l.length * w := by
  simp [List.length_flatMap, hw]

end Pieces

/-! ### The column pairs -/

theorem columnPair_length (n right : Nat) : (columnPair n right).length = 2 * n := by
  rw [columnPair, length_flatMap_of_length (w := 2) fun _ => rfl, List.length_range, Nat.mul_comm]

/-- Bit 1 of a number. -/
theorem and_two_eq_zero_iff (a : Nat) : a &&& 2 = 0 ↔ a / 2 % 2 = 0 := by
  have hbit : a &&& 2 = (a.testBit 1).toNat * 2 := Nat.and_two_pow a 1
  have htest : a.testBit 1 = decide (a / 2 % 2 = 1) := Nat.testBit_eq_decide_div_mod_eq
  rw [hbit, htest]
  by_cases h : a / 2 % 2 = 1 <;> simp [h]
  omega

/-- The module in `side` (0 for the right column, 1 for the left) of row `i` counted in the direction of the pair. -/
theorem columnPair_getElem? {n i side : Nat} (right : Nat) (hi : i < n) (hside : side < 2) :
    (columnPair n right)[i * 2 + side]? = some (if (right + 1) / 2 % 2 = 0 then n - 1 - i else i, right - side) := by
  rw [columnPair, flatMap_getElem?_of_length (w := 2) (fun _ => rfl) _ hside, List.getElem?_range hi, Option.bind_some]
  simp only [and_two_eq_zero_iff]
  obtain rfl | rfl : side = 0 ∨ side = 1 := by omega
  · rfl
  · rfl

/-- The right column of pair `p` of a grid of side 2m + 1: two to the left per pair, and one more from column 6 on. -/
def rightColumn (m p : Nat) : Nat := if p + 3 < m then 2 * (m - p) else 2 * (m - p) - 1

theorem zigzagFrom_succ (n fuel : Nat) {right : Nat} (h1 : 1 ≤ right) (h6 : right ≠ 6) :
    zigzagFrom n (fuel + 1) right = columnPair n right ++ zigzagFrom n fuel (right - 2) := by
  rw [zigzagFrom, if_neg (by omega), if_neg h6]

/-- From an odd column on, the walk is the pairs of the odd columns. -/
theorem zigzagFrom_odd (n m : Nat) : ∀ fuel, m < fuel →
    zigzagFrom n fuel (2 * m + 1) = (List.range (m + 1)).flatMap fun p => columnPair n (2 * (m - p) + 1) := by
  induction m with
  | zero =>
    intro fuel hf
    obtain ⟨fuel, rfl⟩ := Nat.exists_eq_add_of_le' hf
    have hstop : zigzagFrom n fuel 0 = [] := by cases fuel <;> simp [zigzagFrom]
    simp [zigzagFrom, hstop]
  | succ m ih =>
    intro fuel hf
    obtain ⟨fuel, rfl⟩ : ∃ k, fuel = k + 1 := ⟨fuel - 1, by omega⟩
    rw [List.range_succ_eq_map, List.flatMap_cons, List.flatMap_map, zigzagFrom_succ n fuel (by omega) (by omega),
      show 2 * (m + 1) + 1 - 2 = 2 * m + 1 by omega, ih fuel (by omega)]
    simp only [Nat.succ_eq_add_one, Nat.add_sub_add_right, Nat.sub_zero]

/-- From an even column right of the timing column on, the walk is the pairs of `rightColumn`. -/
theorem zigzagFrom_even (n m : Nat) (hm : 3 ≤ m) : ∀ fuel, m ≤ fuel →
    zigzagFrom n fuel (2 * m) = (List.range m).flatMap fun p => columnPair n (rightColumn m p) := by
  induction m, hm using Nat.le_induction with
  | base => exact fun fuel hf => (zigzagFrom_six n fuel).trans (zigzagFrom_odd n 2 fuel hf)
  | succ m hm ih =>
    intro fuel hf
    obtain ⟨fuel, rfl⟩ : ∃ k, fuel = k + 1 := ⟨fuel - 1, by omega⟩
    have hright : ∀ p, rightColumn (m + 1) (p + 1) = rightColumn m p := fun p => by
      unfold rightColumn
      split_ifs <;> omega
    have hfirst : rightColumn (m + 1) 0 = 2 * (m + 1) := by
      unfold rightColumn
      split_ifs <;> omega
    rw [List.range_succ_eq_map, List.flatMap_cons, List.flatMap_map, hfirst, zigzagFrom_succ n fuel (by omega) (by omega),
      show 2 * (m + 1) - 2 = 2 * m by omega, ih fuel (by omega)]
    simp only [Nat.succ_eq_add_one, hright]

/-- The walk of a grid is its column pairs from the right. -/
theorem zigzag_eq_flatMap {n m : Nat} (hn : n = 2 * m + 1) (hm : 3 ≤ m) :
    zigzag n = (List.range m).flatMap fun p => columnPair n (rightColumn m p) := by
  have hright : n - 1 = 2 * m := by omega
  rw [zigzag, hright, zigzagFrom_even n m hm n (by omega)]

/-- Settles O48: the walk is a list of pairs of 2n modules each (`zigzag_eq_flatMap`), and `columnPair_getElem?` gives the places
in a pair. A grid's side is 1 more than a multiple of 4, so the first pair is walked upward. -/
theorem zigzagWalksTheColumnPairs : Obligations.ZigzagWalksTheColumnPairs := by
  intro v h1 h40 n
  have hn : n = 2 * (2 * v + 8) + 1 := by omega
  have hlen := fun p => columnPair_length n (rightColumn (2 * v + 8) p)
  rw [zigzag_eq_flatMap hn (by omega)]
  constructor
  · rw [length_flatMap_of_length hlen, List.length_range, show n - 1 = 2 * (2 * v + 8) by omega]
    ring
  · intro r c hr hc h6 fromRight pair
    have hfrom : fromRight = n - 1 - (if c < 6 then c + 1 else c) := rfl
    have hpair : pair < 2 * v + 8 := by split_ifs at hfrom <;> omega
    have hrow : (if pair % 2 = 0 then n - 1 - r else r) < n := by split <;> omega
    have hplace := columnPair_getElem? (rightColumn (2 * v + 8) pair) hrow (Nat.mod_lt fromRight Nat.two_pos)
    rw [Nat.add_assoc, Nat.mul_comm 2 (ite _ _ _), flatMap_getElem?_of_length hlen _ (by omega), List.getElem?_range hpair,
      Option.bind_some, hplace]
    have hcolumn : rightColumn (2 * v + 8) pair - fromRight % 2 = c := by
      unfold rightColumn
      split_ifs at hfrom ⊢ <;> omega
    have hturn : (rightColumn (2 * v + 8) pair + 1) / 2 % 2 = 0 ↔ pair % 2 = 0 := by
      unfold rightColumn
      split_ifs <;> omega
    rw [hcolumn]
    simp only [hturn]
    congr 2
    split <;> omega

/-! ### Every module at most once -/

theorem countP_zigzag {v : Nat} (p : Nat × Nat → Bool) :
    (zigzag (Config.sideLength v)).countP p = ∑ c ∈ offTiming (Config.sideLength v), columnCount (Config.sideLength v) p c := by
  have hn : Config.sideLength v = 2 * (2 * v + 5) + 7 := by unfold Config.sideLength; omega
  rw [zigzag, show Config.sideLength v - 1 = 2 * (2 * v + 5) + 6 by omega, countP_zigzagFrom_even _ p (by omega), offTiming, ← hn]

theorem zigzag_nodup (v : Nat) : (zigzag (Config.sideLength v)).Nodup := by
  refine List.nodup_iff_count_le_one.2 fun ⟨r, c⟩ => ?_
  have hone : ∀ row col : Nat, ((row, col) == (r, c)).toNat = if row = r then if col = c then 1 else 0 else 0 := by
    intro row col
    by_cases hr : row = r <;> by_cases hc : col = c <;> simp [hr, hc]
  rw [List.count, countP_zigzag]
  simp only [columnCount, hone, Finset.sum_ite_eq']
  split_ifs
  · rw [Finset.sum_ite_eq']
    split <;> decide
  · simp

/-- The walk stays in the grid. -/
theorem lt_of_mem_zigzag {v r c : Nat} (h : (r, c) ∈ zigzag (Config.sideLength v)) :
    r < Config.sideLength v ∧ c < Config.sideLength v := by
  have hn : Config.sideLength v = 2 * (2 * v + 8) + 1 := by unfold Config.sideLength; omega
  rw [zigzag_eq_flatMap hn (by omega), List.mem_flatMap] at h
  obtain ⟨p, hp, h⟩ := h
  have hright : rightColumn (2 * v + 8) p < Config.sideLength v := by
    unfold rightColumn
    split <;> omega
  obtain ⟨i, hi, h⟩ := List.mem_flatMap.1 h
  simp only [List.mem_cons, Prod.mk.injEq, List.not_mem_nil, or_false] at h
  rw [List.mem_range] at hi
  split at h <;> omega

theorem dataPositions_nodup (v : Nat) (f : Grid) : (dataPositions (Config.sideLength v) f).Nodup :=
  (zigzag_nodup v).filter _

theorem lt_of_mem_dataPositions {v r c : Nat} {f : Grid} (h : (r, c) ∈ dataPositions (Config.sideLength v) f) :
    r < Config.sideLength v ∧ c < Config.sideLength v := lt_of_mem_zigzag (List.mem_filter.1 h).1

end Sys2Proof.Machine
end

section
/-! PROOFS. The colours of the function patterns (45_matrix_builder.md R202 to R208): what `functionAt` is at a module of each
kind, at every version. -/

namespace Sys2Proof.Machine

open Sys2Proof.Reference

/-! ### What each pattern draws -/

/-- Every alignment position is even, so an alignment pattern on a timing line keeps its colours. -/
theorem alignPos_even : ∀ v ∈ Finset.Icc 1 40, ∀ a ∈ alignPos v, a % 2 = 0 := by decide +kernel

/-- The words the BCH code gives are those of the spec's list (45_matrix_builder.md R207). -/
theorem versionWord_eq_versionCode : ∀ v ∈ Finset.Icc 7 40, versionWord v = versionCode v := by decide +kernel

/-- The words the BCH code gives are those of the spec's table (45_matrix_builder.md R206). -/
theorem formatWord_eq_formatCode (e : Level) : ∀ k < 8, formatWord e k = formatCode e k := by cases e <;> decide +kernel

theorem alignPosition_of_getElem? {ps : List Nat} {i a : Nat} (h : ps[i]? = some a) :
    i < ps.length ∧ alignPosition ps i = a :=
  ⟨(List.getElem?_eq_some_iff.1 h).1, by rw [alignPosition, List.getD, h]; rfl⟩

theorem absDiff_le_two_iff {x p : Nat} : absDiff x p ≤ 2 ↔ x ∈ alignSpan p := by
  rw [alignSpan, Finset.mem_Icc, absDiff]
  omega

/-- No coordinate is within reach of two alignment positions. -/
theorem alignSpan_unique {n x i j : Nat} {ps : List Nat} (h : AlignSpaced n ps) (hi : i < ps.length) (hj : j < ps.length)
    (hxi : x ∈ alignSpan (alignPosition ps i)) (hxj : x ∈ alignSpan (alignPosition ps j)) : i = j := by
  obtain ⟨-, -, -, -, hij⟩ := h i hi
  obtain ⟨-, -, -, -, hji⟩ := h j hj
  have hij := hij j hj
  have hji := hji i hi
  simp only [alignSpan, Finset.mem_Icc] at hxi hxj
  omega

theorem alignPosition_mem {ps : List Nat} {i : Nat} (hi : i < ps.length) : alignPosition ps i ∈ ps := by
  rw [alignPosition, List.getD_eq_getElem _ _ hi]
  exact List.getElem_mem hi

theorem mem_alignPairs {k : Nat} {ij : Nat × Nat} :
    ij ∈ alignPairs k ↔ (ij.1 < k ∧ ij.2 < k) ∧ alignSkipped k ij.1 ij.2 = false := by
  simp [alignPairs]

/-- What an alignment pattern draws is drawn by a pair of positions that reaches the module. -/
theorem alignAt_eq_some {cfg : Configuration} {v r c : Nat} {d : Bool} (h : alignAt cfg v r c = some d) :
    ∃ ij ∈ alignPairs (cfg.alignPos v).length,
      r ∈ alignSpan (alignPosition (cfg.alignPos v) ij.1) ∧ c ∈ alignSpan (alignPosition (cfg.alignPos v) ij.2) ∧
      d = (distFrom (alignPosition (cfg.alignPos v) ij.1) (alignPosition (cfg.alignPos v) ij.2) r c != 1) := by
  obtain ⟨i, hi, h⟩ := List.exists_of_findSome?_eq_some h
  obtain ⟨j, hj, h⟩ := List.exists_of_findSome?_eq_some h
  obtain ⟨hi, hr⟩ := (mem_alignNear _ _ _).1 hi
  obtain ⟨hj, hc⟩ := (mem_alignNear _ _ _).1 hj
  obtain ⟨hskip, h⟩ := Option.ite_none_left_eq_some.1 h
  exact ⟨(i, j), mem_alignPairs.2 ⟨⟨hi, hj⟩, Bool.eq_false_iff.2 hskip⟩, hr, hc, (Option.some.inj h).symm⟩

/-- Copy 1 and copy 2 of format bit `i` are the format modules that hold it (45_matrix_builder.md R206). -/
theorem formatBitAt_eq_some_iff {n r c i : Nat} (hn : 21 ≤ n) (hr : r < n) (hc : c < n) :
    formatBitAt n r c = some i ↔ i < 15 ∧ ((r, c) = formatCopy1 i ∨ (r, c) = formatCopy2 n i) := by
  unfold formatBitAt formatCopy1 formatCopy2
  split_ifs <;> simp <;> omega

theorem formatCopy_lt {n i : Nat} (hn : 21 ≤ n) (hi : i < 15) :
    ((formatCopy1 i).1 < n ∧ (formatCopy1 i).2 < n) ∧ (formatCopy2 n i).1 < n ∧ (formatCopy2 n i).2 < n := by
  unfold formatCopy1 formatCopy2
  split_ifs <;> simp <;> omega

/-! ### The colour of a module of each kind -/

section Kinds
variable {v r c : Nat}

/-- No alignment pattern reaches the corners or the version information. -/
theorem alignAt_clear (hv : v ∈ Finset.Icc 1 40) (h : (alignAt specConfig v r c).isSome) :
    ¬(r < 9 ∧ c < 9) ∧ ¬(r < 9 ∧ Config.sideLength v - 11 ≤ c) ∧ ¬(Config.sideLength v - 11 ≤ r ∧ c < 9) := by
  obtain ⟨ij, hij, hrow, hcol⟩ := (alignAt_isSome specConfig v r c).1 h
  exact alignRect_clear (alignPos_spaced v hv).1 (sideLength_ge (Finset.mem_Icc.1 hv).1) hij hrow hcol

theorem alignAt_eq_none (hv : v ∈ Finset.Icc 1 40)
    (h : (r < 9 ∧ c < 9) ∨ (r < 9 ∧ Config.sideLength v - 11 ≤ c) ∨ (Config.sideLength v - 11 ≤ r ∧ c < 9)) :
    alignAt specConfig v r c = none :=
  Option.not_isSome_iff_eq_none.1 fun hsome => by
    have := alignAt_clear hv hsome
    omega

theorem versionAt_eq_none
    (h : ¬(r < 6 ∧ Config.sideLength v - 11 ≤ c ∧ c < Config.sideLength v - 8) ∧
      ¬(Config.sideLength v - 11 ≤ r ∧ r < Config.sideLength v - 8 ∧ c < 6)) :
    versionAt specConfig v r c = none :=
  Option.not_isSome_iff_eq_none.1 fun hsome => by
    have := ((versionAt_isSome specConfig v r c).1 hsome).2
    simp only [Finset.mem_range, versionSpan, Finset.mem_Ico] at this
    omega

theorem formatAreaAt_eq_none (hv : v ∈ Finset.Icc 1 40) (hr : r < Config.sideLength v) (hc : c < Config.sideLength v)
    (h : ¬(c = 8 ∧ (r < 9 ∧ r ≠ 6 ∨ Config.sideLength v - 8 ≤ r)) ∧
      ¬(r = 8 ∧ (c < 9 ∧ c ≠ 6 ∨ Config.sideLength v - 8 ≤ c))) :
    formatAreaAt (Config.sideLength v) r c = none :=
  Option.not_isSome_iff_eq_none.1 fun hsome => by
    have := (formatAreaAt_isSome (sideLength_ge (Finset.mem_Icc.1 hv).1) hr hc).1 hsome
    omega

/-- Alignment patterns on a timing line have its colours. -/
theorem alignAt_timing (hv : v ∈ Finset.Icc 1 40) {i : Nat} {d : Bool} :
    (alignAt specConfig v 6 i = some d → d = (i % 2 == 0)) ∧ (alignAt specConfig v i 6 = some d → d = (i % 2 == 0)) := by
  have hline : ∀ j < (alignPos v).length, 6 ∈ alignSpan (alignPosition (alignPos v) j) → alignPosition (alignPos v) j = 6 := by
    intro j hj hspan
    obtain ⟨hfirst, hlater, -⟩ := (alignPos_spaced v hv).1 j hj
    simp only [alignSpan, Finset.mem_Icc] at hspan
    omega
  have heven := fun j (hj : j < (alignPos v).length) => alignPos_even v hv _ (alignPosition_mem hj)
  have hcolour : ∀ {a : Nat}, a % 2 = 0 → i ∈ alignSpan a →
      (distFrom 6 a 6 i != 1) = (i % 2 == 0) ∧ (distFrom a 6 i 6 != 1) = (i % 2 == 0) := by
    intro a ha hspan
    rw [alignSpan, Finset.mem_Icc] at hspan
    refine ⟨Bool.eq_iff_iff.2 ?_, Bool.eq_iff_iff.2 ?_⟩ <;> simp only [bne_iff_ne, beq_iff_eq, distFrom, absDiff] <;> omega
  constructor
  · intro h
    obtain ⟨ij, hij, hrow, hcol, rfl⟩ := alignAt_eq_some h
    obtain ⟨⟨hi, hj⟩, -⟩ := mem_alignPairs.1 hij
    rw [specConfig_alignPos, hline _ hi hrow]
    exact (hcolour (heven _ hj) hcol).1
  · intro h
    obtain ⟨ij, hij, hrow, hcol, rfl⟩ := alignAt_eq_some h
    obtain ⟨⟨hi, hj⟩, -⟩ := mem_alignPairs.1 hij
    rw [specConfig_alignPos, hline _ hj hcol]
    exact (hcolour (heven _ hi) hrow).2

/-- Timing modules between the finder patterns, where an alignment pattern may lie over them in the same colours
(45_matrix_builder.md R202). -/
theorem functionAt_timing (hv : v ∈ Finset.Icc 1 40) {i : Nat} (h8 : 8 ≤ i) (hi : i < Config.sideLength v - 8) :
    functionAt specConfig v 6 i = some (i % 2 == 0) ∧ functionAt specConfig v i 6 = some (i % 2 == 0) := by
  have hn := sideLength_ge (Finset.mem_Icc.1 hv).1
  have hcolour : ∀ {o : Option Bool} {b : Bool}, (∀ d, o = some d → d = b) → o.or (some b) = some b := by
    rintro (_ | d) b h
    · rfl
    · exact congrArg some (h d rfl)
  have hrow : finderAt (Config.sideLength v) 6 i = none := Option.not_isSome_iff_eq_none.1 fun h => by
    have := (finderAt_isSome hn (by omega) (by omega)).1 h
    omega
  have hcol : finderAt (Config.sideLength v) i 6 = none := Option.not_isSome_iff_eq_none.1 fun h => by
    have := (finderAt_isSome hn (by omega) (by omega)).1 h
    omega
  have htiming : timingAt i 6 = some (i % 2 == 0) := by
    rw [timingAt, if_neg (by omega)]
    rfl
  constructor
  · rw [functionAt, versionAt_eq_none (by omega), formatAreaAt_eq_none hv (by omega) (by omega) (by omega), hrow]
    exact hcolour fun d h => (alignAt_timing hv).1 h
  · rw [functionAt, versionAt_eq_none (by omega), formatAreaAt_eq_none hv (by omega) (by omega) (by omega), hcol, htiming]
    exact hcolour fun d h => (alignAt_timing hv).2 h

/-- In the corners the finder patterns and separators are drawn (45_matrix_builder.md R203). -/
theorem functionAt_corner (hv : v ∈ Finset.Icc 1 40) (hr : r < Config.sideLength v) (hc : c < Config.sideLength v)
    (h : (r < 8 ∧ c < 8) ∨ (r < 8 ∧ Config.sideLength v - 8 ≤ c) ∨ (Config.sideLength v - 8 ≤ r ∧ c < 8)) :
    functionAt specConfig v r c = finderAt (Config.sideLength v) r c := by
  have hn := sideLength_ge (Finset.mem_Icc.1 hv).1
  obtain ⟨d, hd⟩ := Option.isSome_iff_exists.1 ((finderAt_isSome hn hr hc).2 h)
  rw [functionAt, versionAt_eq_none (by omega), formatAreaAt_eq_none hv hr hc (by omega), alignAt_eq_none hv (by omega), hd]
  rfl

/-- A finder pattern by the distance from its centre (45_matrix_builder.md R203). -/
theorem finderAt_corners {n : Nat} (hn : 21 ≤ n) (hr : r < 8) (hc : c < 8) :
    let d := max (absDiff r 3) (absDiff c 3)
    finderAt n r c = some (d != 2 && d != 4) ∧ finderAt n r (n - 1 - c) = some (d != 2 && d != 4) ∧
      finderAt n (n - 1 - r) c = some (d != 2 && d != 4) := by
  intro d
  have hnear : finderShape d = some (d != 2 && d != 4) := if_pos (by simp only [d, absDiff]; omega)
  have hfar : ∀ {x}, 4 < x → finderShape x = none := fun h => if_neg (by omega)
  have hright : distFrom 3 (n - 4) r (n - 1 - c) = d := by simp only [distFrom, d, absDiff]; omega
  have hbelow : distFrom (n - 4) 3 (n - 1 - r) c = d := by simp only [distFrom, d, absDiff]; omega
  have hrightFar : 4 < distFrom 3 3 r (n - 1 - c) := by simp only [distFrom, absDiff]; omega
  have hbelowFar : 4 < distFrom 3 3 (n - 1 - r) c ∧ 4 < distFrom 3 (n - 4) (n - 1 - r) c := by
    simp only [distFrom, absDiff]
    omega
  simp only [finderAt, finderCentres, List.findSome?_cons, hfar hrightFar, hfar hbelowFar.1, hfar hbelowFar.2, hright, hbelow,
    show distFrom 3 3 r c = d from rfl, hnear, and_self]

/-- The finder patterns and separators at the three corners (45_matrix_builder.md R203). -/
theorem functionAt_finder (hv : v ∈ Finset.Icc 1 40) (hr : r < 8) (hc : c < 8) :
    let d := max (absDiff r 3) (absDiff c 3)
    functionAt specConfig v r c = some (d != 2 && d != 4) ∧
      functionAt specConfig v r (Config.sideLength v - 1 - c) = some (d != 2 && d != 4) ∧
      functionAt specConfig v (Config.sideLength v - 1 - r) c = some (d != 2 && d != 4) := by
  have hn := sideLength_ge (Finset.mem_Icc.1 hv).1
  rw [functionAt_corner hv (by omega) (by omega) (by omega), functionAt_corner hv (by omega) (by omega) (by omega),
    functionAt_corner hv (by omega) (by omega) (by omega)]
  exact finderAt_corners hn hr hc

/-- Alignment patterns lie in the grid. -/
theorem lt_of_alignAt (hv : v ∈ Finset.Icc 1 40) {d : Bool} (h : alignAt specConfig v r c = some d) :
    r < Config.sideLength v ∧ c < Config.sideLength v := by
  have hside : ∀ {i x : Nat}, i < (alignPos v).length → x ∈ alignSpan (alignPosition (alignPos v) i) →
      x < Config.sideLength v := by
    intro i x hi hx
    obtain ⟨-, -, hlast, hbefore, -⟩ := (alignPos_spaced v hv).1 i hi
    rw [alignSpan, Finset.mem_Icc] at hx
    omega
  obtain ⟨ij, hij, hrow, hcol, -⟩ := alignAt_eq_some h
  obtain ⟨⟨hi, hj⟩, -⟩ := mem_alignPairs.1 hij
  exact ⟨hside hi hrow, hside hj hcol⟩

/-- Where an alignment pattern draws nothing lies over it (45_matrix_builder.md R205). -/
theorem functionAt_align (hv : v ∈ Finset.Icc 1 40) (hr : r < Config.sideLength v) (hc : c < Config.sideLength v) {d : Bool}
    (h : alignAt specConfig v r c = some d) : functionAt specConfig v r c = some d := by
  have hclear := alignAt_clear hv (Option.isSome_of_eq_some h)
  rw [functionAt, versionAt_eq_none (by omega), formatAreaAt_eq_none hv hr hc (by omega), h]
  rfl

/-- An alignment pattern by the distance from its centre (45_matrix_builder.md R205). -/
theorem alignAt_of_pair (hv : v ∈ Finset.Icc 1 40) {i j a b : Nat} (hi : (alignPos v)[i]? = some a)
    (hj : (alignPos v)[j]? = some b) (hskip : alignSkipped (alignPos v).length i j = false) (hr : absDiff r a ≤ 2)
    (hc : absDiff c b ≤ 2) : alignAt specConfig v r c = some (max (absDiff r a) (absDiff c b) != 1) := by
  obtain ⟨hilt, rfl⟩ := alignPosition_of_getElem? hi
  obtain ⟨hjlt, rfl⟩ := alignPosition_of_getElem? hj
  rw [absDiff_le_two_iff] at hr hc
  obtain ⟨d, hd⟩ := Option.isSome_iff_exists.1
    ((alignAt_isSome specConfig v r c).2 ⟨(i, j), mem_alignPairs.2 ⟨⟨hilt, hjlt⟩, hskip⟩, hr, hc⟩)
  obtain ⟨kl, hkl, hr', hc', rfl⟩ := alignAt_eq_some hd
  obtain ⟨⟨hk, hl⟩, -⟩ := mem_alignPairs.1 hkl
  have hspaced := (alignPos_spaced v hv).1
  rw [hd, ← alignSpan_unique hspaced hilt hk hr hr', ← alignSpan_unique hspaced hjlt hl hc hc']
  rfl

/-- A reserved format module is light (45_matrix_builder.md R208). -/
theorem functionAt_format (hv : v ∈ Finset.Icc 1 40) (hr : r < Config.sideLength v) (hc : c < Config.sideLength v) {i : Nat}
    (h : formatBitAt (Config.sideLength v) r c = some i) : functionAt specConfig v r c = some false := by
  have hn := sideLength_ge (Finset.mem_Icc.1 hv).1
  have harea : formatAreaAt (Config.sideLength v) r c = some false := by
    rw [formatAreaAt, h, if_neg]
    rintro ⟨rfl, rfl⟩
    rw [formatBitAt] at h
    split_ifs at h <;> omega
  have hplace := (formatAreaAt_isSome hn hr hc).1 (Option.isSome_of_eq_some harea)
  rw [functionAt, versionAt_eq_none (by omega), harea]
  rfl

theorem functionAt_dark (hv : v ∈ Finset.Icc 1 40) : functionAt specConfig v (Config.sideLength v - 8) 8 = some true := by
  have hn := sideLength_ge (Finset.mem_Icc.1 hv).1
  rw [functionAt, versionAt_eq_none (by omega), formatAreaAt, if_pos ⟨rfl, rfl⟩]
  rfl

theorem functionAt_version (hv : v ∈ Finset.Icc 7 40) {i : Nat} (hi : i < 18) :
    functionAt specConfig v (i / 3) (Config.sideLength v - 11 + i % 3) = some ((versionCode v).testBit i) ∧
      functionAt specConfig v (Config.sideLength v - 11 + i % 3) (i / 3) = some ((versionCode v).testBit i) := by
  have hn : 45 ≤ Config.sideLength v := by
    have := (Finset.mem_Icc.1 hv).1
    unfold Config.sideLength
    omega
  have hright : versionBitAt (Config.sideLength v) (i / 3) (Config.sideLength v - 11 + i % 3) = some i := by
    rw [versionBitAt, if_pos (by omega)]
    congr 1
    omega
  have hbelow : versionBitAt (Config.sideLength v) (Config.sideLength v - 11 + i % 3) (i / 3) = some i := by
    rw [versionBitAt, if_neg (by omega), if_pos (by omega)]
    congr 1
    omega
  rw [functionAt, functionAt, versionAt, versionAt, if_pos (Finset.mem_Icc.1 hv).1, if_pos (Finset.mem_Icc.1 hv).1, hright, hbelow,
    ← versionWord_eq_versionCode v hv]
  exact ⟨rfl, rfl⟩

end Kinds

/-! ### Every module -/

/-- A function module is drawn in its colour and marked in the map. -/
theorem functionGrid_drawn {v r c : Nat} {d : Bool} (hr : r < Config.sideLength v) (hc : c < Config.sideLength v)
    (h : functionAt specConfig v r c = some d) :
    moduleAt (functionGrid specConfig v) r c = d ∧ moduleAt (functionMap specConfig v) r c = true := by
  rw [moduleAt_functionGrid specConfig hr hc, moduleAt_functionMap specConfig hr hc, h]
  exact ⟨rfl, rfl⟩

theorem alignSkipped_eq_false {k i j : Nat} (h00 : ¬(i = 0 ∧ j = 0)) (h01 : ¬(i = 0 ∧ j = k - 1)) (h10 : ¬(i = k - 1 ∧ j = 0)) :
    alignSkipped k i j = false := by
  simp only [alignSkipped, Bool.or_eq_false_iff, Bool.and_eq_false_iff, beq_eq_false_iff_ne]
  omega

/-- Settles O46: the kinds one by one (`functionAt_timing`, `functionAt_corner`, `functionAt_align`, `functionAt_format`,
`functionAt_dark`, `functionAt_version`). -/
theorem functionPatternsHaveTheirColours : Obligations.FunctionPatternsHaveTheirColours := by
  intro v h1 h40 n drawn
  have hv := Finset.mem_Icc.2 ⟨h1, h40⟩
  have hn : 21 ≤ n := sideLength_ge h1
  have hdrawn : ∀ {r c d}, r < n → c < n → functionAt specConfig v r c = some d → drawn r c d := functionGrid_drawn
  refine ⟨fun i h8 hi => ?_, fun r c hr hc => ?_, fun i j a b hi hj h00 h01 h10 r c hr hc => ?_, fun i hi => ?_, ?_,
    fun h7 i hi => ?_, fun r c hr hc hlight => ?_⟩
  · obtain ⟨hrow, hcol⟩ := functionAt_timing hv h8 hi
    exact ⟨hdrawn (by omega) (by omega) hrow, hdrawn (by omega) (by omega) hcol⟩
  · obtain ⟨hleft, hright, hbelow⟩ := functionAt_finder hv hr hc
    exact ⟨hdrawn (by omega) (by omega) hleft, hdrawn (by omega) (by omega) hright, hdrawn (by omega) (by omega) hbelow⟩
  · have halign := alignAt_of_pair hv hi hj (alignSkipped_eq_false h00 h01 h10) hr hc
    obtain ⟨hrn, hcn⟩ := lt_of_alignAt hv halign
    exact hdrawn hrn hcn (functionAt_align hv hrn hcn halign)
  · obtain ⟨⟨hr1, hc1⟩, hr2, hc2⟩ := formatCopy_lt hn hi
    exact ⟨hdrawn hr1 hc1 (functionAt_format hv hr1 hc1 ((formatBitAt_eq_some_iff hn hr1 hc1).2 ⟨hi, .inl rfl⟩)),
      hdrawn hr2 hc2 (functionAt_format hv hr2 hc2 ((formatBitAt_eq_some_iff hn hr2 hc2).2 ⟨hi, .inr rfl⟩))⟩
  · exact hdrawn (by omega) (by omega) (functionAt_dark hv)
  · obtain ⟨hright, hbelow⟩ := functionAt_version (Finset.mem_Icc.2 ⟨h7, h40⟩) hi
    exact ⟨hdrawn (by omega) (by omega) hright, hdrawn (by omega) (by omega) hbelow⟩
  · have hlight := (moduleAt_functionMap specConfig hr hc).symm.trans hlight
    rw [moduleAt_functionGrid specConfig hr hc, Option.isNone_iff_eq_none.1 (Option.isSome_eq_false_iff.1 hlight)]
    rfl

/-! ### The corners of every grid -/

/-- Format modules lie in row 8 or column 8 at the corners (45_matrix_builder.md R206). -/
theorem formatBitAt_eq_none {n r c : Nat} (hn : 21 ≤ n) (hr : r < n) (hc : c < n)
    (h : r ≠ 8 ∧ c ≠ 8 ∨ ¬(r < 9 ∧ c < 9) ∧ ¬(r < 9 ∧ n - 8 ≤ c) ∧ ¬(n - 8 ≤ r ∧ c < 9)) : formatBitAt n r c = none := by
  rw [formatBitAt, if_neg (by omega), if_neg (by omega), if_neg (by omega), if_neg (by omega), if_neg (by omega),
    if_neg (by omega), if_neg (by omega)]

/-- The pattern of the last pair of alignment positions, opposite the top left corner (45_matrix_builder.md R205). -/
theorem alignAt_last {v r c : Nat} (hv : v ∈ Finset.Icc 2 40)
    (h : max (absDiff r (Config.sideLength v - 7)) (absDiff c (Config.sideLength v - 7)) ≤ 2) :
    alignAt specConfig v r c =
      some (max (absDiff r (Config.sideLength v - 7)) (absDiff c (Config.sideLength v - 7)) != 1) := by
  obtain ⟨h2, h40⟩ := Finset.mem_Icc.1 hv
  have hv := Finset.mem_Icc.2 ⟨Nat.le_of_succ_le h2, h40⟩
  obtain ⟨hspaced, hlen⟩ := alignPos_spaced v hv
  rw [if_pos h2] at hlen
  have hlast : (alignPos v).length - 1 < (alignPos v).length := by omega
  have hpos : (alignPos v)[(alignPos v).length - 1]? = some (Config.sideLength v - 7) := by
    have hplace := (hspaced _ hlast).2.2.1 rfl
    rw [alignPosition, List.getD_eq_getElem _ _ hlast] at hplace
    rw [List.getElem?_eq_getElem hlast]
    congr 1
    omega
  exact alignAt_of_pair hv hpos hpos (alignSkipped_eq_false (by omega) (by omega) (by omega)) (by omega) (by omega)

/-- The finder patterns without their separators, from the top left module of each square (45_matrix_builder.md R203). -/
theorem functionAt_finder_square {v r c : Nat} (hv : v ∈ Finset.Icc 1 40) (hr : r < 7) (hc : c < 7) :
    let d := max (absDiff r 3) (absDiff c 3)
    functionAt specConfig v r c = some (d != 2) ∧ functionAt specConfig v r (Config.sideLength v - 7 + c) = some (d != 2) ∧
      functionAt specConfig v (Config.sideLength v - 7 + r) c = some (d != 2) := by
  intro d
  have hn := sideLength_ge (Finset.mem_Icc.1 hv).1
  have hinside : ∀ {x}, x = d → (x != 2 && x != 4) = (d != 2) := by
    rintro _ rfl
    rw [bne_iff_ne.2 (by simp only [d, absDiff]; omega : d ≠ 4), Bool.and_true]
  obtain ⟨hleft, -, -⟩ := functionAt_finder hv (hr.trans (by decide)) (hc.trans (by decide))
  obtain ⟨-, hright, -⟩ := functionAt_finder (r := r) (c := 6 - c) hv (by omega) (by omega)
  obtain ⟨-, -, hbelow⟩ := functionAt_finder (r := 6 - r) (c := c) hv (by omega) (by omega)
  rw [hinside rfl] at hleft
  rw [hinside (by simp only [d, absDiff]; omega),
    show Config.sideLength v - 1 - (6 - c) = Config.sideLength v - 7 + c by omega] at hright
  rw [hinside (by simp only [d, absDiff]; omega),
    show Config.sideLength v - 1 - (6 - r) = Config.sideLength v - 7 + r by omega] at hbelow
  exact ⟨hleft, hright, hbelow⟩

/-- Settles O49: the invariant keeps the function patterns (`KeepsPatterns`), which are finder patterns at three corners
(`functionAt_finder`) and an alignment pattern at the fourth (`alignAt_last`); none of these is a format module. -/
theorem finderPatternsAtThreeCorners : Obligations.FinderPatternsAtThreeCorners := by
  intro s hs hst n
  obtain ⟨h1, h40, -⟩ := hs.pipe.version (by omega)
  obtain ⟨hsize, -⟩ := hs.pipe.gridSize hst
  obtain ⟨-, hkeeps⟩ := hs.pipe.gridPatterns hst
  have hn : n = Config.sideLength s.pipe.ver.toNat := hsize
  have hge := sideLength_ge h1
  have hv := Finset.mem_Icc.2 ⟨h1, h40⟩
  rw [hn]
  constructor
  · intro r c hr hc d
    obtain ⟨hleft, hright, hbelow⟩ := functionAt_finder_square hv hr hc
    have hkept : ∀ {r c}, r < Config.sideLength s.pipe.ver.toNat → c < Config.sideLength s.pipe.ver.toNat → r ≠ 8 ∧ c ≠ 8 →
        functionAt specConfig s.pipe.ver.toNat r c = some (d != 2) → moduleAt s.pipe.grid r c = (d != 2) :=
      fun hr hc h8 h => hkeeps _ _ _ hr hc h (formatBitAt_eq_none hge hr hc (.inl h8))
    exact ⟨hkept (by omega) (by omega) (by omega) hleft, hkept (by omega) (by omega) (by omega) hright,
      hkept (by omega) (by omega) (by omega) hbelow⟩
  · intro h2 r c h
    have halign := alignAt_last (Finset.mem_Icc.2 ⟨h2, h40⟩) h
    have hclear := alignAt_clear hv (Option.isSome_of_eq_some halign)
    obtain ⟨hr, hc⟩ := lt_of_alignAt hv halign
    refine hkeeps r c _ hr hc (functionAt_align hv hr hc halign) (formatBitAt_eq_none hge hr hc ?_)
    omega

end Sys2Proof.Machine
end

section
/-! PROOFS. The commands of the matrix builder on a running core (45_matrix_builder.md R210 to R224): `FNPAT`, `PLACE`, `MASK`
and `GETM`, each with its whole next state. -/

namespace Sys2Proof.Machine

open Sys2Proof.Reference

/-! ### Words -/

theorem encodeFXY_of_opcode (op : BitVec 8) {pat : Word} (x y : Byte) (hpat : fieldAt 24 op = pat := by decide) :
    encodeFXY op x y = pat ||| (x.setWidth 32 <<< 8) ||| y.setWidth 32 := by
  simp [encodeFXY, ← hpat, fieldAt]

theorem encodeFK_of_opcode (op : BitVec 8) {pat : Word} (auto : Bool) (pattern : BitVec 3)
    (hpat : fieldAt 24 op = pat := by decide) :
    encodeFK op auto pattern = pat ||| ((BitVec.ofBool auto).setWidth 32 <<< 3) ||| pattern.setWidth 32 := by
  simp [encodeFK, ← hpat, fieldAt]

/-- A number that fits the value field is answered in full. -/
theorem respond_ofNat {n : Nat} (h : n < 2 ^ 24) (s : State) :
    respond (BitVec.ofNat 24 n) s = { s with ports := portsAfter s (okResponse n) } := by
  rw [respond_eq, toNat_ofNat_eq h]

/-! ### `FNPAT` and `GETM` -/

section
variable {cfg : Configuration} {s : State}

theorem fnpat_refused (h : s.pipe.stage ≠ 3#3) : fnpat cfg s = errorState s 1 := by
  rw [fnpat, if_pos h, raise_invalidArgument]

/-- `VER` has six bits, so the side length is answered in full. -/
theorem fnpat_draws (hst : s.pipe.stage = 3#3) :
    fnpat cfg s = { s with
      pipe := { s.pipe with
        grid := functionGrid cfg s.pipe.ver.toNat, func := functionMap cfg s.pipe.ver.toNat
        size := BitVec.ofNat 8 (Config.sideLength s.pipe.ver.toNat), stage := 4#3 }
      ports := portsAfter s (okResponse (Config.sideLength s.pipe.ver.toNat)) } := by
  have hver := s.pipe.ver.isLt
  rw [fnpat, if_neg (not_not.2 hst)]
  exact respond_ofNat (by unfold Config.sideLength; omega) _

theorem getm_refused {row col : Byte} (h : s.pipe.size.toNat ≤ row.toNat ∨ s.pipe.size.toNat ≤ col.toNat) :
    getm row col s = errorState s 1 := by
  rw [getm, if_pos h, raise_invalidArgument]

theorem moduleAt_of_getElem? {g : Grid} {row col : Nat} {modules : List Bool} {b : Bool} (hline : g[row]? = some modules)
    (hb : modules[col]? = some b) : moduleAt g row col = b := by
  simp [moduleAt, hline, List.getD, hb]

theorem getm_module {row col : Byte} (hrow : row.toNat < s.pipe.size.toNat) (hcol : col.toNat < s.pipe.size.toNat) :
    getm row col s =
      { s with ports := portsAfter s (okResponse (moduleAt s.pipe.grid row.toNat col.toNat).toNat) } := by
  rw [getm, if_neg (by omega), respond_setWidth (by decide), BitVec.toNat_ofBool]

end

/-- Settles O45: `fnpat_draws` at `STAGE` 3, `fnpat_refused` at every other. -/
theorem fnpatPlacesTheFunctionPatterns : Obligations.FnpatPlacesTheFunctionPatterns := by
  refine ⟨by decide, fun s hrun => ?_⟩
  rw [exec_fnpat_running hrun]
  exact ⟨fun hst => congrArg _ (fnpat_refused hst), fun hst => congrArg _ (fnpat_draws hst)⟩

/-- Settles O56: `getm_module` inside the grid, `getm_refused` outside. -/
theorem getmReadsOneModule : Obligations.GetmReadsOneModule := by
  intro s row col hrun
  rw [exec_getm_running row col hrun]
  refine ⟨encodeFXY_of_opcode 0x63#8 row col, fun modules b hrow hcol hline hb => ?_, fun h => congrArg _ (getm_refused h)⟩
  rw [getm_module hrow hcol, moduleAt_of_getElem? hline hb]

/-! ### `PLACE` -/

section
variable {s : State}

theorem place_refused (h : s.pipe.stage ≠ 4#3) : place s = errorState s 1 := by
  rw [place, if_pos h, raise_invalidArgument]

/-- With a codeword for every eight positions but the last few, the bits are placed and the positions left are answered. -/
theorem place_places (hinv : s.pipe.Inv) (hst : s.pipe.stage = 4#3) {pos : List (Nat × Nat)}
    (hpos : pos = dataPositions s.pipe.size.toNat s.pipe.func)
    (hfit : 8 * s.pipe.olen.toNat ≤ pos.length ∧ pos.length ≤ 8 * s.pipe.olen.toNat + 7) :
    place s = { s with
      pipe := { s.pipe with
        grid := placeBits (gridPart s.pipe.size.toNat s.pipe.grid) pos (bitsOfBytes s.pipe.obuf)
        rem := BitVec.ofNat 3 (pos.length - 8 * s.pipe.olen.toNat), stage := 5#3 }
      ports := portsAfter s (okResponse (pos.length - 8 * s.pipe.olen.toNat)) } := by
  have hcheck : placementMismatch pos.length s.pipe.olen.toNat = false := by
    simp only [placementMismatch, Bool.or_eq_false_iff, decide_eq_false_iff_not]
    omega
  rw [place, if_neg (not_not.2 hst)]
  simp only [← hpos, hcheck, Bool.false_eq_true, if_false, bytesOf_exact hinv.codewordsSize]
  exact respond_ofNat (by omega) _

/-- At `STAGE` 4 the data positions hold the codewords and at most seven bits more (45_matrix_builder.md R213). -/
theorem dataPositions_fit (hinv : s.pipe.Inv) (hst : s.pipe.stage = 4#3) :
    let modules := (dataPositions s.pipe.size.toNat s.pipe.func).length
    8 * s.pipe.olen.toNat ≤ modules ∧ modules ≤ 8 * s.pipe.olen.toNat + 7 := by
  obtain ⟨h1, h40, -⟩ := hinv.version (by simp [hst])
  obtain ⟨hsize, -⟩ := hinv.gridSize (by simp [hst])
  obtain ⟨hfunc, -⟩ := hinv.gridPatterns (by simp [hst])
  have holen := hinv.codewords (by simp [hst])
  rw [hsize, hfunc, holen, dataPositions_length (Finset.mem_Icc.2 ⟨h1, h40⟩), totalCodewords, specConfig_rawModules]
  omega

end

/-- Bit `t` of a codeword sequence (45_matrix_builder.md R212). -/
theorem bitsOfBytes_getElem? {bs : List Byte} {t : Nat} {b : Byte} (h : bs[t / 8]? = some b) :
    (bitsOfBytes bs)[t]? = some (b.getLsbD (7 - t % 8)) := by
  have hbit := (packByte_holdsNumber h).2 (t % 8) (Nat.mod_lt t (by decide))
  rw [Nat.div_add_mod] at hbit
  exact hbit

/-- Settles O50: the positions are distinct and lie in the grid (`zigzag_nodup`, `lt_of_mem_zigzag`), so each holds its bit
(`moduleAt_placeBits_at`); no other module is written (`moduleAt_placeBits_other`). -/
theorem placeWritesTheCodewordBits : Obligations.PlaceWritesTheCodewordBits := by
  refine ⟨by decide, fun s hrun hinv => ?_⟩
  intro n pos bits
  rw [exec_place_running hrun]
  refine ⟨fun hst => congrArg _ (place_refused hst), fun hst => ?_⟩
  have hsize : n = Config.sideLength s.pipe.ver.toNat := (hinv.gridSize (by simp [hst])).1
  have hfit := dataPositions_fit hinv hst
  have hsquare := gridOf_square n (moduleAt s.pipe.grid)
  have hnodup : (dataPositions n s.pipe.func).Nodup := hsize ▸ dataPositions_nodup _ _
  have hinside : ∀ p ∈ dataPositions n s.pipe.func, p.1 < n ∧ p.2 < n := hsize ▸ fun _ => lt_of_mem_dataPositions
  refine ⟨_, congrArg _ (place_places hinv hst rfl hfit), placeBits_square pos _ hsquare, hfit.1, hfit.2,
    fun t r c b ht hp hb => moduleAt_placeBits_at pos _ hsquare hnodup hinside hp (bitsOfBytes_getElem? hb),
    fun r c hr hc hother => ?_⟩
  have hlen : (bitsOfBytes s.pipe.obuf).length = bits := by rw [bitsOfBytes_length, hinv.codewordsSize]
  exact (moduleAt_placeBits_other pos _ _ (hlen.symm ▸ hother)).trans (moduleAt_gridPart _ hr hc)

/-! ### `MASK` -/

section
variable {cfg : Configuration} {s : State}

theorem mask_refused (h : s.pipe.stage ≠ 5#3) (auto : Bool) (pattern : BitVec 3) : mask cfg auto pattern s = errorState s 1 := by
  rw [mask, if_pos h, raise_invalidArgument]

/-- The mask chosen, whoever chooses it, has three bits. -/
theorem chosenMask_lt (auto : Bool) (pattern : BitVec 3) (n : Nat) (g f : Grid) (e : Level) :
    chosenMask cfg auto pattern n g f e < 8 := by
  cases auto with
  | true => exact (automaticMaskHasTheLeastPenalty cfg n g f e).1
  | false => exact pattern.isLt

theorem mask_applies (hst : s.pipe.stage = 5#3) (auto : Bool) (pattern : BitVec 3) {m : Nat}
    (hm : m = chosenMask cfg auto pattern s.pipe.size.toNat s.pipe.grid s.pipe.func (levelOfBits s.pipe.ecl)) :
    mask cfg auto pattern s = { s with
      pipe := { s.pipe with
        grid := trial cfg s.pipe.size.toNat s.pipe.grid s.pipe.func (levelOfBits s.pipe.ecl) m
        mask := BitVec.ofNat 3 m, stage := 6#3 }
      ports := portsAfter s (okResponse m) } := by
  have hlt : m < 8 := hm ▸ chosenMask_lt auto pattern _ _ _ _
  rw [mask, if_neg (not_not.2 hst)]
  simp only [← hm]
  exact respond_ofNat (by omega) _

end

/-- The mask functions are those of the spec's table (45_matrix_builder.md R214). -/
theorem maskFn_eq_maskInverts {k : Nat} (hk : k < 8) (r c : Nat) : maskFn k r c = maskInverts k r c := by
  interval_cases k <;> rfl

section Trial
variable {v r c : Nat}

/-- A data module is no format module. -/
theorem formatBitAt_eq_none_of_data (hv : v ∈ Finset.Icc 1 40) (hr : r < Config.sideLength v) (hc : c < Config.sideLength v)
    (h : moduleAt (functionMap specConfig v) r c = false) : formatBitAt (Config.sideLength v) r c = none := by
  by_contra hformat
  obtain ⟨i, hi⟩ := Option.ne_none_iff_exists'.1 hformat
  rw [moduleAt_functionMap specConfig hr hc, functionAt_format hv hr hc hi] at h
  cases h

/-- Both copies of the format information are written (45_matrix_builder.md R206, R215). -/
theorem moduleAt_trial_copies {n i k : Nat} (hn : 21 ≤ n) (hi : i < 15) (hk : k < 8) (g f : Grid) (e : Level) :
    moduleAt (trial specConfig n g f e k) (formatCopy1 i).1 (formatCopy1 i).2 = (formatCode e k).testBit i ∧
      moduleAt (trial specConfig n g f e k) (formatCopy2 n i).1 (formatCopy2 n i).2 = (formatCode e k).testBit i := by
  obtain ⟨⟨hr1, hc1⟩, hr2, hc2⟩ := formatCopy_lt hn hi
  rw [moduleAt_trial_format specConfig g f e k hr1 hc1 ((formatBitAt_eq_some_iff hn hr1 hc1).2 ⟨hi, .inl rfl⟩),
    moduleAt_trial_format specConfig g f e k hr2 hc2 ((formatBitAt_eq_some_iff hn hr2 hc2).2 ⟨hi, .inr rfl⟩),
    specConfig_formatWord, formatWord_eq_formatCode e k hk]
  exact ⟨rfl, rfl⟩

/-- A module that holds no copy of a format bit is no format module. -/
theorem formatBitAt_eq_none_of_ne {n : Nat} (hn : 21 ≤ n) (hr : r < n) (hc : c < n)
    (h : ∀ i, i < 15 → (r, c) ≠ formatCopy1 i ∧ (r, c) ≠ formatCopy2 n i) : formatBitAt n r c = none := by
  by_contra hformat
  obtain ⟨i, hi⟩ := Option.ne_none_iff_exists'.1 hformat
  obtain ⟨hi, hcopy⟩ := (formatBitAt_eq_some_iff hn hr hc).1 hi
  exact hcopy.elim (h i hi).1 (h i hi).2

end Trial

/-- Settles O51: the mask chosen is below 8 (`chosenMask_lt`), where the tables are the spec's (`formatWord_eq_formatCode`,
`maskFn_eq_maskInverts`); the grid is its trial grid, module by module (`moduleAt_trial_copies`, `moduleAt_trial_data`,
`moduleAt_trial_function`). -/
theorem maskInvertsDataAndWritesFormat : Obligations.MaskInvertsDataAndWritesFormat := by
  intro s auto pattern hrun hinv n
  rw [exec_mask_running auto pattern hrun]
  refine ⟨encodeFK_of_opcode 0x62#8 auto pattern, fun hst => congrArg _ (mask_refused hst auto pattern), fun hst => ?_⟩
  obtain ⟨h1, h40, -⟩ := hinv.version (by simp [hst])
  obtain ⟨hfunc, -⟩ := hinv.gridPatterns (by simp [hst])
  have hsize : n = Config.sideLength s.pipe.ver.toNat := (hinv.gridSize (by simp [hst])).1
  have hv := Finset.mem_Icc.2 ⟨h1, h40⟩
  have hn : 21 ≤ n := (sideLength_ge h1).trans_eq hsize.symm
  have hlt := chosenMask_lt (cfg := specConfig) auto pattern n s.pipe.grid s.pipe.func (levelOfBits s.pipe.ecl)
  refine ⟨_, _, congrArg _ (mask_applies hst auto pattern rfl), ?_, ?_, hlt, trial_square _ _ _ _ _ _,
    fun i hi => moduleAt_trial_copies hn hi hlt _ _ _, fun r c hr hc hdata => ?_, fun r c hr hc hfunction hother => ?_⟩
  · rintro rfl
    rfl
  · rintro rfl
    exact automaticMaskHasTheLeastPenalty specConfig n s.pipe.grid s.pipe.func (levelOfBits s.pipe.ecl)
  · have hformat : formatBitAt n r c = none := by
      rw [hsize] at hr hc ⊢
      exact formatBitAt_eq_none_of_data hv hr hc (hfunc ▸ hdata)
    rw [← maskFn_eq_maskInverts hlt]
    exact moduleAt_trial_data specConfig _ _ hr hc hformat hdata
  · exact moduleAt_trial_function specConfig _ _ hr hc (formatBitAt_eq_none_of_ne hn hr hc hother) hfunction

end Sys2Proof.Machine
end

section
/-! PROOFS. `RESET` and `GETR` in every state, and the symbol that no command changes once it is finished
(46_encode_and_system.md R243 to R245). -/

namespace Sys2Proof.Machine

open Sys2Proof.Reference

/-! ### `RESET` and `GETR` -/

/-- Settles O15: `RESET` is the `rst` input and an answer (`exec_reset`). -/
theorem resetCommandRestoresTheResetState : Obligations.ResetCommandRestoresTheResetState :=
  ⟨by decide, fun s => ⟨exec_reset s, exec_reset s, rfl⟩⟩

/-- The selector table lists the scalar registers in order and nothing else (10_state.md R49). -/
theorem scalarRegisters_getElem? (s : State) (sel : BitVec 16) :
    (scalarRegisters s)[sel.toNat]? = (registerAt s sel).map BitVec.toNat := by
  unfold registerAt
  generalize sel.toNat = k
  match k with
  | 0 | 1 | 2 | 3 | 4 | 5 | 6 | 7 | 8 | 9 | 10 | 11 | 12 | 13 | 14 | 15 | 16 | 17 =>
    simp [scalarRegisters, BitVec.toNat_setWidth_of_le, -BitVec.toNat_setWidth]
  | k + 18 => rfl

/-- Settles O16: the selector table decides between an answer in full and a refusal (`scalarRegisters_getElem?`). -/
theorem getrReadsTheSelectedRegister : Obligations.GetrReadsTheSelectedRegister := by
  intro s sel
  have htable := scalarRegisters_getElem? s sel
  rw [exec_getr, getr]
  refine ⟨encodeFI_of_opcode 0x02#8 sel, fun v hv => ?_, fun hsel => ?_⟩
  · obtain ⟨r, hr, rfl⟩ := Option.map_eq_some_iff.1 (htable.symm.trans hv)
    rw [hr]
    exact congrArg _ (respond_eq r s)
  · have hnone : registerAt s sel = none := Option.map_eq_none_iff.1 (htable.symm.trans (List.getElem?_eq_none hsel))
    rw [hnone]
    exact congrArg _ (raise_invalidArgument s)

/-! ### The finished symbol -/

section
variable {cfg : Configuration} {s : State} {ecl : Level} {minv maxv : BitVec 6} {auto : Bool} {pattern : BitVec 3}

theorem encodeSymbol_refused (h : (s.pipe.stage ≠ 0#3 ∨ s.pipe.nseg ≠ 0#8) ∨ boundsIllegal minv maxv = true) :
    encodeSymbol cfg ecl minv maxv auto pattern s = errorState s 1 := by
  rw [encodeSymbol, raise_invalidArgument]
  rcases h with hfresh | hbounds
  · exact if_pos hfresh
  · rw [if_pos hbounds, ite_self]

/-- A command that is refused leaves the PIPE unit as it was, and so does the gate on `HALT`. -/
theorem whenRunning_pipe_of_refused {body : State → State} (h : body s = errorState s 1) :
    (whenRunning body s).pipe = s.pipe := by
  rcases whenRunning_cases body s with ⟨-, heq⟩ | ⟨-, heq⟩
  · rw [heq, h]
    rfl
  · rw [heq, answerHalted_pipe]

/-- Every command that writes the PIPE unit, `NEWSYM` and `RESET` apart, needs a stage below 6. -/
theorem exec_keeps_pipe_at_stage_six {i : Instr} (hi : writesPipe i = true) (hnewsym : i ≠ .newsym) (hreset : i ≠ .reset)
    (hst : s.pipe.stage = 6#3) : ∃ t, exec i s = .next t ∧ t.pipe = s.pipe := by
  have hne : ∀ k, k ≠ 6#3 → s.pipe.stage ≠ k := fun k hk h => hk (h.symm.trans hst)
  match i, hi with
  | .reset, _ => exact absurd rfl hreset
  | .newsym, _ => exact absurd rfl hnewsym
  | .puti b, _ => exact ⟨_, rfl, whenRunning_pipe_of_refused (puti_refused (hne _ (by decide)) b)⟩
  | .clri, _ => exact ⟨_, rfl, whenRunning_pipe_of_refused (clri_refused (hne _ (by decide)))⟩
  | .seg _, _ => exact ⟨_, rfl, whenRunning_pipe_of_refused (seg_refused (.inl (hne _ (by decide))))⟩
  | .vsel _ _ _, _ => exact ⟨_, rfl, whenRunning_pipe_of_refused (vsel_refused (.inl (hne _ (by decide))))⟩
  | .asm, _ => exact ⟨_, rfl, whenRunning_pipe_of_refused (asm_refused (hne _ (by decide)))⟩
  | .ilv, _ => exact ⟨_, rfl, whenRunning_pipe_of_refused (ilv_refused (hne _ (by decide)))⟩
  | .fnpat, _ => exact ⟨_, rfl, whenRunning_pipe_of_refused (fnpat_refused (hne _ (by decide)))⟩
  | .place, _ => exact ⟨_, rfl, whenRunning_pipe_of_refused (place_refused (hne _ (by decide)))⟩
  | .mask a m, _ => exact ⟨_, rfl, whenRunning_pipe_of_refused (mask_refused (hne _ (by decide)) a m)⟩
  | .encode _ _ _ _ _, _ =>
    exact ⟨_, rfl, whenRunning_pipe_of_refused (encodeSymbol_refused (.inl (.inl (hne _ (by decide)))))⟩

end

/-- Settles O20: what writes the PIPE unit is refused at `STAGE` 6 (`exec_keeps_pipe_at_stage_six`), and what does not write it
keeps it at every stage (`unitsShareNoState`). -/
theorem finishedSymbolIsImmutable : Obligations.FinishedSymbolIsImmutable := by
  intro i s t hst hnewsym hreset h
  cases hi : writesPipe i with
  | true =>
    obtain ⟨u, hu, hpipe⟩ := exec_keeps_pipe_at_stage_six hi hnewsym hreset hst
    obtain rfl : u = t := by simpa using hu.symm.trans h
    exact hpipe
  | false => exact (unitsShareNoState i s t h).2.2.1 hi

end Sys2Proof.Machine
end

section
/-! PROOFS. `ENCODE` and the seven commands it stands for (46_encode_and_system.md R240 to R242): what it commits, and that `SEG
AUTO`, `VSEL`, `ASM`, `ILV`, `FNPAT`, `PLACE` and `MASK` write the same unit one after another. -/

namespace Sys2Proof.Machine

open Sys2Proof.Reference

/-! ### The unit `ENCODE` commits -/

/-- The grid of version `v` with the codewords `o` placed (45_matrix_builder.md R212). -/
def placedGrid (cfg : Configuration) (v : Nat) (o : List Byte) : Grid :=
  placeBits (functionGrid cfg v) (dataPositions (Config.sideLength v) (functionMap cfg v)) (bitsOfBytes o)

/-- The mask of the symbol of version `v` with the codewords `o` (45_matrix_builder.md R223). -/
def symbolMask (cfg : Configuration) (ecl : Level) (auto : Bool) (pattern : BitVec 3) (v : Nat) (o : List Byte) : Nat :=
  chosenMask cfg auto pattern (Config.sideLength v) (placedGrid cfg v o) (functionMap cfg v) ecl

/-- The PIPE unit with the symbol of the one segment `sg` and the data codewords `d` at version `v`. -/
def symbolUnit (cfg : Configuration) (ecl : Level) (auto : Bool) (pattern : BitVec 3) (sg : Segment) (v : Nat)
    (d : List Byte) : PipeUnit :=
  let n := Config.sideLength v
  let o := interleave cfg d v ecl
  let f := functionMap cfg v
  let m := symbolMask cfg ecl auto pattern v o
  { stage := 6#3, ilen := 0#16, ibuf := [], nseg := 1#8, segs := [sg], sbits := sg.blen
    ecl := levelBits ecl, ver := BitVec.ofNat 6 v
    dlen := BitVec.ofNat 12 d.length, dbuf := d, olen := BitVec.ofNat 12 o.length, obuf := o
    rem := BitVec.ofNat 3 ((dataPositions n f).length - 8 * o.length), size := BitVec.ofNat 8 n
    grid := trial cfg n (placedGrid cfg v o) f ecl m, func := f, mask := BitVec.ofNat 3 m }

section
variable {cfg : Configuration} {s : State} {ecl : Level} {minv maxv : BitVec 6} {auto : Bool} {pattern : BitVec 3} {v : Nat}

/-- Version and mask are answered side by side, both in full. -/
theorem encodeCommit_eq (h40 : v ≤ 40) (sg : Segment) (d : List Byte) :
    encodeCommit cfg ecl auto pattern sg v d (dataPositions (Config.sideLength v) (functionMap cfg v)) s =
      { s with
        pipe := symbolUnit cfg ecl auto pattern sg v d
        ports := portsAfter s (okResponse (v * 256 + symbolMask cfg ecl auto pattern v (interleave cfg d v ecl))) } := by
  have hmask : symbolMask cfg ecl auto pattern v (interleave cfg d v ecl) < 8 := chosenMask_lt auto pattern _ _ _ _
  show respond (BitVec.ofNat 24 (v <<< 8 ||| symbolMask cfg ecl auto pattern v (interleave cfg d v ecl)))
    { s with pipe := symbolUnit cfg ecl auto pattern sg v d } = _
  rw [← Nat.shiftLeft_add_eq_or_of_lt (hmask.trans (by decide)), Nat.shiftLeft_eq, respond_ofNat (by omega)]
  rfl

/-- The data modules hold the codewords and at most seven bits more (45_matrix_builder.md R213). -/
theorem TablesAgree.codewords_fit (htab : TablesAgree cfg) (h1 : 1 ≤ v) (h40 : v ≤ 40) :
    let modules := (dataPositions (Config.sideLength v) (functionMap cfg v)).length
    8 * totalCodewords cfg v ≤ modules ∧ modules ≤ 8 * totalCodewords cfg v + 7 := by
  simp only [htab.positions v h1 h40, totalCodewords]
  omega

theorem requiredBits_singleton (cfg : Configuration) (sg : Segment) (v : Nat) :
    requiredBits cfg [sg] v = 4 + cfg.ccbits sg.mode v + sg.blen.toNat := List.sum_singleton

/-- What `assemble` gives is all the data codewords. -/
theorem assemble_length {segs : List Segment} {d : List Byte} (hfits : requiredBits cfg segs v ≤ capacityBits cfg v ecl)
    (hd : assemble cfg segs v ecl = some d) : d.length = dataCodewords cfg v ecl := by
  obtain ⟨d', hd', hlen⟩ := assemble_of_fits hfits
  obtain rfl : d' = d := Option.some.inj (hd'.symm.trans hd)
  exact hlen

variable (hinv : s.pipe.InvFor cfg) (hst : s.pipe.stage = 0#3) (hnseg : s.pipe.nseg = 0#8)
  (hbounds : ¬boundsIllegal minv maxv = true)
include hinv hst hnseg hbounds

/-- Past the first checks `ENCODE` fails where the version scan finds nothing. -/
theorem encodeSymbol_tooLong
    (h : leastVersion cfg [makeSegment cfg .auto s.pipe.ibuf] ecl minv.toNat maxv.toNat = none) :
    encodeSymbol cfg ecl minv maxv auto pattern s = errorState s 2 := by
  rw [encodeSymbol, if_neg (by simp [hst, hnseg]), if_neg hbounds, inputOf_exact hinv.inputSize.1]
  simp only [h, raise_dataTooLong]

/-- A version that is found passes the internal checks (60_exceptions.md R264) and its symbol is committed. -/
theorem encodeSymbol_commits (htab : TablesAgree cfg) {d : List Byte}
    (h : leastVersion cfg [makeSegment cfg .auto s.pipe.ibuf] ecl minv.toNat maxv.toNat = some v)
    (hd : assemble cfg [makeSegment cfg .auto s.pipe.ibuf] v ecl = some d) :
    encodeSymbol cfg ecl minv maxv auto pattern s = { s with
      pipe := symbolUnit cfg ecl auto pattern (makeSegment cfg .auto s.pipe.ibuf) v d
      ports := portsAfter s (okResponse (v * 256 + symbolMask cfg ecl auto pattern v (interleave cfg d v ecl))) } := by
  obtain ⟨h1, h40, hfits⟩ := leastVersion_some hbounds h
  have hcheck := (htab.remainder h1 h40).1
  rw [← (htab.layout v ecl h1 h40).interleave_length (assemble_length hfits hd)] at hcheck
  rw [encodeSymbol, if_neg (by simp [hst, hnseg]), if_neg hbounds, inputOf_exact hinv.inputSize.1]
  simp only [h, hd, hcheck, Bool.false_eq_true, if_false]
  exact encodeCommit_eq h40 _ d

end

/-- Settles O57: the scan's result (`leastVersion_eq_none_iff`, `leastVersion_eq_some_iff`) decides between
`encodeSymbol_tooLong` and `encodeSymbol_commits`; a stage, a store or bounds out of order come before
(`encodeSymbol_refused`). -/
theorem encodeFinishesTheSymbol : Obligations.EncodeFinishesTheSymbol := by
  intro s ecl minv maxv auto pattern hrun hs
  dsimp only
  rw [exec_encode_running ecl minv maxv auto pattern hrun]
  refine ⟨encodeFV_of_opcode 0x70#8 _ minv maxv auto pattern, fun hfresh => congrArg _ (encodeSymbol_refused (.inl hfresh)),
    fun hbounds => ?_, fun hst hnseg hmin hle hmax hnone => ?_, fun hst hnseg hmin hmax v hlo hhi hfits hleast => ?_⟩
  · exact congrArg _ (encodeSymbol_refused (.inr ((boundsIllegal_iff minv maxv).2 hbounds)))
  · have hbounds : ¬boundsIllegal minv maxv = true := by rw [boundsIllegal_iff]; omega
    refine congrArg _ (encodeSymbol_tooLong hs.pipe hst hnseg hbounds (leastVersion_eq_none_iff.2 ?_))
    simpa only [requiredBits_singleton, capacityBits, specConfig_ccbits] using hnone
  · have hbounds : ¬boundsIllegal minv maxv = true := by rw [boundsIllegal_iff]; omega
    have hv : leastVersion specConfig [makeSegment specConfig .auto s.pipe.ibuf] ecl minv.toNat maxv.toNat = some v := by
      rw [leastVersion_eq_some_iff]
      simp only [requiredBits_singleton]
      exact ⟨⟨hlo, hhi⟩, hfits, hleast⟩
    obtain ⟨h1, h40, hroom⟩ := leastVersion_some hbounds hv
    obtain ⟨d, hd, hlen⟩ := assemble_of_fits hroom
    obtain ⟨hleft, hright⟩ := specConfig_tablesAgree.codewords_fit h1 h40
    rw [← (specConfig_tablesAgree.layout v ecl h1 h40).interleave_length hlen] at hleft hright
    exact ⟨d, hd, chosenMask_lt auto pattern _ _ _ _, hleft, hright,
      congrArg _ (encodeSymbol_commits hs.pipe hst hnseg hbounds specConfig_tablesAgree hv hd)⟩

/-! ### Commands that succeed one after another -/

/-- On every running core in the invariant, `i` makes `q` of the PIPE unit `p`, answers with status 0 and changes nothing
else. -/
def Performs (i : Instr) (p q : PipeUnit) : Prop :=
  ∀ s : State, s.Inv → s.halt = 0#1 → s.pipe = p →
    ∃ n < 2 ^ 24, exec i s = .next { s with pipe := q, ports := portsAfter s (okResponse n) }

/-- The commands make `q` of `p` one after another, each as `Performs` says. -/
inductive PerformsAll : List Instr → PipeUnit → PipeUnit → Prop
  | nil (p : PipeUnit) : PerformsAll [] p p
  | cons {i : Instr} {is : List Instr} {p p' q : PipeUnit} (head : Performs i p p') (tail : PerformsAll is p' q) :
      PerformsAll (i :: is) p q

theorem exec_keepsFrom {i : Instr} {s t : State} (hs : s.Inv) (h : exec i s = .next t) : KeepsFrom specConfig s t := by
  obtain ⟨u, hu, hkeeps⟩ := execWith_keepsFrom specCapacities_legal specConfig_tablesAgree hs i
  rw [execWith_specConfig, h] at hu
  cases hu
  exact hkeeps

theorem statusOf_okResponse {n : Nat} (h : n < 2 ^ 24) : statusOf (okResponse n) = 0 := by
  rw [statusOf, okResponse, toNat_ofNat_eq (by omega)]
  omega

theorem PerformsAll.runCommands_succeeds {is : List Instr} {p q : PipeUnit} (h : PerformsAll is p q) :
    ∀ s : State, s.Inv → s.halt = 0#1 → s.pipe = p →
      ∃ ws, runCommands is s =
          .next { s with pipe := q, ports := { cmds := s.ports.cmds, rsps := s.ports.rsps ++ ws } } ∧
        ws.length = is.length ∧ ∀ w ∈ ws, statusOf w = 0 := by
  induction h with
  | nil p =>
    rintro s - - rfl
    exact ⟨[], by simp [runCommands], rfl, by simp⟩
  | cons head tail ih =>
    intro s hs hrun hp
    obtain ⟨n, hn, hexec⟩ := head s hs hrun hp
    obtain ⟨hs', hrun'⟩ := exec_keepsFrom hs hexec
    obtain ⟨ws, hws, hlen, hstatus⟩ := ih _ hs' (hrun' hrun) rfl
    refine ⟨okResponse n :: ws, ?_, congrArg (· + 1) hlen, List.forall_mem_cons.2 ⟨statusOf_okResponse hn, hstatus⟩⟩
    simpa [runCommands, hexec, portsAfter] using hws

/-! ### The seven commands -/

/-- The unit once the input is stored as the one segment `sg`. -/
def oneSegment (p : PipeUnit) (sg : Segment) : PipeUnit :=
  { p with ilen := 0#16, ibuf := [], nseg := 1#8, segs := [sg], sbits := sg.blen }

section
variable {p : PipeUnit} {v : Nat} {e : Level}

/-- An empty store holds any input as one segment (00_scope.md R7). -/
theorem PipeUnit.InvFor.blen_le_sbitCap {cfg : Configuration} (hcap : cfg.capacities.Legal) (hinv : p.InvFor cfg)
    (req : ModeRequest) : (makeSegment cfg req p.ibuf).blen.toNat ≤ cfg.capacities.sbitCap := by
  obtain ⟨hlen, hilen⟩ := hinv.inputSize
  obtain ⟨-, -, hstore⟩ := hcap.sbitCap
  have hbytes := payloadLen_le (resolveMode req p.ibuf) p.ibuf.length
  rw [makeSegment_blen cfg req (hlen ▸ p.ilen.isLt)]
  omega

theorem PipeUnit.InvFor.sbits_of_nseg_zero {cfg : Configuration} (hinv : p.InvFor cfg) (hnseg : p.nseg = 0#8) :
    p.sbits = 0#24 := by
  have hsegs : p.segs = [] := List.length_eq_zero_iff.1 (hinv.storeSize.1.trans (congrArg BitVec.toNat hnseg))
  exact BitVec.eq_of_toNat_eq (by rw [hinv.storeBits.1, hsegs]; rfl)

theorem performs_seg_auto (hst : p.stage = 0#3) (hnseg : p.nseg = 0#8) :
    Performs (.seg .auto) p (oneSegment p (makeSegment specConfig .auto p.ibuf)) := by
  rintro s hs hrun rfl
  have hmode : (makeSegment specConfig .auto s.pipe.ibuf).mode.toNat < 2 ^ 4 := BitVec.isLt _
  have hsbits := hs.pipe.sbits_of_nseg_zero hnseg
  have hroom := hs.pipe.blen_le_sbitCap specCapacities_legal .auto
  refine ⟨_, hmode.trans (by decide), (exec_seg_running .auto hrun).trans (congrArg _ ?_)⟩
  rw [seg, if_neg (not_not.2 hst), if_neg (by simp [hnseg]), inputOf_exact hs.pipe.inputSize.1, hsbits,
    if_neg (by simpa using hroom), respond_setWidth (by decide), segmentsOf_of_nseg_zero hnseg, hnseg, BitVec.zero_add,
    BitVec.zero_add]
  rfl

theorem performs_vsel (hst : p.stage = 0#3) {minv maxv : BitVec 6} (hbounds : ¬boundsIllegal minv maxv = true)
    (h : leastVersion specConfig p.segs e minv.toNat maxv.toNat = some v) :
    Performs (.vsel e minv maxv) p { p with ver := BitVec.ofNat 6 v, ecl := levelBits e, stage := 1#3 } := by
  rintro s hs hrun rfl
  obtain ⟨-, h40, -⟩ := leastVersion_some hbounds h
  exact ⟨v, by omega, (exec_vsel_running e minv maxv hrun).trans (congrArg _ (vsel_selects hs.pipe hst hbounds h))⟩

variable (hv : p.ver.toNat = v) (he : levelOfBits p.ecl = e)

include hv he in
theorem performs_asm (hst : p.stage = 1#3) {d : List Byte} (hd : assemble specConfig p.segs v e = some d)
    (hlen : d.length = dataCodewords specConfig v e) :
    Performs .asm p { p with dbuf := d, dlen := BitVec.ofNat 12 d.length, stage := 2#3 } := by
  rintro s hs hrun rfl
  obtain ⟨h1, h40, -⟩ := hs.pipe.version (by simp [hst])
  have hlt := specConfig_tablesAgree.dataCodewords_lt h1 h40 (levelOfBits s.pipe.ecl)
  subst hv he
  refine ⟨_, hlt.trans (by decide), ?_⟩
  rw [exec_asm_running hrun, asm_stores specConfig_tablesAgree hs.pipe hst hd, hlen]

include hv he in
theorem performs_ilv (hst : p.stage = 2#3) :
    Performs .ilv p { p with
      obuf := interleave specConfig p.dbuf v e
      olen := BitVec.ofNat 12 (interleave specConfig p.dbuf v e).length, stage := 3#3 } := by
  rintro s hs hrun rfl
  obtain ⟨h1, h40, -⟩ := hs.pipe.version (by simp [hst])
  have hlt := specConfig_tablesAgree.total _ h1 h40
  subst hv he
  have hlen := (specConfig_tablesAgree.layout _ (levelOfBits s.pipe.ecl) h1 h40).interleave_length
    (hs.pipe.dataSize.trans (hs.pipe.data (by simp [hst])))
  refine ⟨_, hlt.trans (by decide), ?_⟩
  rw [exec_ilv_running hrun, ilv_stores specConfig_tablesAgree hs.pipe hst, hlen]

include hv in
theorem performs_fnpat (hst : p.stage = 3#3) :
    Performs .fnpat p { p with
      grid := functionGrid specConfig v, func := functionMap specConfig v
      size := BitVec.ofNat 8 (Config.sideLength v), stage := 4#3 } := by
  rintro s hs hrun rfl
  obtain ⟨-, h40, -⟩ := hs.pipe.version (by simp [hst])
  subst hv
  exact ⟨_, (sideLength_lt h40).trans (by decide), (exec_fnpat_running hrun).trans (congrArg _ (fnpat_draws hst))⟩

theorem performs_place (hst : p.stage = 4#3) :
    Performs .place p { p with
      grid := placeBits (gridPart p.size.toNat p.grid) (dataPositions p.size.toNat p.func) (bitsOfBytes p.obuf)
      rem := BitVec.ofNat 3 ((dataPositions p.size.toNat p.func).length - 8 * p.olen.toNat), stage := 5#3 } := by
  rintro s hs hrun rfl
  have hfit := dataPositions_fit hs.pipe hst
  refine ⟨_, ?_, (exec_place_running hrun).trans (congrArg _ (place_places hs.pipe hst rfl hfit))⟩
  omega

include he in
theorem performs_mask (hst : p.stage = 5#3) (auto : Bool) (pattern : BitVec 3) {m : Nat}
    (hm : m = chosenMask specConfig auto pattern p.size.toNat p.grid p.func e) :
    Performs (.mask auto pattern) p { p with
      grid := trial specConfig p.size.toNat p.grid p.func e m, mask := BitVec.ofNat 3 m, stage := 6#3 } := by
  rintro s - hrun rfl
  subst he
  have hlt : m < 8 := hm ▸ chosenMask_lt auto pattern _ _ _ _
  exact ⟨m, by omega, (exec_mask_running auto pattern hrun).trans (congrArg _ (mask_applies hst auto pattern hm))⟩

end

theorem gridPart_functionGrid (cfg : Configuration) (v : Nat) :
    gridPart (Config.sideLength v) (functionGrid cfg v) = functionGrid cfg v :=
  List.map_congr_left fun _ hr => List.map_congr_left fun _ hc =>
    moduleAt_gridOf _ (List.mem_range.1 hr) (List.mem_range.1 hc)

section
variable {p : PipeUnit} {ecl : Level} {minv maxv : BitVec 6} {v : Nat} {d : List Byte}

/-- The seven commands write the unit that `ENCODE` commits, field by field (46_encode_and_system.md R242). Each `dsimp only`
brings the unit so far to one flat record, which the next command's rule reads. -/
theorem performsAll_symbolUnit (hst : p.stage = 0#3) (hnseg : p.nseg = 0#8) (hbounds : ¬boundsIllegal minv maxv = true)
    (h : leastVersion specConfig [makeSegment specConfig .auto p.ibuf] ecl minv.toNat maxv.toNat = some v)
    (hd : assemble specConfig [makeSegment specConfig .auto p.ibuf] v ecl = some d) (auto : Bool) (pattern : BitVec 3) :
    PerformsAll [.seg .auto, .vsel ecl minv maxv, .asm, .ilv, .fnpat, .place, .mask auto pattern] p
      (symbolUnit specConfig ecl auto pattern (makeSegment specConfig .auto p.ibuf) v d) := by
  obtain ⟨h1, h40, hfits⟩ := leastVersion_some hbounds h
  have hlen := assemble_length hfits hd
  have hv : (BitVec.ofNat 6 v).toNat = v := toNat_ofNat_eq (by omega)
  have hn : (BitVec.ofNat 8 (Config.sideLength v)).toNat = Config.sideLength v := toNat_ofNat_eq (sideLength_lt h40)
  have ho : (BitVec.ofNat 12 (interleave specConfig d v ecl).length).toNat = (interleave specConfig d v ecl).length := by
    rw [(specConfig_tablesAgree.layout v ecl h1 h40).interleave_length hlen]
    exact toNat_ofNat_eq (specConfig_tablesAgree.total v h1 h40)
  have he := levelOfBits_levelBits ecl
  refine .cons (performs_seg_auto hst hnseg) ?_
  refine .cons (performs_vsel (p := oneSegment p _) hst hbounds h) ?_
  dsimp only [oneSegment]
  refine .cons (performs_asm hv he rfl hd hlen) ?_
  dsimp only
  refine .cons (performs_ilv hv he rfl) ?_
  dsimp only
  refine .cons (performs_fnpat hv rfl) ?_
  dsimp only
  refine .cons (performs_place rfl) ?_
  dsimp only
  refine .cons (performs_mask he rfl auto pattern rfl) ?_
  dsimp only
  rw [hn, ho, gridPart_functionGrid]
  exact .nil _

end

/-- An error that `VSEL` raises on the unit with the whole input as one segment is raised after `SEG AUTO`. -/
theorem vsel_fails_after_seg_auto {s : State} {code : Nat} (hs : s.Inv) (hrun : s.halt = 0#1) (hst : s.pipe.stage = 0#3)
    (hnseg : s.pipe.nseg = 0#8) {ecl : Level} {minv maxv : BitVec 6}
    (h : ∀ u : State, u.Inv → u.pipe = oneSegment s.pipe (makeSegment specConfig .auto s.pipe.ibuf) →
      vsel specConfig ecl minv maxv u = errorState u code) :
    ∃ u, exec (.seg .auto) s = .next u ∧ u.pipe.nseg = 1#8 ∧ u.pipe.ilen = 0#16 ∧
      exec (.vsel ecl minv maxv) u = .next (errorState u code) := by
  obtain ⟨n, -, hseg⟩ := performs_seg_auto hst hnseg s hs hrun rfl
  obtain ⟨hinv, hrun'⟩ := exec_keepsFrom hs hseg
  exact ⟨_, hseg, rfl, rfl, (exec_vsel_running ecl minv maxv (hrun' hrun)).trans (congrArg _ (h _ hinv rfl))⟩

/-- Settles O58: past the checks of `ENCODE`'s stage and store its bounds and its scan are those of `VSEL` after `SEG AUTO`
(`vsel_fails_after_seg_auto`), and where they pass, both write `symbolUnit` (`performsAll_symbolUnit`). -/
theorem encodeEqualsTheSevenCommands : Obligations.EncodeEqualsTheSevenCommands := by
  intro s t ecl minv maxv auto pattern hs hrun hst hnseg ht
  obtain rfl : encodeSymbol specConfig ecl minv maxv auto pattern s = t := by
    simpa using (exec_encode_running ecl minv maxv auto pattern hrun).symm.trans ht
  have hstage : s.pipe.stage ≠ 6#3 := by simp [hst]
  by_cases hbounds : boundsIllegal minv maxv = true
  · rw [encodeSymbol_refused (.inr hbounds)]
    obtain ⟨u, hu⟩ := vsel_fails_after_seg_auto hs hrun hst hnseg fun _ _ _ => vsel_refused (.inr hbounds)
    exact ⟨fun h => absurd h hstage, fun _ => ⟨u, 1, .inl rfl, rfl, hu⟩⟩
  cases h : leastVersion specConfig [makeSegment specConfig .auto s.pipe.ibuf] ecl minv.toNat maxv.toNat with
  | none =>
    rw [encodeSymbol_tooLong hs.pipe hst hnseg hbounds h]
    obtain ⟨u, hu⟩ := vsel_fails_after_seg_auto hs hrun hst hnseg fun u hinv hp =>
      vsel_tooLong hinv.pipe (by rw [hp]; exact hst) hbounds (by rw [hp]; exact h)
    exact ⟨fun h => absurd h hstage, fun _ => ⟨u, 2, .inr rfl, rfl, hu⟩⟩
  | some v =>
    obtain ⟨-, -, hfits⟩ := leastVersion_some hbounds h
    obtain ⟨d, hd, -⟩ := assemble_of_fits hfits
    rw [encodeSymbol_commits hs.pipe hst hnseg hbounds specConfig_tablesAgree h hd]
    obtain ⟨ws, hws, hlen, hstatus⟩ :=
      (performsAll_symbolUnit hst hnseg hbounds h hd auto pattern).runCommands_succeeds s hs hrun rfl
    exact ⟨fun _ => ⟨_, ws, hws, rfl, rfl, rfl, rfl, rfl, rfl, hlen, hstatus⟩, fun h => absurd rfl h⟩

end Sys2Proof.Machine
end

section
/-! PROOFS. Steps, errors and the halted core (60_exceptions.md R264 to R268, R276). -/

namespace Sys2Proof.Machine

open Sys2Proof.Reference

/-! ### Running cores -/

/-- Settles O10: command by command no internal check fails in a state of the invariant (`stepWith_keepsFrom`). -/
theorem noStepHaltsARunningCore : Obligations.NoStepHaltsARunningCore := fun s _ hs hrun hstep =>
  (stepWith_keepsFrom specCapacities_legal specConfig_tablesAgree hs ((stepWith_specConfig s).trans hstep)).2 hrun

/-- Settles O1: `step_command` on a word that decodes, `step_idle` on an empty port. -/
theorem stepRunsTheCommandAtThePort : Obligations.StepRunsTheCommandAtThePort := fun _ =>
  ⟨fun _ _ _ hw hd => step_command hw hd, step_idle⟩

/-! ### Words that are no command -/

theorem decode_error_of_not_isCommandWord {w : Word} (h : isCommandWord w = false) : ∃ e, decode w = .error e := by
  cases hd : decode w with
  | error e => exact ⟨e, rfl⟩
  | ok i => simpa [h] using (commandWordsAreTheOpcodeMap w).1 ⟨i, hd⟩

/-- Settles O2: the decoder refuses what the opcode map does not list (`commandWordsAreTheOpcodeMap`), and the gate on `HALT`
decides between IllegalCommand and the answer of a halted core. -/
theorem illegalWordRaisesIllegalCommand : Obligations.IllegalWordRaisesIllegalCommand := by
  intro s w rest hw hnone
  obtain ⟨e, hd⟩ := decode_error_of_not_isCommandWord hnone
  rw [step_illegal hw hd]
  refine ⟨fun hrun => congrArg _ ?_, fun hhalt => congrArg _ (illegalWord_halted (s := s.withCommands rest) hhalt)⟩
  exact (illegalWord_running (s := s.withCommands rest) hrun).trans (errorState_statusCode .illegalCommand _).2

/-! ### The halted core -/

/-- Every command but `RESET` and `GETR` is behind the gate on `HALT` (60_exceptions.md R268). -/
theorem exec_gated {i : Instr} (hreset : i ≠ .reset) (hgetr : ∀ sel, i ≠ .getr sel) :
    ∃ body : State → State, ∀ s, exec i s = .next (whenRunning body s) := by
  cases i with
  | reset => exact absurd rfl hreset
  | getr sel => exact absurd rfl (hgetr sel)
  | gfmul | rsinit | rsrem | putr | clrr | gete | getg | newsym | puti | clri | seg | getseg | getsb | vsel | asm | ilv
  | getd | geto | fnpat | place | mask | getm | encode => exact ⟨_, fun _ => rfl⟩

theorem getrWord_of_decode {w : Word} {sel : BitVec 16} (h : decode w = .ok (.getr sel)) :
    w &&& 0xFFFF0000#32 = 0x02000000#32 := by
  obtain ⟨-, rfl⟩ := everyCommandHasOneWord w _ h
  exact (maskedBits_encodeFI _ sel).trans (by decide : fieldAt 24 0x02#8 = 0x02000000#32)

theorem step_halted {s : State} {w : Word} {rest : List Word} (hhalt : s.halt = 1#1) (hw : s.ports.cmds = w :: rest)
    (hreset : w ≠ 0x01000000#32) (hgetr : w &&& 0xFFFF0000#32 ≠ 0x02000000#32) :
    step s = .next (answerHalted (s.withCommands rest)) := by
  cases hd : decode w with
  | error e => rw [step_illegal hw hd, illegalWord_halted (s := s.withCommands rest) hhalt]
  | ok i =>
    have hi : i ≠ .reset := fun h => hreset (eq_resetWord_of_decode (h ▸ hd))
    have hi' : ∀ sel, i ≠ .getr sel := fun _ h => hgetr (getrWord_of_decode (h ▸ hd))
    obtain ⟨body, hbody⟩ := exec_gated hi hi'
    rw [step_command hw hd, hbody, whenRunning_halted (s := s.withCommands rest) hhalt]

/-- Settles O11: no word but those of `RESET` and `GETR` passes the gate (`step_halted`), and these two decode. -/
theorem haltedCoreAnswersInternalInvariant : Obligations.HaltedCoreAnswersInternalInvariant := by
  intro s w rest hhalt hw
  refine ⟨step_halted hhalt hw, ?_, ?_⟩
  · rintro rfl
    exact step_command hw (decodeInvertsEncode .reset rfl)
  · rintro sel rfl
    have hword : encode (.getr sel) = 0x02000000#32 ||| sel.setWidth 32 := encodeFI_of_opcode 0x02#8 sel
    exact step_command hw (hword ▸ decodeInvertsEncode (.getr sel) rfl)

/-! ### The internal checks that fail -/

section
variable {cfg : Configuration} {s : State}

theorem raise_internalInvariant (s : State) : raise .internalInvariant s = errorState s 3 :=
  (errorState_statusCode .internalInvariant s).2

theorem asm_overlong (hst : s.pipe.stage = 1#3)
    (h : 8 * dataCodewords cfg s.pipe.ver.toNat (levelOfBits s.pipe.ecl) <
      (streamOf cfg (segmentsOf s.pipe) s.pipe.ver.toNat).length) : asm cfg s = errorState s 3 := by
  have hnone : assemble cfg (segmentsOf s.pipe) s.pipe.ver.toNat (levelOfBits s.pipe.ecl) = none := if_pos h
  rw [asm, if_neg (not_not.2 hst), hnone, raise_internalInvariant]

theorem ilv_wrongLength (hst : s.pipe.stage = 2#3)
    (h : s.pipe.dlen.toNat ≠ dataCodewords cfg s.pipe.ver.toNat (levelOfBits s.pipe.ecl)) : ilv cfg s = errorState s 3 := by
  rw [ilv, if_neg (not_not.2 hst), if_pos h, raise_internalInvariant]

theorem placementMismatch_iff (positions codewords : Nat) :
    placementMismatch positions codewords = true ↔ positions < 8 * codewords ∨ 8 * codewords + 7 < positions := by
  rw [placementMismatch, Bool.or_eq_true, decide_eq_true_iff, decide_eq_true_iff]
  omega

theorem place_mismatch (hst : s.pipe.stage = 4#3)
    (h : placementMismatch (dataPositions s.pipe.size.toNat s.pipe.func).length s.pipe.olen.toNat = true) :
    place s = errorState s 3 := by
  rw [place, if_neg (not_not.2 hst)]
  simp only [h, if_true, raise_internalInvariant]

end

/-- Settles O14: `asm_overlong`, `ilv_wrongLength`, `place_mismatch`. -/
theorem failedInternalChecksHaltTheCore : Obligations.FailedInternalChecksHaltTheCore := by
  intro s hrun
  rw [exec_asm_running hrun, exec_ilv_running hrun, exec_place_running hrun]
  exact ⟨fun hst h => congrArg _ (asm_overlong hst h), fun hst h => congrArg _ (ilv_wrongLength hst h),
    fun hst h => congrArg _ (place_mismatch hst ((placementMismatch_iff _ _).2 h))⟩

end Sys2Proof.Machine
end

section
/-! PROOFS. Reset and hazards (70_reset_and_hazards.md R290 to R296): cores that agree on `HALT` and the PIPE unit go on
agreeing on both, whatever the words, and the RS unit and the PIPE unit are written independently of each other. -/

namespace Sys2Proof.Machine

open Sys2Proof.Reference

/-- Settles O7: the reset state is written out. -/
theorem resetZeroesEveryScalarRegister : Obligations.ResetZeroesEveryScalarRegister := rfl

/-! ### What leaves a register as it was -/

section
variable {i : Instr} {s t : State}

theorem exec_keeps_res (hi : writesGf i = false) (h : exec i s = .next t) : t.res = s.res := by
  obtain ⟨e, he, rfl⟩ := exec_effect h
  exact he.res_eq hi

theorem exec_keeps_rs (hi : writesRs i = false) (h : exec i s = .next t) : t.rs = s.rs := by
  obtain ⟨e, he, rfl⟩ := exec_effect h
  exact he.rs_eq hi

theorem exec_keeps_pipe (hi : writesPipe i = false) (h : exec i s = .next t) : t.pipe = s.pipe := by
  obtain ⟨e, he, rfl⟩ := exec_effect h
  exact he.pipe_eq hi

theorem halt_unless {c : Prop} [Decidable c] (h : t.halt = s.halt) :
    (if c then raise .invalidArgument s else t).halt = s.halt := by
  split
  · rfl
  · exact h

theorem halt_whenRunning {body : State → State} (h : (body s).halt = s.halt) : (whenRunning body s).halt = s.halt := by
  rcases whenRunning_cases body s with ⟨-, heq⟩ | ⟨-, heq⟩
  · rw [heq, h]
  · rw [heq, answerHalted_halt]

/-- No check of a command outside the PIPE unit is an internal one (60_exceptions.md R264). -/
theorem exec_keeps_halt (hi : writesPipe i = false) (h : exec i s = .next t) : t.halt = s.halt := by
  suffices hkeeps : ∃ u, exec i s = .next u ∧ u.halt = s.halt by
    obtain ⟨u, hu, hhalt⟩ := hkeeps
    obtain rfl := Host.Outcome.next.inj (hu.symm.trans h)
    exact hhalt
  cases hread : isRead i with
  | true =>
    obtain ⟨u, hu, hout⟩ := exec_readOutcome hread s
    exact ⟨u, hu, hout.sameUnits.halt⟩
  | false =>
    match i, hi, hread with
    | .gfmul _ _, _, _ | .clrr, _, _ => exact ⟨_, rfl, halt_whenRunning rfl⟩
    | .rsinit _, _, _ | .putr _, _, _ => exact ⟨_, rfl, halt_whenRunning (halt_unless rfl)⟩
    | .rsrem, _, _ => exact ⟨_, rfl, halt_whenRunning (halt_unless (halt_unless rfl))⟩

end

/-! ### Cores that agree on `HALT` and the PIPE unit -/

section
variable {i : Instr} {s s' : State}

theorem isPipeCommand_or_eq_reset_of_writesPipe (hi : writesPipe i = true) : isPipeCommand i = true ∨ i = .reset :=
  match i, hi with
  | .reset, _ => .inr rfl
  | .newsym, _ | .puti _, _ | .clri, _ | .seg _, _ | .vsel _ _ _, _ | .asm, _ | .ilv, _ | .fnpat, _ | .place, _
  | .mask _ _, _ | .encode _ _ _ _ _, _ => .inl rfl

/-- A command leaves the agreement on `HALT` and the PIPE unit: it writes the unit in both cores alike, or not at all. -/
theorem exec_keeps_agreement (hhalt : s'.halt = s.halt) (hpipe : s'.pipe = s.pipe) {t t' : State}
    (h : exec i s = .next t) (h' : exec i s' = .next t') : t'.halt = t.halt ∧ t'.pipe = t.pipe := by
  cases hi : writesPipe i with
  | false =>
    exact ⟨((exec_keeps_halt hi h').trans hhalt).trans (exec_keeps_halt hi h).symm,
      ((exec_keeps_pipe hi h').trans hpipe).trans (exec_keeps_pipe hi h).symm⟩
  | true =>
    have halike : ReadsAlike i s s' := by
      rcases isPipeCommand_or_eq_reset_of_writesPipe hi with hi | rfl
      · exact .of_isPipeCommand hi hhalt hpipe
      · exact .of_writesGf rfl hhalt
    obtain ⟨e, rfl, rfl⟩ := halike.effect h h'
    exact ⟨e.apply_halt_congr hhalt, e.apply_pipe_congr hpipe⟩

theorem illegalWord_sameEffect (hhalt : s'.halt = s.halt) : SameEffect i s s' (illegalWord s) (illegalWord s') :=
  sameEffect_whenRunning hhalt (sameEffect_raise .illegalCommand)

/-- `i` gives one response in both cores. -/
def SameResponse (i : Instr) (s s' : State) : Prop :=
  ∃ t t' w, exec i s = .next t ∧ exec i s' = .next t' ∧ t.ports = portsAfter s w ∧ t'.ports = portsAfter s' w

theorem SameResponse.ports (h : SameResponse i s s') {t t' : State} (ht : exec i s = .next t) (ht' : exec i s' = .next t') :
    ∃ w, t.ports = portsAfter s w ∧ t'.ports = portsAfter s' w := by
  obtain ⟨a, a', w, ha, ha', hw⟩ := h
  obtain rfl := Host.Outcome.next.inj (ha.symm.trans ht)
  obtain rfl := Host.Outcome.next.inj (ha'.symm.trans ht')
  exact ⟨w, hw⟩

theorem ReadsAlike.sameResponse (h : ReadsAlike i s s') : SameResponse i s s' := by
  obtain ⟨e, -, hs, hs'⟩ := exec_sameEffect h
  exact ⟨_, _, e.response, hs, hs', e.apply_ports s, e.apply_ports s'⟩

/-- A command whose response its operands decide, behind the gate on `HALT`. -/
theorem sameResponse_of_gated (hhalt : s'.halt = s.halt) {body : State → State}
    (hexec : ∀ u, exec i u = .next (whenRunning body u)) (hbody : ∃ w, ∀ u, (body u).ports = portsAfter u w) :
    SameResponse i s s' := by
  obtain ⟨w, hw⟩ := hbody
  rcases halt_cases s with hrun | hhalted
  · refine ⟨_, _, w, hexec s, hexec s', ?_, ?_⟩
    · rw [whenRunning_running hrun, hw]
    · rw [whenRunning_running (hhalt.trans hrun), hw]
  · refine ⟨_, _, errWord .internalInvariant, hexec s, hexec s', ?_, ?_⟩
    · rw [whenRunning_halted hhalted]
      rfl
    · rw [whenRunning_halted (hhalt.trans hhalted)]
      rfl

theorem rsinit_response (idx : BitVec 16) : ∃ w, ∀ u, (rsinit idx u).ports = portsAfter u w := by
  by_cases hidx : idx.toNat < 1 ∨ 255 < idx.toNat
  · exact ⟨errWord .invalidArgument, fun u => by rw [rsinit, if_pos hidx]; rfl⟩
  · exact ⟨okWord (idx.setWidth 24), fun u => by rw [rsinit, if_neg hidx]; rfl⟩

/-- The selectors that `answersAlike` lets in read `HALT`, the PIPE unit or nothing (10_state.md R49). -/
theorem registerAt_eq_of_answersAlike (hhalt : s'.halt = s.halt) (hpipe : s'.pipe = s.pipe) {sel : BitVec 16}
    (hsel : answersAlike (.getr sel) = true) : registerAt s' sel = registerAt s sel := by
  have hleft : sel.toNat ∉ [0, 2, 3, 4, 5, 6] := by
    have hnot : (!([0, 2, 3, 4, 5, 6].contains sel.toNat)) = true := hsel
    rwa [Bool.not_eq_true', List.contains_eq_mem, decide_eq_false_iff_not] at hnot
  unfold registerAt
  rw [hhalt, hpipe]
  split
  case h_1 h | h_3 h | h_4 h | h_5 h | h_6 h | h_7 h => exact absurd (by rw [h]; decide) hleft
  all_goals rfl

theorem exec_sameResponse (hhalt : s'.halt = s.halt) (hpipe : s'.pipe = s.pipe) (hi : answersAlike i = true) :
    SameResponse i s s' := by
  cases hp : isPipeCommand i with
  | true => exact (ReadsAlike.of_isPipeCommand hp hhalt hpipe).sameResponse
  | false =>
    match i, hi, hp with
    | .reset, _, _ | .gfmul _ _, _, _ => exact (ReadsAlike.of_writesGf rfl hhalt).sameResponse
    | .rsinit idx, _, _ => exact sameResponse_of_gated hhalt (fun _ => rfl) (rsinit_response idx)
    | .clrr, _, _ => exact sameResponse_of_gated hhalt (fun _ => rfl) ⟨okWord 0, fun _ => rfl⟩
    | .getr sel, hi, _ =>
      obtain ⟨e, -, hs, hs'⟩ := getr_sameEffect_of_registerAt_eq (i := .getr sel)
        (registerAt_eq_of_answersAlike hhalt hpipe hi)
      exact ⟨_, _, e.response, exec_getr sel s, exec_getr sel s', hs ▸ e.apply_ports s, hs' ▸ e.apply_ports s'⟩

end

/-! ### The same words on two cores -/

/-- Two cores that go through the words `ws`, the second with the responses `base` before those of the first. -/
structure InLockstep (ws base : List Word) (s s' : State) : Prop where
  halt : s'.halt = s.halt
  pipe : s'.pipe = s.pipe
  cmds : s'.ports.cmds = s.ports.cmds
  left : s.ports.cmds ⊆ ws
  rsps : (∀ w ∈ ws, ∀ i, decode w = .ok i → answersAlike i = true) → s'.ports.rsps = base ++ s.ports.rsps

section
variable {ws base : List Word} {s s' : State}

/-- Both cores have put out one response to the word `w`. -/
theorem InLockstep.next (h : InLockstep ws base s s') {w : Word} {rest : List Word} (hw : s.ports.cmds = w :: rest)
    {t t' : State} {r r' : Word} (hhalt : t'.halt = t.halt) (hpipe : t'.pipe = t.pipe)
    (ht : t.ports = portsAfter (s.withCommands rest) r) (ht' : t'.ports = portsAfter (s'.withCommands rest) r')
    (hr : (∀ i, decode w = .ok i → answersAlike i = true) → r' = r) : InLockstep ws base t t' := by
  have hsub := hw ▸ h.left
  refine ⟨hhalt, hpipe, by rw [ht, ht']; rfl, by rw [ht]; exact (List.cons_subset.1 hsub).2, fun halike => ?_⟩
  rw [ht, ht', hr (halike w (List.cons_subset.1 hsub).1)]
  exact (congrArg (· ++ [r]) (h.rsps halike)).trans (List.append_assoc _ _ _)

theorem InLockstep.step (h : InLockstep ws base s s') :
    ∃ t t', step s = .next t ∧ step s' = .next t' ∧ InLockstep ws base t t' := by
  cases hw : s.ports.cmds with
  | nil => exact ⟨s, s', step_idle hw, step_idle (h.cmds.trans hw), h⟩
  | cons w rest =>
    have hw' := h.cmds.trans hw
    have hhalt : (s'.withCommands rest).halt = (s.withCommands rest).halt := h.halt
    have hpipe : (s'.withCommands rest).pipe = (s.withCommands rest).pipe := h.pipe
    cases hd : decode w with
    | error err =>
      obtain ⟨e, -, hs, hs'⟩ := illegalWord_sameEffect (i := .reset) hhalt
      refine ⟨_, _, hs ▸ step_illegal hw hd, hs' ▸ step_illegal hw' hd, ?_⟩
      exact h.next hw (e.apply_halt_congr hhalt) (e.apply_pipe_congr hpipe) (e.apply_ports _) (e.apply_ports _) fun _ => rfl
    | ok i =>
      obtain ⟨t, r, ht, hports, -⟩ := everyCommandAnswersOnce i (s.withCommands rest)
      obtain ⟨t', r', ht', hports', -⟩ := everyCommandAnswersOnce i (s'.withCommands rest)
      obtain ⟨hhalt', hpipe'⟩ := exec_keeps_agreement hhalt hpipe ht ht'
      refine ⟨t, t', (step_command hw hd).trans ht, (step_command hw' hd).trans ht',
        h.next hw hhalt' hpipe' hports hports' fun hi => ?_⟩
      obtain ⟨v, hv, hv'⟩ := (exec_sameResponse hhalt hpipe (hi i hd)).ports ht ht'
      exact (portsAfter_inj.1 (hports'.symm.trans hv')).trans (portsAfter_inj.1 (hports.symm.trans hv)).symm

theorem run_succ {M : Host.Core} {s t : M.State} (h : M.step s = .next t) (k : Nat) : M.run (k + 1) s = M.run k t := by
  rw [Host.Core.run, h]

theorem InLockstep.run (k : Nat) : ∀ {s s' : State}, InLockstep ws base s s' →
    ∃ t t', Host.Core.run Sys2Proof.core k s = .next t ∧ Host.Core.run Sys2Proof.core k s' = .next t' ∧
      InLockstep ws base t t' := by
  induction k with
  | zero => exact fun h => ⟨_, _, rfl, rfl, h⟩
  | succ k ih =>
    intro s s' h
    obtain ⟨t, t', ht, ht', hnext⟩ := h.step
    obtain ⟨a, a', ha, ha', hend⟩ := ih hnext
    exact ⟨a, a', (run_succ (M := Sys2Proof.core) ht k).trans ha, (run_succ (M := Sys2Proof.core) ht' k).trans ha', hend⟩

end

/-- Settles O22: the reset state and a core after `NEWSYM` agree on `HALT` and the PIPE unit, so every word keeps them in
lockstep (`InLockstep.run`). -/
theorem sameCommandsGiveTheSameSymbol : Obligations.SameCommandsGiveTheSameSymbol := by
  intro s u ws k hrun hu
  obtain rfl := Host.Outcome.next.inj ((exec_newsym_running hrun).symm.trans hu)
  have hstart : InLockstep ws (newsym s).ports.rsps { State.reset with ports := { cmds := ws, rsps := [] } }
      { newsym s with ports := { (newsym s).ports with cmds := ws } } :=
    ⟨hrun, rfl, rfl, List.Subset.refl ws, fun _ => (List.append_nil _).symm⟩
  obtain ⟨t, t', ht, ht', hend⟩ := hstart.run k
  exact ⟨t, t', ht, ht', hend.pipe.symm, hend.halt.symm, hend.rsps⟩

/-! ### Commands of two units -/

/-- A command but `RESET` sets flags, the same ones in every state in which it has the same effect. -/
theorem Effect.Allowed.apply_eflags {i : Instr} {s : State} {e : Effect} (he : e.Allowed i s) (hi : i ≠ .reset) :
    ∃ m, ∀ u, (e.apply u).eflags = u.eflags ||| m := by
  cases e with
  | answer | gf | rs | pipe | halted => exact ⟨0#4, fun _ => BitVec.or_zero.symm⟩
  | fail k => exact ⟨flagMask k, fun _ => rfl⟩
  | reset => exact absurd he hi

theorem writes_of_isRsCommand {i : Instr} (hi : isRsCommand i = true) :
    i ≠ .reset ∧ writesGf i = false ∧ writesPipe i = false :=
  match i, hi with
  | .rsinit _, _ | .rsrem, _ | .putr _, _ | .clrr, _ | .gete _, _ | .getg _, _ => ⟨nofun, rfl, rfl⟩

theorem writes_of_isPipeCommand {i : Instr} (hi : isPipeCommand i = true) :
    i ≠ .reset ∧ writesGf i = false ∧ writesRs i = false :=
  match i, hi with
  | .newsym, _ | .puti _, _ | .clri, _ | .seg _, _ | .getseg _ _, _ | .getsb _ _, _ | .vsel _ _ _, _ | .asm, _ | .ilv, _
  | .getd _, _ | .geto _, _ | .fnpat, _ | .place, _ | .mask _ _, _ | .getm _ _, _ | .encode _ _ _ _ _, _ =>
    ⟨nofun, rfl, rfl⟩

/-- Settles O23: a command of one unit leaves what the other reads, so each has one effect before and after the other
(`exec_sameEffect`); the effects write different units, and the flags they set are the same in either order. -/
theorem rsAndPipeCommandsCommute : Obligations.RsAndPipeCommandsCommute := by
  intro i j s hs hrun hi hj
  obtain ⟨hiReset, hiGf, hiPipe⟩ := writes_of_isRsCommand hi
  obtain ⟨hjReset, hjGf, hjRs⟩ := writes_of_isPipeCommand hj
  obtain ⟨a, -, ha, -⟩ := everyCommandAnswersOnce i s
  obtain ⟨c, -, hc, -⟩ := everyCommandAnswersOnce j s
  have hahalt : a.halt = s.halt := exec_keeps_halt hiPipe ha
  have hchalt : c.halt = s.halt := ((exec_keepsFrom hs hc).2 hrun).trans hrun.symm
  have hares := exec_keeps_res hiGf ha
  have hcres := exec_keeps_res hjGf hc
  have hapipe := exec_keeps_pipe hiPipe ha
  have hcrs := exec_keeps_rs hjRs hc
  obtain ⟨e, he, hea, hed⟩ := exec_sameEffect (ReadsAlike.of_isRsCommand hi hchalt hcrs)
  obtain ⟨f, hf, hfc, hfb⟩ := exec_sameEffect (ReadsAlike.of_isPipeCommand hj hahalt hapipe)
  obtain rfl := Host.Outcome.next.inj (hea.symm.trans ha)
  obtain rfl := Host.Outcome.next.inj (hfc.symm.trans hc)
  obtain ⟨m, hm⟩ := he.apply_eflags hiReset
  obtain ⟨n, hn⟩ := hf.apply_eflags hjReset
  have heflags : (f.apply (e.apply s)).eflags = (e.apply (f.apply s)).eflags := by
    rw [hn, hm, hm, hn, BitVec.or_assoc, BitVec.or_assoc, BitVec.or_comm m n]
  exact ⟨_, _, _, _, ha, hfb, hc, hed, heflags,
    ((f.apply_halt_congr hahalt).trans hchalt).trans ((e.apply_halt_congr hchalt).trans hahalt).symm,
    ((f.apply_res_congr hares).trans hcres).trans ((e.apply_res_congr hcres).trans hares).symm,
    (exec_keeps_rs hjRs hfb).trans (e.apply_rs_congr hcrs).symm,
    (f.apply_pipe_congr hapipe).trans (exec_keeps_pipe hiPipe hed).symm⟩

end Sys2Proof.Machine
end
